-- ==== Sys2Proof/Word.lean ====
section
/-! DEFINITION. The word types of the TDU: 32-bit command, register and pixel words, bytes, and the RGB triple. -/

namespace Sys2Proof

/-- A 32-bit word: a command, a host register or a pixel word (rules R66, R74, R100). -/
abbrev Word := BitVec 32

/-- An 8-bit byte: one byte of tile memory, a palette selector, one colour channel. -/
abbrev Byte := BitVec 8

/-- The RGB triple a palette resolver answers (rule R8). -/
structure Rgb where
  r : Byte
  g : Byte
  b : Byte
  deriving DecidableEq, Repr

end Sys2Proof
end

