-- ==== Sys2Proof/Syntax.lean ====
section
/-! DEFINITION. The seven commands of the opcode table (rule R101), one constructor each, operand fields as they
stand in the command word (rules R102 to R107). -/

namespace Sys2Proof

/-- `color_mode`, bit 8 of a `DECODE` word (rule R103). -/
inductive Mode where
  | mono
  | color
  deriving DecidableEq, Repr

inductive Instr where
  /-- `INIT bank_count` (rules R102, R131). -/
  | init (bankCount : BitVec 2)
  /-- `DECODE mode, sel` (rules R103, R160). -/
  | decode (mode : Mode) (sel : BitVec 8)
  /-- `SETPIX bank, tile, ly, lx`, the colour in `ARG` (rules R104, R142). -/
  | setpix (bank : BitVec 2) (tile : BitVec 10) (ly lx : BitVec 4)
  /-- `MSNAP` (rules R105, R143). -/
  | msnap
  /-- `TSNAP bank, tile` (rules R106, R144). -/
  | tsnap (bank : BitVec 2) (tile : BitVec 10)
  /-- `SETBG`, the reference in `ARG` (rules R105, R191). -/
  | setbg
  /-- `GETBG` (rules R105, R192). -/
  | getbg
  deriving DecidableEq, Repr

end Sys2Proof
end

