-- ==== Sys2Proof/Decode.lean ====
section
/-! DEFINITION. The decoder, total on all 2^32 words (rule R108), and after it the encoder (rules R102 to R106). -/

namespace Sys2Proof

/-- Why a word is no command (rule R108); both reasons raise `ILLEGAL_CMD`. -/
inductive Illegal where
  /-- Opcode `0x0` or `0x8` to `0xF` (rule R110). -/
  | reservedOpcode
  /-- A defined opcode with a reserved bit set (rule R100). -/
  | reservedBits
  deriving DecidableEq, Repr

def Mode.bit : Mode → BitVec 1
  | .mono => 0#1
  | .color => 1#1

def Mode.ofBit (m : BitVec 1) : Mode := if m = 1#1 then .color else .mono

/-- The reason for refusing a word that matches no row of the opcode table. -/
def illegalReason (w : Word) : Illegal :=
  let op := w.extractLsb' 28 4
  if 0x1#4 ≤ op ∧ op ≤ 0x7#4 then .reservedBits else .reservedOpcode

/-- `(w & mask) = match` row by row (rule R108), the fields taken as they stand (rule R107). -/
def decode (w : Word) : Except Illegal Instr :=
  if w &&& 0xFFFFFFFC#32 = 0x10000000#32 then
    .ok (.init (w.extractLsb' 0 2))
  else if w &&& 0xFFFFFE00#32 = 0x20000000#32 then
    .ok (.decode (Mode.ofBit (w.extractLsb' 8 1)) (w.extractLsb' 0 8))
  else if w &&& 0xFFF00000#32 = 0x30000000#32 then
    .ok (.setpix (w.extractLsb' 18 2) (w.extractLsb' 8 10) (w.extractLsb' 4 4) (w.extractLsb' 0 4))
  else if w &&& 0xFFFFFFFF#32 = 0x40000000#32 then
    .ok .msnap
  else if w &&& 0xFFF000FF#32 = 0x50000000#32 then
    .ok (.tsnap (w.extractLsb' 18 2) (w.extractLsb' 8 10))
  else if w &&& 0xFFFFFFFF#32 = 0x60000000#32 then
    .ok .setbg
  else if w &&& 0xFFFFFFFF#32 = 0x70000000#32 then
    .ok .getbg
  else
    .error (illegalReason w)

/-- The one word of a command, field by field from the formats of rules R102 to R106. -/
def encode : Instr → Word
  | .init bankCount => 0x1#4 ++ 0#26 ++ bankCount
  | .decode mode sel => 0x2#4 ++ 0#19 ++ mode.bit ++ sel
  | .setpix bank tile ly lx => 0x3#4 ++ 0#8 ++ bank ++ tile ++ ly ++ lx
  | .msnap => 0x4#4 ++ 0#28
  | .tsnap bank tile => 0x5#4 ++ 0#8 ++ bank ++ tile ++ 0#8
  | .setbg => 0x6#4 ++ 0#28
  | .getbg => 0x7#4 ++ 0#28

/-- What the decoder reads from an instruction whose table bits are `w`; a command is one 32-bit word (rule R100), so
the bits from `nbits` up are zero. -/
def decodeTableWord (nbits w : Nat) : Option Instr :=
  (decode (BitVec.ofNat 32 (w % 2 ^ nbits))).toOption

end Sys2Proof
end

