-- ==== Sys2Proof/Config.lean ====
section
/-! DEFINITION. What one instance of the hardware fixes (the record `Cfg` of rule R5) and the free value. -/

namespace Sys2Proof

/-- The configuration parameters of rule R5, constant for one instance. Both gaps are 0 to 255 by their type. -/
structure Cfg where
  /-- `VGAP`: width of each vertical separator line, and the gap between bank blocks. -/
  vgap : BitVec 8
  /-- `HGAP`: thickness of the horizontal separator band. -/
  hgap : BitVec 8
  /-- `GRID_RGBA`: the line colour. -/
  grid : Word
  /-- `BLANK_RGBA`: what a blank pixel holds after `INIT`. -/
  blank : Word
  deriving DecidableEq, Repr

/-- The defaults of rule R5. -/
def Cfg.standard : Cfg :=
  { vgap := 2#8, hgap := 3#8, grid := 0x808080FF#32, blank := 0x00000000#32 }

/-- FREE VALUE (log entry 8). Whether the `n`-th window read made while `BUSY = 1` returns the addressed word as it is
before the pending write (`true`) or as it is after it (`false`): rule R253 guarantees neither. -/
opaque Config.tornPick : Nat → Bool

end Sys2Proof
end

