-- ==== Sys2Proof/Machine/State.lean ====
section
/-! DEFINITION. The state of the TDU (rule R20), the inputs its step consults (rule R7), and the host's remaining
actions; all plain data. -/

namespace Sys2Proof.Machine

/-- A sparse memory: (address, value) pairs with strictly rising addresses (`Cells.sorted`). -/
abbrev Cells (α : Type) := List (Nat × α)

/-- The fault causes of rule R201. -/
inductive Cause where
  | illegalCmd
  | cmdOverlap
  | notInit
  | badBankcount
  | badX
  | badY
  | badTile
  | badBank
  | tilememErr
  | badColor
  | badWindow
  | badAddr
  deriving DecidableEq, Repr

/-- What the read window shows (rule R29). -/
inductive WinSel where
  | none
  | mosaic
  | tile
  deriving DecidableEq, Repr

/-- The pixel counter `PXC = (b, t, y, x)` of rule R26. -/
structure Pxc where
  b : BitVec 1
  t : BitVec 9
  y : BitVec 3
  x : BitVec 3
  deriving DecidableEq, Repr

/-- The next micro-step of the running command (rules R10, R131, R170): one memory access, resolver call or check. -/
inductive Phase where
  /-- No command is running. -/
  | idle
  /-- `INIT bankCount`: write tile-buffer word `i` of the new layout, in the order of rule R131. -/
  | paintTile (bankCount : BitVec 2) (i : Nat)
  /-- `INIT bankCount`: write mosaic word `i` of the new layout, row by row. -/
  | paintMosaic (bankCount : BitVec 2) (i : Nat)
  | readLower
  | readUpper
  | resolve
  | check
  | writeTile
  | writeMosaic
  deriving DecidableEq, Repr

/-- One action of the host (rule R112), or of the environment the host owns. -/
inductive HostAction where
  /-- Write a word to a word offset of the host port; a command written so is one transition (rule R10, command level). -/
  | write (off : BitVec 21) (w : Word)
  /-- Write a word to `CMD` and let the engine run it one micro-step at a time (rule R10, micro-step level). -/
  | issue (w : Word)
  /-- Read a word offset of the host port. -/
  | read (off : BitVec 21)
  /-- `WAIT`: stay here until `BUSY = 0`. -/
  | wait
  /-- The host makes no access: the engine may perform one micro-step. -/
  | turn
  /-- `TILEBYTE bank, off, v`: a host write to tile memory. -/
  | tileByte (bank : BitVec 1) (off : BitVec 13) (v : Byte)
  /-- What the resolver answers for (`sel`, `idx`) from now on; `none` is an invalid colour (rules R8, R252). -/
  | resolver (sel : BitVec 8) (idx : BitVec 2) (answer : Option Rgb)
  /-- `RESET`: the reset event of rule R240. -/
  | reset
  deriving DecidableEq, Repr

structure State where
  /-- `INITED` (R21). -/
  inited : Bool
  /-- `NB`, the bank count of the layout (R21). -/
  nb : BitVec 2
  /-- `BUSY` (R22). -/
  busy : Bool
  /-- `FAULT`, sticky (R22). -/
  fault : Bool
  /-- `ARG` (R24). -/
  arg : Word
  /-- `RESULT` (R25). -/
  result : Word
  /-- `FCAUSE[7:0]` (R28). -/
  fcause : Byte
  /-- `FINFO` (R28). -/
  finfo : Word
  /-- `WINSEL` (R29). -/
  winsel : WinSel
  /-- `WINBANK` (R29). -/
  winbank : BitVec 1
  /-- `WINTILE` (R29). -/
  wintile : BitVec 9
  /-- `BGVALID` (R30). -/
  bgvalid : Bool
  /-- `BGREF` (R30). -/
  bgref : Word
  /-- `TBUF` by the linear index of R65; an unlisted word of the layout is `BLANK_RGBA`. -/
  tbuf : Cells Word
  /-- `MOSAIC` by `mosaicKey my mx`; an unlisted word of the layout is what `INIT` paints there. -/
  mosaic : Cells Word
  /-- `PXC` (R26). -/
  pxc : Pxc
  /-- `SELR` (R27). -/
  selr : Byte
  /-- `NBREQ` (R27). -/
  nbreq : BitVec 2
  /-- `LO` (R27). -/
  lo : Byte
  /-- `UP` (R27). -/
  up : Byte
  /-- `IDX` (R27). -/
  idx : BitVec 2
  /-- `COL` (R27). -/
  col : Word
  /-- The sequencer's next micro-step (R10, R170). -/
  phase : Phase
  /-- INPUT: the configuration record (R5). -/
  cfg : Cfg
  /-- INPUT: tile memory, key `bank * 8192 + offset`; an unlisted byte is absent (R61). -/
  tiles : List Host.Cell
  /-- INPUT: the resolver, key `sel * 4 + idx`; an unlisted answer is `none` (R8). -/
  palette : Cells Rgb
  /-- MODEL: the host's remaining actions, the next one first (R262; log entry 1). -/
  script : List HostAction
  /-- MODEL: the word the host's last read returned (log entry 7). -/
  rdata : Word
  /-- MODEL: how many free values have been taken (log entry 8). -/
  picks : Nat
  deriving DecidableEq, Repr

/-- Where the model stops with a fault. The TDU's own faults are no stop: they are next states with `FAULT = 1`. -/
inductive Fault where
  /-- Raised by a window read of a pixel word that does not exist in the layout (rules R31, R32). Safe: no state that
  keeps `State.Inv` raises it. -/
  | absentPixel
  deriving DecidableEq, Repr

/-- Where the model stops without a meaning. -/
inductive Refusal where
  /-- Raised by an arm of `exec` that has no meaning yet; safe. No arm of this model raises it. -/
  | notModelled (mnemonic : String)
  deriving DecidableEq, Repr

/-- The table of rule R36. The latches R36 leaves unspecified are 0 (DESIGN CHOICE, log entry 5); the inputs, which
reset does not touch, are the default `Cfg` and no tile memory and no resolver (DESIGN CHOICE, log entry 3). -/
def State.reset : State :=
  { inited := false, nb := 0#2, busy := false, fault := false
    arg := 0#32, result := 0#32, fcause := 0#8, finfo := 0#32
    winsel := .none, winbank := 0#1, wintile := 0#9
    bgvalid := false, bgref := 0#32
    tbuf := [], mosaic := []
    pxc := { b := 0#1, t := 0#9, y := 0#3, x := 0#3 }
    selr := 0#8, nbreq := 0#2, lo := 0#8, up := 0#8, idx := 0#2, col := 0#32
    phase := .idle
    cfg := Cfg.standard, tiles := [], palette := []
    script := [], rdata := 0#32, picks := 0 }

end Sys2Proof.Machine
end

