-- ==== Sys2Proof/Machine/Layout.lean ====
section
/-! DEFINITION. Sizes, placement and gridlines (rules R6, R65, R67 to R70, R132), all unsigned arithmetic (R180).
The fixed constants of rule R4 stand as literals: 8×8 pixels a tile, 16 bytes a tile, 384 tiles a bank, 16 tiles a
mosaic row, `BANK_W = 128`, `BANK_H = 192`, `ROWGROUP = 16`. -/

namespace Sys2Proof.Machine

/-- `128 + VGAP`: from one bank block's origin to the next (rule R68). -/
def bankPitch (c : Cfg) : Nat := 128 + c.vgap.toNat

/-- `W(NB)` (rule R67). -/
def mosaicW (c : Cfg) (nb : BitVec 2) : Nat := nb.toNat * bankPitch c

/-- `H` (rule R67). -/
def mosaicH (c : Cfg) : Nat := 192 + c.hgap.toNat

/-- `BX(b)` (rule R68). -/
def bankX (c : Cfg) (b : Nat) : Nat := b * bankPitch c

/-- `mx` of column `x` of tile `t` of bank `b` (rule R69). -/
def pixelMx (c : Cfg) (b t x : Nat) : Nat := bankX c b + t % 16 * 8 + x

/-- `my` of row `y` of tile `t` (rule R69). -/
def pixelMy (c : Cfg) (t y : Nat) : Nat := t / 16 * 8 + t / 16 / 16 * c.hgap.toNat + y

/-- Whether `(mx, my)` is a gridline pixel (rule R70, the equivalent form). -/
def isGrid (c : Cfg) (mx my : Nat) : Bool :=
  decide (128 ≤ mx % bankPitch c) || decide (128 ≤ my ∧ my < 128 + c.hgap.toNat)

/-- `Paint(NB, mx, my)` (rule R132). -/
def paint (c : Cfg) (mx my : Nat) : Word := if isGrid c mx my then c.grid else c.blank

/-- The linear word index of `TBUF[b][t][y][x]` (rule R65). -/
def tbufIndex (b t y x : Nat) : Nat := ((b * 384 + t) * 8 + y) * 8 + x

/-- The linear word index of `MOSAIC[my][mx]`, by which the window names it (rule R67). -/
def mosaicIndex (c : Cfg) (nb : BitVec 2) (my mx : Nat) : Nat := my * mosaicW c nb + mx

/-- How many words `TBUF` has (rule R31). -/
def tbufSize (nb : BitVec 2) : Nat := nb.toNat * 24576

/-- How many words `MOSAIC` has (rule R32). -/
def mosaicSize (c : Cfg) (nb : BitVec 2) : Nat := mosaicW c nb * mosaicH c

/-- The key under which the model lists `MOSAIC[my][mx]`: the coordinate packed, `my` above 16 bits of `mx` (rule R6:
`W` fits 16 bits). Unlike the linear index it does not move when `INIT` changes `W(NB)`. -/
def mosaicKey (my mx : Nat) : Nat := my * 65536 + mx

/-- Whether a key names a mosaic word of the layout for `nb` banks (rule R32). -/
def inMosaic (c : Cfg) (nb : BitVec 2) (k : Nat) : Bool :=
  decide (k % 65536 < mosaicW c nb) && decide (k / 65536 < mosaicH c)

/-- What `INIT` paints at the mosaic word of a key (rule R132: the same in every layout that has the word). -/
def paintAt (c : Cfg) (k : Nat) : Word := paint c (k % 65536) (k / 65536)

end Sys2Proof.Machine
end

