-- ==== Sys2Proof/Machine/Flags.lean ====
section
/-! DEFINITION. The codes and the registers that are computed on a read: `STATUS` (R22), `FCAUSE` (R28), `WINLEN`
(R29), and the two level outputs (R221). There are no arithmetic flags (R22). -/

namespace Sys2Proof.Machine

/-- The code of a cause (rule R201). -/
def Cause.code : Cause → Byte
  | .illegalCmd => 1#8
  | .cmdOverlap => 2#8
  | .notInit => 3#8
  | .badBankcount => 4#8
  | .badX => 5#8
  | .badY => 6#8
  | .badTile => 7#8
  | .badBank => 8#8
  | .tilememErr => 9#8
  | .badColor => 10#8
  | .badWindow => 11#8
  | .badAddr => 12#8

/-- `WINSEL` as its two bits (rule R29). -/
def WinSel.code : WinSel → BitVec 2
  | .none => 0#2
  | .mosaic => 1#2
  | .tile => 2#2

/-- `STATUS` (rule R22), from bit 31 down to bit 0. -/
def State.status (s : State) : Word :=
  0#19 ++ BitVec.ofBool s.bgvalid ++ 0#2 ++ s.winsel.code ++ 0#2 ++ s.nb ++ 0#1
    ++ BitVec.ofBool s.fault ++ BitVec.ofBool s.inited ++ BitVec.ofBool s.busy

/-- `WINLEN` as a number of words (rule R29). -/
def State.winlen (s : State) : Nat :=
  match s.winsel with
  | .none => 0
  | .mosaic => mosaicSize s.cfg s.nb
  | .tile => 64

/-- The `BUSY` level output (rule R221). -/
def State.busyOut (s : State) : Bool := s.status.getLsbD 0

/-- The `FAULT` level output (rule R221). -/
def State.faultOut (s : State) : Bool := s.status.getLsbD 2

end Sys2Proof.Machine
end

