-- ==== Sys2Proof/Machine/Memory.lean ====
section
/-! DEFINITION. Sparse memories in canonical form: strictly rising addresses, and (`Cells.put`) no entry equal to what
an unlisted address reads as. -/

namespace Sys2Proof.Machine

/-- The canonical order: every address once, rising. -/
abbrev Cells.sorted {α : Type} (m : Cells α) : Prop :=
  m.Pairwise fun p q => p.1 < q.1

/-- The listed value at an address. -/
def Cells.find {α : Type} (a : Nat) : Cells α → Option α
  | [] => none
  | (k, v) :: m => if k = a then some v else Cells.find a m

/-- Lists `v` at `a`, in place of an earlier entry there. -/
def Cells.insert {α : Type} (a : Nat) (v : α) : Cells α → Cells α
  | [] => [(a, v)]
  | (k, u) :: m =>
    if a < k then (a, v) :: (k, u) :: m
    else if a = k then (a, v) :: m
    else (k, u) :: Cells.insert a v m

/-- Removes every entry at `a`. -/
def Cells.erase {α : Type} (a : Nat) : Cells α → Cells α
  | [] => []
  | (k, u) :: m => if k = a then Cells.erase a m else (k, u) :: Cells.erase a m

/-- Reads `a` in a memory whose unlisted words read as `dflt`. -/
def Cells.get {α : Type} (dflt : α) (a : Nat) (m : Cells α) : α :=
  (Cells.find a m).getD dflt

/-- Writes `v` at `a` in a memory whose unlisted word `a` reads as `dflt`: that value removes the entry. -/
def Cells.put {α : Type} [DecidableEq α] (dflt : α) (a : Nat) (v : α) (m : Cells α) : Cells α :=
  if v = dflt then Cells.erase a m else Cells.insert a v m

/-- Lists or removes an entry of a memory whose unlisted addresses are absent. -/
def Cells.set {α : Type} (a : Nat) (v : Option α) (m : Cells α) : Cells α :=
  match v with
  | some u => Cells.insert a u m
  | none => Cells.erase a m

/-- Keeps the entries at the addresses `p` names. -/
def Cells.keep {α : Type} (p : Nat → Bool) (m : Cells α) : Cells α := m.filter fun c => p c.1

end Sys2Proof.Machine
end

