-- ==== Sys2Proof/Machine/Ops.lean ====
section
/-! DEFINITION. The shared operations: fault entry, command acceptance, sequencing that a fault ends, the pixel
memories, tile memory and the resolver, and the reset event. -/

namespace Sys2Proof.Machine

/-- Fault entry, `raise <CAUSE>(info)` (rule R210). Once `FAULT = 1` it has no effect (rule R204). The command in
progress performs no further micro-step, so the sequencer is idle. -/
def raise (c : Cause) (info : Word) (s : State) : State :=
  if s.fault then s
  else { s with fcause := c.code, finfo := info, fault := true, busy := false, phase := .idle }

/-- Goes on with `f` unless a fault has ended the command (rules R170, R211). -/
def ifOk (f : State → State) (s : State) : State := if s.fault then s else f s

/-- `for a in as: f a`, ended by the first fault (rules R170, R211). -/
def forEach {α : Type} (f : α → State → State) : List α → State → State
  | [], s => s
  | a :: as, s => ifOk (forEach f as) (f a s)

/-- The acceptance checks of rule R130 for a legal command word `w`, and `start` once it is accepted: ignored while
faulted, `CMD_OVERLAP` while busy, `NOT_INIT` for a command that needs `INITED = 1`, in this order (rule R203). -/
def accept (w : Word) (needsInit : Bool) (start : State → State) (s : State) : State :=
  if s.fault then s
  else if s.busy then raise .cmdOverlap w s
  else if needsInit && !s.inited then raise .notInit w s
  else start { s with busy := true }

/-- `if no fault was raised: BUSY <- 0` (rule R130). -/
def complete (s : State) : State := ifOk (fun s => { s with busy := false }) s

/-- A command as one transition: acceptance, its rule, completion (rules R10, R130). -/
def perform (w : Word) (needsInit : Bool) (body : State → State) (s : State) : State :=
  accept w needsInit (fun s => complete (body s)) s

/-- A word that matches no row of the opcode table, written to `CMD` (rules R108, R130). -/
def rejectWord (w : Word) (s : State) : State :=
  if s.fault then s
  else if s.busy then raise .cmdOverlap w s
  else raise .illegalCmd w s

/-- The word `TBUF` holds at linear index `i` of the layout. -/
def State.tbufAt (s : State) (i : Nat) : Word := Cells.get s.cfg.blank i s.tbuf

/-- The word `MOSAIC` holds under key `k`. -/
def State.mosaicAt (s : State) (k : Nat) : Word := Cells.get (paintAt s.cfg k) k s.mosaic

/-- `TBUF[b][t][y][x]`, if that pixel word exists (rule R31). -/
def State.tbufWord (s : State) (b t y x : Nat) : Option Word :=
  if b < s.nb.toNat ∧ t < 384 ∧ y < 8 ∧ x < 8 then some (s.tbufAt (tbufIndex b t y x)) else none

/-- `MOSAIC[my][mx]`, if that pixel word exists (rule R32). -/
def State.mosaicWord (s : State) (my mx : Nat) : Option Word :=
  if mx < mosaicW s.cfg s.nb ∧ my < mosaicH s.cfg then some (s.mosaicAt (mosaicKey my mx)) else none

/-- `TBUF[..] <- c` at linear index `i`. -/
def writeTbuf (i : Nat) (c : Word) (s : State) : State :=
  { s with tbuf := Cells.put s.cfg.blank i c s.tbuf }

/-- `MOSAIC[..] <- c` at key `k`. -/
def writeMosaic (k : Nat) (c : Word) (s : State) : State :=
  { s with mosaic := Cells.put (paintAt s.cfg k) k c s.mosaic }

/-- The key of the mosaic pixel of (`b`, `t`, `x`, `y`) (rule R69). -/
def pixelKey (c : Cfg) (b t y x : Nat) : Nat := mosaicKey (pixelMy c t y) (pixelMx c b t x)

/-- `SetPixel(b, t, x, y, c)`: the tile buffer first, then the mosaic, the same word (rule R140). -/
def setPixel (b t y x : Nat) (c : Word) (s : State) : State :=
  writeMosaic (pixelKey s.cfg b t y x) c (writeTbuf (tbufIndex b t y x) c s)

/-- The key of tile memory's byte `off` of bank `b`. -/
def tileKey (b off : Nat) : Nat := b * 8192 + off

/-- `TileMem(b, off)` (rule R61). -/
def State.tileByte (s : State) (b off : Nat) : Option Byte := Cells.find (tileKey b off) s.tiles

/-- `Resolve(sel, idx)` (rule R8). -/
def State.resolve (s : State) (sel : Byte) (idx : BitVec 2) : Option Rgb :=
  Cells.find (sel.toNat * 4 + idx.toNat) s.palette

/-- Both memories made anew for `nb` banks, every word blank or gridline (rules R131, R132): in the sparse form,
nothing listed. -/
def recreate (nb : BitVec 2) (s : State) : State := { s with nb := nb, tbuf := [], mosaic := [] }

/-- The layout becomes that of `nb` banks (rule R21): the words of it keep what has been written to them, the words
outside it no longer exist (rules R31, R32). -/
def relayout (nb : BitVec 2) (s : State) : State :=
  { s with
    nb := nb
    tbuf := Cells.keep (fun k => decide (k < tbufSize nb)) s.tbuf
    mosaic := Cells.keep (inMosaic s.cfg nb) s.mosaic }

/-- The reset event (rule R240): every piece of state as after reset (rule R36), the inputs untouched (rule R242). -/
def resetEvent (s : State) : State :=
  { State.reset with
    cfg := s.cfg, tiles := s.tiles, palette := s.palette
    script := s.script, rdata := s.rdata, picks := s.picks }

/-- `TILEBYTE bank, off, v` (rule R112): the host writes a byte of tile memory. -/
def storeTileByte (bank : BitVec 1) (off : BitVec 13) (v : Byte) (s : State) : State :=
  { s with tiles := Cells.insert (tileKey bank.toNat off.toNat) v s.tiles }

/-- The palette state behind the resolver changes (rules R8, R252). -/
def setResolver (sel : Byte) (idx : BitVec 2) (answer : Option Rgb) (s : State) : State :=
  { s with palette := Cells.set (sel.toNat * 4 + idx.toNat) answer s.palette }

end Sys2Proof.Machine
end

