-- ==== Sys2Proof/Machine/BgMap.lean ====
section
/-! DEFINITION. The background-map slot commands `SETBG`, `GETBG` (42_bgmap.md). Neither needs `INITED = 1` (R190). -/

namespace Sys2Proof.Machine

/-- The rule of `SETBG` (rule R191). -/
def setbgBody (s : State) : State := { s with bgref := s.arg, bgvalid := true }

/-- `SETBG` (rules R130, R191). -/
def execSetbg (s : State) : Host.Outcome State Fault Refusal :=
  .next (perform (encode .setbg) false setbgBody s)

/-- The rule of `GETBG` (rule R192). -/
def getbgBody (s : State) : State := { s with result := if s.bgvalid then s.bgref else 0#32 }

/-- `GETBG` (rules R130, R192). -/
def execGetbg (s : State) : Host.Outcome State Fault Refusal :=
  .next (perform (encode .getbg) false getbgBody s)

end Sys2Proof.Machine
end

