-- ==== Sys2Proof/Machine/Operands.lean ====
section
/-! DEFINITION. The operand forms: the `FINFO` layouts (R62, R202), the range checks (R141, R144), the checked pixel
write (R141), the bank count of a pass (R161), and the row unpack (R164, R165). -/

namespace Sys2Proof.Machine

/-- The coordinate layout of `FINFO` (rules R141, R202). -/
def coordInfo (b t y x : Nat) : Word :=
  BitVec.ofNat 32 ((b <<< 18) ||| (t <<< 8) ||| (y <<< 4) ||| x)

/-- The `FINFO` of `TILEMEM_ERR` (rule R62). -/
def tileInfo (b off : Nat) : Word := BitVec.ofNat 32 ((b <<< 18) ||| off)

/-- The range checks of `SetPixelChecked`, in the order x, y, tile, bank (rule R141). -/
def checkPixel (b t y x : Nat) (s : State) : State :=
  if 8 ≤ x then raise .badX (coordInfo b t y x) s
  else if 8 ≤ y then raise .badY (coordInfo b t y x) s
  else if 384 ≤ t then raise .badTile (coordInfo b t y x) s
  else if s.nb.toNat ≤ b then raise .badBank (coordInfo b t y x) s
  else s

/-- `SetPixelChecked(b, t, x, y, c)` (rule R141). -/
def setPixelChecked (b t y x : Nat) (c : Word) (s : State) : State :=
  ifOk (setPixel b t y x c) (checkPixel b t y x s)

/-- The range checks of `TSNAP`, in the order tile, bank (rule R144). -/
def checkTile (b t : Nat) (s : State) : State :=
  if 384 ≤ t then raise .badTile (coordInfo b t 0 0) s
  else if s.nb.toNat ≤ b then raise .badBank (coordInfo b t 0 0) s
  else s

/-- `NBREQ`, from the mode alone (rule R161). -/
def banksRequested : Mode → BitVec 2
  | .mono => 1#2
  | .color => 2#2

/-- `IDX(lo, up, x)` (rule R165). -/
def colourIndex (lo up : Byte) (x : Nat) : BitVec 2 :=
  ((((up >>> (7 - x)) &&& 1#8) <<< 1) ||| ((lo >>> (7 - x)) &&& 1#8)).setWidth 2

/-- `UnpackRow(lo, up)`: the eight lanes, lane 0 the leftmost pixel (rule R164). -/
def unpackRow (lo up : Byte) : List (BitVec 2) := (List.range 8).map (colourIndex lo up)

/-- Colour assembly: `{R, G, B, 0xFF}` (rules R66, R167). -/
def opaqueColour (c : Rgb) : Word := c.r ++ c.g ++ c.b ++ 0xFF#8

end Sys2Proof.Machine
end

