-- ==== Sys2Proof/Machine/Canvas.lean ====
section
/-! DEFINITION. The mosaic canvas commands `INIT`, `SETPIX`, `MSNAP`, `TSNAP` (40_canvas.md). -/

namespace Sys2Proof.Machine

/-- `BAD_BANKCOUNT` before anything is written (rule R131). -/
def checkBankcount (bankCount : BitVec 2) (s : State) : State :=
  if bankCount ≠ 1#2 ∧ bankCount ≠ 2#2 then raise .badBankcount (encode (.init bankCount)) s else s

/-- The last assignments of `INIT` (rule R131). -/
def finishInit (s : State) : State := { s with winsel := .none, inited := true }

/-- The rule of `INIT`, both memories painted in one assignment (rule R131, corner case b). -/
def initBody (bankCount : BitVec 2) (s : State) : State :=
  ifOk (fun s => finishInit (recreate bankCount s)) (checkBankcount bankCount s)

/-- `INIT bank_count` (rules R130, R131). -/
def execInit (bankCount : BitVec 2) (s : State) : Host.Outcome State Fault Refusal :=
  .next (perform (encode (.init bankCount)) false (initBody bankCount) s)

/-- `SETPIX bank, tile, ly, lx` (rules R130, R142): the colour is `ARG` as given. -/
def execSetpix (bank : BitVec 2) (tile : BitVec 10) (ly lx : BitVec 4) (s : State) :
    Host.Outcome State Fault Refusal :=
  .next (perform (encode (.setpix bank tile ly lx)) true
    (fun s => setPixelChecked bank.toNat tile.toNat ly.toNat lx.toNat s.arg s) s)

/-- The rule of `MSNAP` (rule R143). -/
def msnapBody (s : State) : State :=
  { s with winsel := .mosaic, result := BitVec.ofNat 32 ((mosaicH s.cfg <<< 16) ||| mosaicW s.cfg s.nb) }

/-- `MSNAP` (rules R130, R143). -/
def execMsnap (s : State) : Host.Outcome State Fault Refusal :=
  .next (perform (encode .msnap) true msnapBody s)

/-- The rule of `TSNAP` once its checks have passed (rule R144). -/
def showTile (bank : BitVec 2) (tile : BitVec 10) (s : State) : State :=
  { s with
    winsel := .tile, winbank := bank.setWidth 1, wintile := tile.setWidth 9
    result := BitVec.ofNat 32 ((8 <<< 16) ||| 8) }

/-- `TSNAP bank, tile` (rules R130, R144). -/
def execTsnap (bank : BitVec 2) (tile : BitVec 10) (s : State) : Host.Outcome State Fault Refusal :=
  .next (perform (encode (.tsnap bank tile)) true
    (fun s => ifOk (showTile bank tile) (checkTile bank.toNat tile.toNat s)) s)

end Sys2Proof.Machine
end

