-- ==== Sys2Proof/Machine/Pass.lean ====
section
/-! DEFINITION. `DECODE` (41_decode.md): the accesses of a pass one by one, shared with the micro-step engine, and the
loop nest of rule R160. -/

namespace Sys2Proof.Machine

/-- The pixel counter at (`b`, `t`, `y`, `x`) (rule R26). -/
def Pxc.of (b t y x : Nat) : Pxc :=
  { b := BitVec.ofNat 1 b, t := BitVec.ofNat 9 t, y := BitVec.ofNat 3 y, x := BitVec.ofNat 3 x }

/-- The byte offset of the lower byte of the row `PXC` names (rules R63, R162, R163). -/
def Pxc.rowOffset (p : Pxc) : Nat := 16 * p.t.toNat + 2 * p.y.toNat

/-- `LO <- TileRead(b, 16*t + 2*y)`, or `TILEMEM_ERR` (rules R62, R163). -/
def readLower (s : State) : State :=
  match s.tileByte s.pxc.b.toNat s.pxc.rowOffset with
  | some v => { s with lo := v }
  | none => raise .tilememErr (tileInfo s.pxc.b.toNat s.pxc.rowOffset) s

/-- `UP <- TileRead(b, 16*t + 2*y + 1)`, or `TILEMEM_ERR` (rules R62, R163). -/
def readUpper (s : State) : State :=
  match s.tileByte s.pxc.b.toNat (s.pxc.rowOffset + 1) with
  | some v => { s with up := v }
  | none => raise .tilememErr (tileInfo s.pxc.b.toNat (s.pxc.rowOffset + 1)) s

/-- The coordinate `PXC` names, in the coordinate layout (rule R202). -/
def Pxc.info (p : Pxc) : Word := coordInfo p.b.toNat p.t.toNat p.y.toNat p.x.toNat

/-- `IDX`, the resolver call, and `COL`, or `BAD_COLOR` (rules R165, R166, R167). -/
def resolvePixel (s : State) : State :=
  let s := { s with idx := colourIndex s.lo s.up s.pxc.x.toNat }
  match s.resolve s.selr s.idx with
  | some c => { s with col := opaqueColour c }
  | none => raise .badColor s.pxc.info s

/-- The checks of `SetPixelChecked` at `PXC` (rules R141, R168). -/
def checkAtPxc (s : State) : State :=
  checkPixel s.pxc.b.toNat s.pxc.t.toNat s.pxc.y.toNat s.pxc.x.toNat s

/-- `TBUF[b][t][y][x] <- COL` at `PXC` (rules R140, R168). -/
def writeTbufAtPxc (s : State) : State :=
  writeTbuf (tbufIndex s.pxc.b.toNat s.pxc.t.toNat s.pxc.y.toNat s.pxc.x.toNat) s.col s

/-- `MOSAIC[my][mx] <- COL` at `PXC` (rules R140, R168). -/
def writeMosaicAtPxc (s : State) : State :=
  writeMosaic (pixelKey s.cfg s.pxc.b.toNat s.pxc.t.toNat s.pxc.y.toNat s.pxc.x.toNat) s.col s

/-- One pixel: resolve, check, write the tile buffer, write the mosaic (rule R170). -/
def decodePixel (b t y x : Nat) (s : State) : State :=
  ifOk (fun s => writeMosaicAtPxc (writeTbufAtPxc s))
    (ifOk checkAtPxc (resolvePixel { s with pxc := Pxc.of b t y x }))

/-- One tile row: read lower, read upper, then its eight pixels (rules R163, R170). -/
def decodeRow (b t y : Nat) (s : State) : State :=
  ifOk (forEach (decodePixel b t y) (List.range 8))
    (ifOk readUpper (readLower { s with pxc := Pxc.of b t y 0 }))

/-- One tile (rule R160). -/
def decodeTile (b t : Nat) (s : State) : State := forEach (decodeRow b t) (List.range 8) s

/-- One bank (rule R160). -/
def decodeBank (b : Nat) (s : State) : State := forEach (decodeTile b) (List.range 384) s

/-- The latches a `DECODE` sets at acceptance (rule R27). -/
def latchDecode (mode : Mode) (sel : Byte) (s : State) : State :=
  { s with selr := sel, nbreq := banksRequested mode }

/-- The rule of `DECODE` (rule R160). -/
def decodeBody (mode : Mode) (sel : Byte) (s : State) : State :=
  forEach decodeBank (List.range (banksRequested mode).toNat) (latchDecode mode sel s)

/-- `DECODE mode, sel` (rules R130, R160). -/
def execDecode (mode : Mode) (sel : Byte) (s : State) : Host.Outcome State Fault Refusal :=
  .next (perform (encode (.decode mode sel)) true (decodeBody mode sel) s)

end Sys2Proof.Machine
end

