-- ==== Sys2Proof/Machine/Dispatch.lean ====
section
/-! DEFINITION. One arm per command: a command issued as one transition (rule R10, command level). -/

namespace Sys2Proof.Machine

def exec (i : Instr) (s : State) : Host.Outcome State Fault Refusal :=
  match i with
  | .init bankCount => Sys2Proof.Machine.execInit bankCount s
  | .decode mode sel => Sys2Proof.Machine.execDecode mode sel s
  | .setpix bank tile ly lx => Sys2Proof.Machine.execSetpix bank tile ly lx s
  | .msnap => Sys2Proof.Machine.execMsnap s
  | .tsnap bank tile => Sys2Proof.Machine.execTsnap bank tile s
  | .setbg => Sys2Proof.Machine.execSetbg s
  | .getbg => Sys2Proof.Machine.execGetbg s

end Sys2Proof.Machine
end

