-- ==== Sys2Proof/Machine/Engine.lean ====
section
/-! DEFINITION. The micro-step level (rules R10, R76, R170): `INIT` and `DECODE` started by a `CMD` write and then run
one access, resolver call or check at a time, with the same operations the command level uses. -/

namespace Sys2Proof.Machine

/-- `BUSY <- 0` when the last micro-step is done (rule R170). -/
def finish (s : State) : State := { s with busy := false, phase := .idle }

/-- `INIT` accepted: the bank count is checked and painting begins (rule R131). `NB` stays the last completed layout's
until this one is painted (rule R21; log entry 14). -/
def startInit (bankCount : BitVec 2) (s : State) : State :=
  ifOk (fun s => { s with phase := .paintTile bankCount 0 }) (checkBankcount bankCount s)

/-- `DECODE` accepted: the latches are set and `PXC` starts at (0, 0, 0, 0) (rules R26, R27, R160). -/
def startDecode (mode : Mode) (sel : Byte) (s : State) : State :=
  { latchDecode mode sel s with pxc := Pxc.of 0 0 0 0, phase := .readLower }

/-- `PXC` advances as a mixed-radix counter, `x` fastest; past the last pixel the command ends (rules R26, R170). -/
def advance (s : State) : State :=
  let b := s.pxc.b.toNat
  let t := s.pxc.t.toNat
  let y := s.pxc.y.toNat
  let x := s.pxc.x.toNat
  if x < 7 then { s with pxc := Pxc.of b t y (x + 1), phase := .resolve }
  else if y < 7 then { s with pxc := Pxc.of b t (y + 1) 0, phase := .readLower }
  else if t < 383 then { s with pxc := Pxc.of b (t + 1) 0 0, phase := .readLower }
  else if b + 1 < s.nbreq.toNat then { s with pxc := Pxc.of (b + 1) 0 0 0, phase := .readLower }
  else finish s

/-- The sequencer goes to phase `p` unless the micro-step faulted. -/
def goTo (p : Phase) (s : State) : State := ifOk (fun s => { s with phase := p }) s

/-- `TBUF[..] <- BLANK_RGBA` at tile-buffer word `i` (rule R131). -/
def paintTileWord (i : Nat) (s : State) : State := writeTbuf i s.cfg.blank s

/-- `MOSAIC[my][mx] <- Paint(NB, mx, my)` at mosaic word `i` of the layout for `bankCount` banks (rules R131, R132). -/
def paintMosaicWord (bankCount : BitVec 2) (i : Nat) (s : State) : State :=
  let my := i / mosaicW s.cfg bankCount
  let mx := i % mosaicW s.cfg bankCount
  writeMosaic (mosaicKey my mx) (paint s.cfg mx my) s

/-- The last write of `INIT` is done: the painted layout is now the layout (rules R21, R131). -/
def completeInit (bankCount : BitVec 2) (s : State) : State := finish (finishInit (relayout bankCount s))

/-- One micro-step of the engine, nothing while `BUSY = 0` or `FAULT = 1` (rules R10, R170, R212, R226). -/
def microStep (s : State) : State :=
  if s.busy && !s.fault then
    match s.phase with
    | .idle => s
    | .paintTile n i =>
      let s := paintTileWord i s
      if i + 1 < tbufSize n then { s with phase := .paintTile n (i + 1) } else { s with phase := .paintMosaic n 0 }
    | .paintMosaic n i =>
      let s := paintMosaicWord n i s
      if i + 1 < mosaicSize s.cfg n then { s with phase := .paintMosaic n (i + 1) } else completeInit n s
    | .readLower => goTo .readUpper (readLower s)
    | .readUpper => goTo .resolve (readUpper s)
    | .resolve => goTo .check (resolvePixel s)
    | .check => goTo .writeTile (checkAtPxc s)
    | .writeTile => goTo .writeMosaic (writeTbufAtPxc s)
    | .writeMosaic => advance (writeMosaicAtPxc s)
  else s

/-- What the pixel write of the next micro-step, if it makes one, does to the pixel memories (rule R253). -/
def pendingWrite (s : State) : State :=
  match s.phase with
  | .idle => s
  | .paintTile _ i => paintTileWord i s
  | .paintMosaic n i => paintMosaicWord n i s
  | .readLower => s
  | .readUpper => s
  | .resolve => s
  | .check => s
  | .writeTile => writeTbufAtPxc s
  | .writeMosaic => writeMosaicAtPxc s

/-- `n` micro-steps with no host access between them. -/
def microSteps : Nat → State → State
  | 0, s => s
  | n + 1, s => microSteps n (microStep s)

end Sys2Proof.Machine
end

