-- ==== Sys2Proof/Machine/Port.lean ====
section
/-! DEFINITION. The host port (rules R34, R35, R72, R73), the read window (R145, R253), command words written to `CMD`
at either level (R10, R130), and one turn of the machine: the host's next action, or the engine's next micro-step. -/

namespace Sys2Proof.Machine

/-- A host read answers `v`. -/
def answer (v : Word) (s : State) : State := { s with rdata := v }

/-- The registers at word offsets `0x0` to `0x6` (rule R34); `CMD` reads 0 (rule R23). -/
def regRead (off : Nat) (s : State) : Word :=
  match off with
  | 1 => s.status
  | 2 => s.arg
  | 3 => s.result
  | 4 => s.fcause.setWidth 32
  | 5 => s.finfo
  | 6 => BitVec.ofNat 32 s.winlen
  | _ => 0#32

/-- The word the window shows at index `i`, if it exists (rule R145). -/
def windowWord (i : Nat) (s : State) : Option Word :=
  match s.winsel with
  | .none => none
  | .mosaic => s.mosaicWord (i / mosaicW s.cfg s.nb) (i % mosaicW s.cfg s.nb)
  | .tile => s.tbufWord s.winbank.toNat s.wintile.toNat (i / 8) (i % 8)

/-- A window read whose word is `v`, which must exist (rule R31). -/
def answerPixel (v : Option Word) (s : State) : Host.Outcome State Fault Refusal :=
  match v with
  | some w => .next (answer w s)
  | none => .fault .absentPixel

/-- A window read while `BUSY = 1` (rules R75, R253, X9): a free pick of the addressed word as it stands before the
pending write and as it stands after it. It raises nothing. -/
def tornRead (i : Nat) (s : State) : Host.Outcome State Fault Refusal :=
  answerPixel (windowWord i (if Config.tornPick s.picks then s else pendingWrite s)) { s with picks := s.picks + 1 }

/-- `RDWIN i` (rule R145). -/
def windowRead (i : Nat) (s : State) : Host.Outcome State Fault Refusal :=
  if s.fault then .next (answer 0#32 s)
  else if s.winsel = .none ∨ s.winlen ≤ i then .next (answer 0#32 (raise .badWindow (BitVec.ofNat 32 i) s))
  else if s.busy then tornRead i s
  else answerPixel (windowWord i s) s

/-- A host read of word offset `off` (rules R34, R72, R73). -/
def portRead (off : BitVec 21) (s : State) : Host.Outcome State Fault Refusal :=
  if off.toNat < 0x7 then .next (answer (regRead off.toNat s) s)
  else if off.toNat < 0x100000 then .next (answer 0#32 (raise .badAddr (off.setWidth 32) s))
  else windowRead (off.toNat - 0x100000) s

/-- A write of the word `w` to `CMD`, the command performed as one transition (rules R10, R130). -/
def commandWrite (w : Word) (s : State) : Host.Outcome State Fault Refusal :=
  match decode w with
  | .ok i => exec i s
  | .error _ => .next (rejectWord w s)

/-- A write of the word `w` to `CMD` at the micro-step level: `INIT` and `DECODE` are accepted and left running, the
other commands complete in the transition that accepts them (rules R10, R130). -/
def commandIssue (w : Word) (s : State) : Host.Outcome State Fault Refusal :=
  match decode w with
  | .ok (.init bankCount) => .next (accept w false (startInit bankCount) s)
  | .ok (.decode mode sel) => .next (accept w true (startDecode mode sel) s)
  | .ok i => exec i s
  | .error _ => .next (rejectWord w s)

/-- A host write of `w` to word offset `off`: `CMD`, `ARG`, a read-only word (ignored), or an unmapped offset
(rules R34, R35, R73). -/
def portWrite (off : BitVec 21) (w : Word) (s : State) : Host.Outcome State Fault Refusal :=
  if off.toNat = 0x0 then commandWrite w s
  else if off.toNat = 0x2 then .next { s with arg := w }
  else if 0x7 ≤ off.toNat ∧ off.toNat < 0x100000 then .next (raise .badAddr (off.setWidth 32) s)
  else .next s

/-- One host action (rule R112). `WAIT` stays the next action while `BUSY = 1`, and the engine moves. -/
def act (a : HostAction) (s : State) : Host.Outcome State Fault Refusal :=
  match a with
  | .write off w => portWrite off w s
  | .issue w => commandIssue w s
  | .read off => portRead off s
  | .wait => .next (if s.busy then microStep { s with script := .wait :: s.script } else s)
  | .turn => .next (microStep s)
  | .tileByte bank off v => .next (storeTileByte bank off v s)
  | .resolver sel idx ans => .next (setResolver sel idx ans s)
  | .reset => .next (resetEvent s)

/-- One turn: the host's next action (rule R203: accesses and micro-steps interleave one at a time); a host with
nothing left to do lets the engine move, and an idle TDU does nothing (rule R226). -/
def turn (s : State) : Host.Outcome State Fault Refusal :=
  match s.script with
  | [] => .next (microStep s)
  | a :: rest => act a { s with script := rest }

end Sys2Proof.Machine
end

