-- ==== Sys2Proof/Machine/Step.lean ====
section
/-! DEFINITION. One step of the machine, and where a step takes its next command from: the host's next action. -/

namespace Sys2Proof.Machine

/-- One step: one host action or one micro-step (rules R10, R203). -/
def step (s : State) : Host.Outcome State Fault Refusal := turn s

/-- `s` with the host's next action a write of the table word to `CMD`: no command is fetched from memory (rules R26,
R78), the host delivers it (log entry 1). -/
def State.withFetchWord (s : State) (nbits w : Nat) : State :=
  { s with script := .write 0#21 (BitVec.ofNat 32 (w % 2 ^ nbits)) :: s.script }

end Sys2Proof.Machine
end

