-- ==== Sys2Proof/WellFormed.lean ====
section
/-! DEFINITION. Which commands have operands that some canvas accepts. The fields are wider than the legal ranges on
purpose (rule R104), so the decoder also yields ill-formed commands; those fault in execution (rule R109). -/

namespace Sys2Proof

/-- Every operand lies in the range the spec calls legal for at least one layout: `bank_count` 1 or 2 (R102),
`tile < 384`, `ly < 8`, `lx < 8` (R104, R106), `bank < MAXBANKS = 2` (R4). -/
def Instr.wellFormed : Instr → Bool
  | .init bankCount => bankCount == 1#2 || bankCount == 2#2
  | .decode _ _ => true
  | .setpix bank tile ly lx => decide (bank.toNat < 2 ∧ tile.toNat < 384 ∧ ly.toNat < 8 ∧ lx.toNat < 8)
  | .msnap => true
  | .tsnap bank tile => decide (bank.toNat < 2 ∧ tile.toNat < 384)
  | .setbg => true
  | .getbg => true

end Sys2Proof
end

