-- ==== Sys2Proof/Safety.lean ====
section
/-! DEFINITION. What counts as a safe run, and the terms the claims use: the invariant, a run's good end, and what a
pass must write. -/

namespace Sys2Proof.Machine

/-- `FAULT = 0` and `BUSY = 0`: the next command is accepted (rule R130). -/
abbrev State.idle (s : State) : Prop := s.fault = false ∧ s.busy = false

/-- A run that is over and has ended well: the host has nothing left to do, `BUSY = 0`, `FAULT = 0` (rule R262). -/
abbrev State.endedWell (s : State) : Prop := s.script = [] ∧ s.idle

/-- A run that has gone wrong (rule R200). -/
abbrev State.goneWrong (s : State) : Prop := s.fault = true

/-- Tile memory in canonical form; every key is an address of rule R61. -/
abbrev tilesWf (m : List Host.Cell) : Prop := Cells.sorted m ∧ ∀ c ∈ m, c.1 < 16384

/-- The resolver in canonical form; every key is a selector and an index (rule R8). -/
abbrev paletteWf (m : Cells Rgb) : Prop := Cells.sorted m ∧ ∀ c ∈ m, c.1 < 1024

/-- `TBUF` in canonical form: no entry outside the layout, none equal to what an unlisted word reads as. -/
abbrev State.tbufWf (s : State) : Prop :=
  Cells.sorted s.tbuf ∧ ∀ c ∈ s.tbuf, c.1 < tbufSize s.nb ∧ c.2 ≠ s.cfg.blank

/-- `MOSAIC` in canonical form. -/
abbrev State.mosaicWf (s : State) : Prop :=
  Cells.sorted s.mosaic ∧ ∀ c ∈ s.mosaic, inMosaic s.cfg s.nb c.1 = true ∧ c.2 ≠ paintAt s.cfg c.1

/-- Every memory is in its canonical form, so equal memories are equal data. -/
abbrev State.memWf (s : State) : Prop := tilesWf s.tiles ∧ paletteWf s.palette ∧ s.tbufWf ∧ s.mosaicWf

/-- Whether an `INIT` is painting. -/
def Phase.painting : Phase → Bool
  | .paintTile _ _ => true
  | .paintMosaic _ _ => true
  | _ => false

/-- Whether a `DECODE` pass is running. -/
def Phase.decoding : Phase → Bool
  | .idle => false
  | .paintTile _ _ => false
  | .paintMosaic _ _ => false
  | _ => true

/-- Whether the checks of the pixel `PXC` names have passed. -/
def Phase.writing : Phase → Bool
  | .writeTile => true
  | .writeMosaic => true
  | _ => false

/-- Where an `INIT` may stand, and what it has done when it stands there: it paints one or two banks, is inside the
memory it paints, and every word before that one reads as painted (rules R131, R76). -/
def State.painted (s : State) : Prop :=
  match s.phase with
  | .paintTile n i => (n = 1#2 ∨ n = 2#2) ∧ i < tbufSize n ∧ ∀ k, k < i → s.tbufAt k = s.cfg.blank
  | .paintMosaic n i => (n = 1#2 ∨ n = 2#2) ∧ i < mosaicSize s.cfg n ∧
      (∀ k, k < tbufSize n → s.tbufAt k = s.cfg.blank) ∧
      ∀ my mx, mx < mosaicW s.cfg n → mosaicIndex s.cfg n my mx < i →
        s.mosaicAt (mosaicKey my mx) = paint s.cfg mx my
  | _ => True

/-- The invariant of the machine. -/
structure State.Inv (s : State) : Prop where
  /-- Canonical memories. -/
  memWf : s.memWf
  /-- The sequencer is at work exactly while `BUSY = 1` (rules R22, R26). -/
  busy_iff : s.busy = true ↔ s.phase ≠ .idle
  /-- `BUSY` and `FAULT` are never 1 together (rule R22). -/
  not_both : ¬ (s.busy = true ∧ s.fault = true)
  /-- While `FAULT = 0` both fault registers read 0 (rule R28). -/
  no_fault : s.fault = false → s.fcause = 0#8 ∧ s.finfo = 0#32
  /-- A recorded cause is one of rule R201. -/
  cause : s.fault = true → ∃ c : Cause, s.fcause = c.code
  /-- `NB = 3` never occurs (rule R21, X7). -/
  nb_le : s.nb.toNat ≤ 2
  /-- An initialised canvas has one or two banks (rule R21). -/
  nb_pos : s.inited = true → s.nb ≠ 0#2
  /-- `NB` is 0 while `INITED = 0` (rule R21). -/
  nb_zero : s.inited = false → s.nb = 0#2
  /-- A window is selected only on an initialised canvas (rules R29, R130). -/
  win_inited : s.winsel ≠ .none → s.inited = true
  /-- A selected tile buffer exists (rule R144). -/
  win_tile : s.winsel = .tile → s.winbank.toNat < s.nb.toNat ∧ s.wintile.toNat < 384
  /-- An empty background slot holds no reference (rule R30). -/
  slot : s.bgvalid = false → s.bgref = 0#32
  /-- A running pass stands at a pixel of a requested bank of an initialised canvas (rule R26). -/
  pass : s.phase.decoding = true →
    s.inited = true ∧ s.pxc.t.toNat < 384 ∧ s.pxc.b.toNat < s.nbreq.toNat ∧ s.nbreq.toNat ≤ 2
  /-- A pixel is written only in a bank of the layout (rule R141). -/
  pixel : s.phase.writing = true → s.pxc.b.toNat < s.nb.toNat
  /-- A running `INIT` paints inside the new layout, in order (rule R131). -/
  paint : s.painted

/-- Every gridline pixel of the mosaic is `GRID_RGBA` (rules R146, R175). -/
def State.gridOk (s : State) : Prop :=
  ∀ my mx, my < mosaicH s.cfg → mx < mosaicW s.cfg s.nb → isGrid s.cfg mx my = true →
    s.mosaicWord my mx = some s.cfg.grid

/-- The tile-buffer word and the mosaic word of a coordinate are equal (rule R140). -/
def State.dualAt (s : State) (b t y x : Nat) : Prop :=
  s.tbufAt (tbufIndex b t y x) = s.mosaicAt (pixelKey s.cfg b t y x)

/-- Every coordinate of the layout reads the same in both memories. -/
def State.dual (s : State) : Prop :=
  ∀ b t y x, b < s.nb.toNat → t < 384 → y < 8 → x < 8 → s.dualAt b t y x

/-- As `State.dual`, but for the one pixel a running pass has written to the tile buffer and not yet to the mosaic;
nothing is said while an `INIT` paints, which writes all of `TBUF` before `MOSAIC` (rule R131), nor of a faulted machine,
whose memories cannot be read (rule R212). -/
def State.dualInv (s : State) : Prop :=
  s.fault = false → s.phase.painting = false → ∀ b t y x, b < s.nb.toNat → t < 384 → y < 8 → x < 8 →
    (s.phase = .writeMosaic ∧ b = s.pxc.b.toNat ∧ t = s.pxc.t.toNat ∧ y = s.pxc.y.toNat ∧ x = s.pxc.x.toNat →
      s.tbufAt (tbufIndex b t y x) = s.col) ∧
    (¬ (s.phase = .writeMosaic ∧ b = s.pxc.b.toNat ∧ t = s.pxc.t.toNat ∧ y = s.pxc.y.toNat ∧ x = s.pxc.x.toNat) →
      s.dualAt b t y x)

/-- Bank `b` of tile memory is present and not too short: every byte a pass reads is there (rules R61, R63). -/
def State.backed (s : State) (b : Nat) : Prop := ∀ off, off < 6144 → ∃ v, s.tileByte b off = some v

/-- The resolver answers a colour for every index of the selector (rule R8). -/
def State.resolves (s : State) (sel : Byte) : Prop := ∀ idx, ∃ c, s.resolve sel idx = some c

/-- The pixel word rule R171 gives coordinate (`b`, `t`, `y`, `x`), where tile memory and the resolver answer. -/
def State.decoded (s : State) (sel : Byte) (b t y x : Nat) : Option Word :=
  match s.tileByte b (16 * t + 2 * y), s.tileByte b (16 * t + 2 * y + 1) with
  | some lo, some up => (s.resolve sel (colourIndex lo up x)).map opaqueColour
  | _, _ => none

/-- The rows of the opcode table, (mask, match), as rules R102 to R106 give them. -/
def opcodeRows : List (Word × Word) :=
  [(0xFFFFFFFC#32, 0x10000000#32), (0xFFFFFE00#32, 0x20000000#32), (0xFFF00000#32, 0x30000000#32),
   (0xFFFFFFFF#32, 0x40000000#32), (0xFFF000FF#32, 0x50000000#32), (0xFFFFFFFF#32, 0x60000000#32),
   (0xFFFFFFFF#32, 0x70000000#32)]

/-- Whether a command needs `INITED = 1` (rule R130). -/
def needsInit : Instr → Bool
  | .init _ => false
  | .decode _ _ => true
  | .setpix _ _ _ _ => true
  | .msnap => true
  | .tsnap _ _ => true
  | .setbg => false
  | .getbg => false

/-- `s` with what fault entry writes (rule R210) and nothing else changed. -/
abbrev faultedFrom (c : Cause) (info : Word) (s : State) : State :=
  { s with fcause := c.code, finfo := info, fault := true, busy := false, phase := .idle }

end Sys2Proof.Machine
end

