-- ==== Sys2Proof/Certificates/Slice0/Obligations.lean ====
section
/-! DEFINITION. The statements for the provers. Each docstring names the rule of spec/ it formalises; `s.idle` is
`FAULT = 0` and `BUSY = 0`; `faultedFrom` is fault entry (rule R210) with everything else unchanged. -/

open Sys2Proof Sys2Proof.Machine

/-! Encoding. -/

/-- Rules R100 to R107: decoding the word of a command gives the command back, every operand at every value. -/
def Obligations.DecodeInvertsEncode : Prop :=
  ∀ i : Instr, decode (encode i) = .ok i

/-- Rules R100 to R107: a word that decodes is the one word of its command, so no bit of it is dropped. -/
def Obligations.EncodeInvertsDecode : Prop :=
  ∀ (w : Word) (i : Instr), decode w = .ok i → encode i = w

/-- Rule R108. A word is legal exactly when it matches a row; at most one row matches; opcode 0 and 8 to 15 are illegal
whatever the low bits; a defined opcode that matches no row has a reserved bit set; an illegal word written to `CMD`
while idle, at either level, raises `ILLEGAL_CMD`. -/
def Obligations.IllegalWordsFault : Prop :=
  (∀ w : Word, (∃ i, decode w = .ok i) ↔ ∃ r ∈ opcodeRows, w &&& r.1 = r.2) ∧
  (∀ w : Word, ∀ r ∈ opcodeRows, ∀ r' ∈ opcodeRows, w &&& r.1 = r.2 → w &&& r'.1 = r'.2 → r = r') ∧
  (∀ w : Word, w.extractLsb' 28 4 = 0#4 ∨ 8#4 ≤ w.extractLsb' 28 4 → decode w = .error .reservedOpcode) ∧
  (∀ w : Word, w.extractLsb' 28 4 ≠ 0#4 → w.extractLsb' 28 4 < 8#4 →
    (∀ r ∈ opcodeRows, w &&& r.1 ≠ r.2) → decode w = .error .reservedBits) ∧
  (∀ (w : Word) (s : State), s.idle → (∀ r ∈ opcodeRows, w &&& r.1 ≠ r.2) →
    portWrite 0#21 w s = .next (faultedFrom .illegalCmd w s) ∧
    commandIssue w s = .next (faultedFrom .illegalCmd w s))

/-- Vectors E2, E9, E13, E17, E20, E23, E25, E11, E27 of 95_test_vectors.md: words written out from the spec. -/
def Obligations.SpecWordsDecode : Prop :=
  decode 0x10000002#32 = .ok (.init 2#2) ∧ decode 0x200001E4#32 = .ok (.decode .color 0xE4#8) ∧
  decode 0x30041125#32 = .ok (.setpix 1#2 17#10 2#4 5#4) ∧ decode 0x40000000#32 = .ok .msnap ∧
  decode 0x50041100#32 = .ok (.tsnap 1#2 17#10) ∧ decode 0x60000000#32 = .ok .setbg ∧
  decode 0x70000000#32 = .ok .getbg ∧ decode 0x20000200#32 = .error .reservedBits ∧
  decode 0x00000000#32 = .error .reservedOpcode

/-! The step. -/

/-- A step whose next host action writes a legal word to `CMD` is `exec` of the command it decodes to, on the state
with that action taken off; the word `withFetchWord` places is the one the very next step runs; and a step whose next
action is any write, a read or an issue is that access of the host port (rules R34, R72, R112). An issued word of a
command other than `INIT` and `DECODE` is `exec` of it: those five complete in the transition that accepts them (rule
R130). -/
def Obligations.StepRunsTheDecodedCommand : Prop :=
  (∀ (s : State) (w : Word) (rest : List HostAction) (i : Instr),
    s.script = .write 0#21 w :: rest → decode w = .ok i → step s = exec i { s with script := rest }) ∧
  (∀ (s : State) (nbits w : Nat) (i : Instr),
    decodeTableWord nbits w = some i → step (s.withFetchWord nbits w) = exec i s) ∧
  (∀ (s : State) (off : BitVec 21) (w : Word) (rest : List HostAction), s.script = .write off w :: rest →
    step s = portWrite off w { s with script := rest }) ∧
  (∀ (s : State) (off : BitVec 21) (rest : List HostAction), s.script = .read off :: rest →
    step s = portRead off { s with script := rest }) ∧
  (∀ (s : State) (w : Word) (rest : List HostAction), s.script = .issue w :: rest →
    step s = commandIssue w { s with script := rest }) ∧
  (∀ (s : State) (w : Word) (i : Instr), decode w = .ok i → (∀ n, i ≠ .init n) → (∀ mode sel, i ≠ .decode mode sel) →
    commandIssue w s = exec i s)

/-- Rules R226, R241, R112 (`WAIT`): with nothing left to do an idle TDU does nothing; a host with no action left, a
turn without an access, and a `WAIT` while busy each let the engine perform one micro-step, and `WAIT` stays next;
a `WAIT` while `BUSY = 0` is over. -/
def Obligations.EngineMovesBetweenAccesses : Prop :=
  (∀ s : State, s.script = [] → s.busy = false → step s = .next s) ∧
  (∀ s : State, s.script = [] → step s = .next (microStep s)) ∧
  (∀ (s : State) (rest : List HostAction), s.script = .turn :: rest →
    step s = .next (microStep { s with script := rest })) ∧
  (∀ (s : State) (rest : List HostAction), s.script = .wait :: rest → s.busy = true →
    step s = .next (microStep s)) ∧
  (∀ (s : State) (rest : List HostAction), s.script = .wait :: rest → s.busy = false →
    step s = .next { s with script := rest })

/-! Acceptance and the faulted machine. -/

/-- Rules R204, R212. From a faulted state every step but a reset is a next state in which only `ARG`, the host's read
latch and the inputs the host owns can differ; `CMD` writes, micro-steps and unmapped writes change nothing; registers
read as always; window and unmapped reads return 0; a reset clears `FAULT` and loses everything else. The engine's own
latches after it are left open, as the spec leaves them. -/
def Obligations.FaultIsSink : Prop :=
  ∀ s : State, s.fault = true →
    (s.script.head? ≠ some .reset → ∃ t, step s = .next t ∧
      t = { s with arg := t.arg, rdata := t.rdata, tiles := t.tiles, palette := t.palette, script := t.script }) ∧
    (∀ (c : Cause) (info : Word), raise c info s = s) ∧
    (∀ w, portWrite 0#21 w s = .next s ∧ commandIssue w s = .next s) ∧
    microStep s = s ∧
    (∀ v, portWrite 2#21 v s = .next { s with arg := v }) ∧
    (∀ (off : BitVec 21) (v : Word), 7 ≤ off.toNat → portWrite off v s = .next s) ∧
    (∀ off : BitVec 21, off.toNat < 7 → portRead off s = .next { s with rdata := regRead off.toNat s }) ∧
    (∀ off : BitVec 21, 7 ≤ off.toNat → portRead off s = .next { s with rdata := 0#32 }) ∧
    (∀ rest, s.script = .reset :: rest → ∃ t, step s = .next t ∧
      t = { State.reset with
        pxc := t.pxc, selr := t.selr, nbreq := t.nbreq, lo := t.lo, up := t.up, idx := t.idx, col := t.col
        cfg := s.cfg, tiles := s.tiles, palette := s.palette, script := rest, rdata := s.rdata, picks := s.picks })

/-- Rule R210. Fault entry, when `FAULT = 0`, writes the code and the information, sets `FAULT`, clears `BUSY`, changes
nothing else of the spec's state (`phase`, the model's sequencer, goes idle) and ends the running command. The codes are
those of rule R201. -/
def Obligations.FaultEntry : Prop :=
  (∀ (c : Cause) (info : Word) (s : State), s.fault = false →
    raise c info s = { s with fcause := c.code, finfo := info, fault := true, busy := false, phase := .idle } ∧
    microStep (raise c info s) = raise c info s) ∧
  Cause.illegalCmd.code = 1#8 ∧ Cause.cmdOverlap.code = 2#8 ∧ Cause.notInit.code = 3#8 ∧
  Cause.badBankcount.code = 4#8 ∧ Cause.badX.code = 5#8 ∧ Cause.badY.code = 6#8 ∧ Cause.badTile.code = 7#8 ∧
  Cause.badBank.code = 8#8 ∧ Cause.tilememErr.code = 9#8 ∧ Cause.badColor.code = 10#8 ∧
  Cause.badWindow.code = 11#8 ∧ Cause.badAddr.code = 12#8

/-- Rule R250. Any word written to `CMD` while `BUSY = 1` raises `CMD_OVERLAP` with that word, and the running command
performs no further micro-step. -/
def Obligations.CommandWhileBusyOverlaps : Prop :=
  ∀ s : State, s.fault = false → s.busy = true →
    (∀ w, portWrite 0#21 w s = .next (faultedFrom .cmdOverlap w s) ∧
      commandIssue w s = .next (faultedFrom .cmdOverlap w s)) ∧
    (∀ i, exec i s = .next (faultedFrom .cmdOverlap (encode i) s)) ∧
    (∀ w, microStep (faultedFrom .cmdOverlap w s) = faultedFrom .cmdOverlap w s)

/-- Rule R130: the four commands that need `INITED = 1` raise `NOT_INIT` with their word while it is 0, and nothing
else changes. -/
def Obligations.UseBeforeInitFaults : Prop :=
  ∀ (i : Instr) (s : State), needsInit i = true → s.idle → s.inited = false →
    exec i s = .next (faultedFrom .notInit (encode i) s)

/-- Rule R211: a fault of a command other than `DECODE` is raised before the command has changed any state. -/
def Obligations.FaultsBeforeAnyChange : Prop :=
  ∀ (i : Instr) (s t : State), (∀ mode sel, i ≠ .decode mode sel) → s.fault = false → exec i s = .next t →
    t.fault = true → ∃ c info, t = faultedFrom c info s

/-! `INIT`. -/

/-- Rule R131: `INIT 1` and `INIT 2` complete with `NB`, `INITED`, `WINSEL` written, every tile-buffer word blank, every
mosaic word as `Paint` gives it, and nothing else changed; `INIT 0` and `INIT 3` raise `BAD_BANKCOUNT` before anything
is written. -/
def Obligations.InitLaysOutTheCanvas : Prop :=
  ∀ (s : State) (n : BitVec 2), s.idle →
    ((n = 1#2 ∨ n = 2#2) → ∃ u, exec (.init n) s = .next u ∧
      u = { s with nb := n, inited := true, winsel := .none, tbuf := u.tbuf, mosaic := u.mosaic } ∧
      (∀ b t y x, b < n.toNat → t < 384 → y < 8 → x < 8 → u.tbufWord b t y x = some s.cfg.blank) ∧
      (∀ b t y x, n.toNat ≤ b → u.tbufWord b t y x = none) ∧
      (∀ my mx, my < mosaicH s.cfg → mx < mosaicW s.cfg n → u.mosaicWord my mx = some (paint s.cfg mx my))) ∧
    ((n = 0#2 ∨ n = 3#2) → exec (.init n) s = .next (faultedFrom .badBankcount (encode (.init n)) s))

/-- Rule R70: the two descriptions of the gridline pixels agree, one vertical line per bank and one horizontal band
against the form by remainders. -/
def Obligations.GridDescriptionsAgree : Prop :=
  ∀ (c : Cfg) (nb : BitVec 2) (mx my : Nat), mx < mosaicW c nb → my < mosaicH c →
    (isGrid c mx my = true ↔
      (∃ b, b < nb.toNat ∧ bankX c b + 128 ≤ mx ∧ mx < bankX c b + 128 + c.vgap.toNat) ∨
      (128 ≤ my ∧ my < 128 + c.hgap.toNat))

/-- Rule R71: the placement of rule R69 is injective, meets no gridline pixel, stays inside the mosaic, and with the
gridline pixels covers all of it. -/
def Obligations.PlacementPartitionsTheMosaic : Prop :=
  ∀ (c : Cfg) (nb : BitVec 2),
    (∀ b t y x b' t' y' x', t < 384 → y < 8 → x < 8 → t' < 384 → y' < 8 → x' < 8 →
      pixelMx c b t x = pixelMx c b' t' x' → pixelMy c t y = pixelMy c t' y' →
      b = b' ∧ t = t' ∧ y = y' ∧ x = x') ∧
    (∀ b t y x, b < nb.toNat → t < 384 → y < 8 → x < 8 →
      pixelMx c b t x < mosaicW c nb ∧ pixelMy c t y < mosaicH c ∧
      isGrid c (pixelMx c b t x) (pixelMy c t y) = false) ∧
    (∀ mx my, mx < mosaicW c nb → my < mosaicH c → isGrid c mx my = false →
      ∃ b t y x, b < nb.toNat ∧ t < 384 ∧ y < 8 ∧ x < 8 ∧ mx = pixelMx c b t x ∧ my = pixelMy c t y)

/-! `SETPIX`. -/

/-- Rules R140, R142: `SETPIX` at a coordinate of the layout completes; the tile-buffer word and the mosaic word of the
coordinate both become `ARG`, every other word of both memories and everything else is unchanged. -/
def Obligations.SetpixWritesBothMemories : Prop :=
  ∀ (s : State) (bank : BitVec 2) (tile : BitVec 10) (ly lx : BitVec 4), s.idle → s.inited = true →
    bank.toNat < s.nb.toNat → tile.toNat < 384 → ly.toNat < 8 → lx.toNat < 8 →
    ∃ u, exec (.setpix bank tile ly lx) s = .next u ∧
      u = { s with tbuf := u.tbuf, mosaic := u.mosaic } ∧
      u.tbufWord bank.toNat tile.toNat ly.toNat lx.toNat = some s.arg ∧
      u.mosaicWord (pixelMy s.cfg tile.toNat ly.toNat) (pixelMx s.cfg bank.toNat tile.toNat lx.toNat) =
        some s.arg ∧
      (∀ i, i ≠ tbufIndex bank.toNat tile.toNat ly.toNat lx.toNat → u.tbufAt i = s.tbufAt i) ∧
      (∀ i, i ≠ pixelKey s.cfg bank.toNat tile.toNat ly.toNat lx.toNat → u.mosaicAt i = s.mosaicAt i)

/-- Rule R141: the range checks in their order x, y, tile, bank, the first that fails reported with the coordinate,
which is bits 19:0 of the command word, and nothing else changed; and when all pass, the dual write. -/
def Obligations.SetpixChecksInOrder : Prop :=
  ∀ (s : State) (bank : BitVec 2) (tile : BitVec 10) (ly lx : BitVec 4), s.idle → s.inited = true →
    let i := Instr.setpix bank tile ly lx
    let info := encode i &&& 0x000FFFFF#32
    (8 ≤ lx.toNat → exec i s = .next (faultedFrom .badX info s)) ∧
    (lx.toNat < 8 → 8 ≤ ly.toNat → exec i s = .next (faultedFrom .badY info s)) ∧
    (lx.toNat < 8 → ly.toNat < 8 → 384 ≤ tile.toNat → exec i s = .next (faultedFrom .badTile info s)) ∧
    (lx.toNat < 8 → ly.toNat < 8 → tile.toNat < 384 → s.nb.toNat ≤ bank.toNat →
      exec i s = .next (faultedFrom .badBank info s)) ∧
    (lx.toNat < 8 → ly.toNat < 8 → tile.toNat < 384 → bank.toNat < s.nb.toNat →
      exec i s = .next (setPixel bank.toNat tile.toNat ly.toNat lx.toNat s.arg s))

/-! `MSNAP`, `TSNAP`, the background slot. -/

/-- Rule R143: `MSNAP` completes with the window on the mosaic and its dimensions in `RESULT`, nothing else changed;
`WINLEN` then is `W(NB) * H`. -/
def Obligations.MsnapShowsTheMosaic : Prop :=
  ∀ s : State, s.idle → s.inited = true →
    ∃ u, exec .msnap s = .next u ∧
      u = { s with
        winsel := .mosaic
        result := BitVec.ofNat 16 (mosaicH s.cfg) ++ BitVec.ofNat 16 (mosaicW s.cfg s.nb) } ∧
      u.winlen = mosaicW s.cfg s.nb * mosaicH s.cfg

/-- Rule R144: `TSNAP` of a tile of the layout completes with the window on its buffer, 8 by 8 in `RESULT` and `WINLEN`
64; a tile of 384 or more, then a bank not in the layout, faults with the coordinate before `WINSEL` changes. -/
def Obligations.TsnapShowsOneTile : Prop :=
  ∀ (s : State) (bank : BitVec 2) (tile : BitVec 10), s.idle → s.inited = true →
    let i := Instr.tsnap bank tile
    let info := encode i &&& 0x000FFF00#32
    (tile.toNat < 384 → bank.toNat < s.nb.toNat →
      ∃ u, exec i s = .next u ∧
        u = { s with
          winsel := .tile, winbank := bank.extractLsb' 0 1, wintile := tile.extractLsb' 0 9
          result := 0x00080008#32 } ∧
        u.winlen = 64) ∧
    (384 ≤ tile.toNat → exec i s = .next (faultedFrom .badTile info s)) ∧
    (tile.toNat < 384 → s.nb.toNat ≤ bank.toNat → exec i s = .next (faultedFrom .badBank info s))

/-- Rule R191: `SETBG` completes, initialised or not, whatever the slot and `ARG` hold: `BGREF` is `ARG`, `BGVALID` is
1, nothing else changes; and no command returns the slot to `none`. -/
def Obligations.SetbgStoresArg : Prop :=
  (∀ s : State, s.idle → exec .setbg s = .next { s with bgref := s.arg, bgvalid := true }) ∧
  (∀ (i : Instr) (s t : State), s.bgvalid = true → exec i s = .next t → t.bgvalid = true)

/-- Rule R192: `GETBG` completes, initialised or not: `RESULT` is the reference, or 0 when the slot is empty, and
nothing else changes; after a `SETBG` it is the `ARG` that command took, bit for bit. -/
def Obligations.GetbgReturnsTheReference : Prop :=
  (∀ s : State, s.idle → s.bgvalid = true → exec .getbg s = .next { s with result := s.bgref }) ∧
  (∀ s : State, s.idle → s.bgvalid = false → exec .getbg s = .next { s with result := 0#32 }) ∧
  (∀ (s : State) (a : Word), s.idle → ∃ u v, exec .setbg s = .next u ∧ exec .getbg { u with arg := a } = .next v ∧
    v.result = s.arg)

/-- Rule R190: the other five commands neither write nor read the slot, and the slot's two commands neither write nor
read a pixel memory, `NB`, `INITED` or `WINSEL`, so they are accepted whether or not `INIT` has run. -/
def Obligations.SlotIsIndependent : Prop :=
  (∀ (i : Instr) (s t : State) (v : Bool) (r : Word), i ≠ .setbg → i ≠ .getbg → exec i s = .next t →
    t.bgvalid = s.bgvalid ∧ t.bgref = s.bgref ∧
    exec i { s with bgvalid := v, bgref := r } = .next { t with bgvalid := v, bgref := r }) ∧
  (∀ (i : Instr) (s t : State) (m n : Cells Word) (k : BitVec 2) (v : Bool) (w : WinSel),
    (i = .setbg ∨ i = .getbg) → exec i s = .next t →
    t.tbuf = s.tbuf ∧ t.mosaic = s.mosaic ∧ t.nb = s.nb ∧ t.inited = s.inited ∧ t.winsel = s.winsel ∧
    exec i { s with tbuf := m, mosaic := n, nb := k, inited := v, winsel := w } =
      .next { t with tbuf := m, mosaic := n, nb := k, inited := v, winsel := w }) ∧
  (∀ (i : Instr) (s : State), (i = .setbg ∨ i = .getbg) → s.idle → ∃ t, exec i s = .next t ∧ t.idle)

/-! `DECODE`. -/

/-- Rules R164, R165: `IDX` of column `x` is bit `7 - x` of the upper byte above bit `7 - x` of the lower; `UnpackRow`
is the eight lanes of it, column 0 first, each depending on no other bit; and as a 16-bit value with lane 0 most
significant it is the interleave of the two bytes, the upper byte's bit the higher of each pair. -/
def Obligations.UnpackRowLanes : Prop :=
  ∀ lo up : Byte, (unpackRow lo up).length = 8 ∧
    (∀ x, x < 8 →
      colourIndex lo up x = BitVec.ofBool (up.getLsbD (7 - x)) ++ BitVec.ofBool (lo.getLsbD (7 - x)) ∧
      (unpackRow lo up)[x]? = some (colourIndex lo up x) ∧
      (∀ lo' up' : Byte, lo'.getLsbD (7 - x) = lo.getLsbD (7 - x) → up'.getLsbD (7 - x) = up.getLsbD (7 - x) →
        (unpackRow lo' up')[x]? = (unpackRow lo up)[x]?)) ∧
    (let packed : BitVec 16 := (unpackRow lo up).foldl (fun w lane => (w <<< 2) ||| lane.setWidth 16) 0#16
     ∀ i, i < 8 → packed.getLsbD (2 * i + 1) = up.getLsbD i ∧ packed.getLsbD (2 * i) = lo.getLsbD i)

/-- Rules R171, R167. After a `DECODE` that completes without fault every pixel of the processed banks holds, in both
memories, the opaque colour rule R171 gives it, whatever they held before. And it does complete on an initialised idle
TDU with every processed bank in the layout and present in tile memory and the resolver total on the selector: then the
colour of each pixel is the resolver's three channels and alpha `0xFF`, no other word of either memory changes, and
nothing else changes but the engine's own latches. -/
def Obligations.DecodeWritesEveryPixel : Prop :=
  (∀ (s u : State) (mode : Mode) (sel : Byte), exec (.decode mode sel) s = .next u → u.fault = false →
    ∀ b t y x, b < (banksRequested mode).toNat → t < 384 → y < 8 → x < 8 →
      s.decoded sel b t y x ≠ none ∧ u.tbufWord b t y x = s.decoded sel b t y x ∧
      u.mosaicWord (pixelMy s.cfg t y) (pixelMx s.cfg b t x) = s.decoded sel b t y x) ∧
  (∀ (s : State) (mode : Mode) (sel : Byte), s.idle → s.inited = true →
    (banksRequested mode).toNat ≤ s.nb.toNat →
    (∀ b, b < (banksRequested mode).toNat → s.backed b) → s.resolves sel →
    ∃ u, exec (.decode mode sel) s = .next u ∧
      u = { s with
        tbuf := u.tbuf, mosaic := u.mosaic, selr := sel, nbreq := banksRequested mode
        pxc := u.pxc, lo := u.lo, up := u.up, idx := u.idx, col := u.col } ∧
      (∀ b t y x, b < (banksRequested mode).toNat → t < 384 → y < 8 → x < 8 →
        ∃ lo up c, s.tileByte b (16 * t + 2 * y) = some lo ∧ s.tileByte b (16 * t + 2 * y + 1) = some up ∧
          s.resolve sel (colourIndex lo up x) = some c ∧
          u.tbufWord b t y x = some (c.r ++ c.g ++ c.b ++ 0xFF#8) ∧
          u.mosaicWord (pixelMy s.cfg t y) (pixelMx s.cfg b t x) = some (c.r ++ c.g ++ c.b ++ 0xFF#8)) ∧
      (∀ i, (banksRequested mode).toNat * 24576 ≤ i → u.tbufAt i = s.tbufAt i) ∧
      (∀ j, (∀ b t y x, b < (banksRequested mode).toNat → t < 384 → y < 8 → x < 8 →
        j ≠ pixelKey s.cfg b t y x) → u.mosaicAt j = s.mosaicAt j))

/-- Rules R170, R202, R203, R211. When a `DECODE` accepted on an initialised TDU faults, `PXC` names the pixel it stood
at: every pixel before it in the order bank, tile, row, column has been decoded into both memories, no word of that
pixel or a later one has changed, nothing outside the pass has changed, and the recorded cause and information are those
of the first check of that pixel to fail. -/
def Obligations.PassFaultsArePrecise : Prop :=
  ∀ (s u : State) (mode : Mode) (sel : Byte), s.idle → s.inited = true → exec (.decode mode sel) s = .next u →
    u.fault = true →
    let b := u.pxc.b.toNat
    let t := u.pxc.t.toNat
    let y := u.pxc.y.toNat
    let x := u.pxc.x.toNat
    let off := 16 * t + 2 * y
    b < (banksRequested mode).toNat ∧ t < 384 ∧
    u = { faultedFrom .badColor 0#32 s with
      fcause := u.fcause, finfo := u.finfo, tbuf := u.tbuf, mosaic := u.mosaic, selr := sel
      nbreq := banksRequested mode, pxc := u.pxc, lo := u.lo, up := u.up, idx := u.idx, col := u.col } ∧
    (∀ b' t' y' x', t' < 384 → y' < 8 → x' < 8 → tbufIndex b' t' y' x' < tbufIndex b t y x →
      b' < s.nb.toNat ∧ s.decoded sel b' t' y' x' = some (u.tbufAt (tbufIndex b' t' y' x')) ∧
      u.dualAt b' t' y' x') ∧
    (∀ i, tbufIndex b t y x ≤ i → u.tbufAt i = s.tbufAt i) ∧
    (∀ j, (∀ b' t' y' x', t' < 384 → y' < 8 → x' < 8 → tbufIndex b' t' y' x' < tbufIndex b t y x →
      j ≠ pixelKey s.cfg b' t' y' x') → u.mosaicAt j = s.mosaicAt j) ∧
    ((x = 0 ∧ s.tileByte b off = none ∧ u.fcause = 9#8 ∧ u.finfo = BitVec.ofNat 32 ((b <<< 18) ||| off)) ∨
     (x = 0 ∧ s.tileByte b off ≠ none ∧ s.tileByte b (off + 1) = none ∧ u.fcause = 9#8 ∧
       u.finfo = BitVec.ofNat 32 ((b <<< 18) ||| (off + 1))) ∨
     (∃ lo up, s.tileByte b off = some lo ∧ s.tileByte b (off + 1) = some up ∧
       s.resolve sel (colourIndex lo up x) = none ∧ u.fcause = 10#8 ∧ u.finfo = coordInfo b t y x) ∨
     (s.decoded sel b t y x ≠ none ∧ s.nb.toNat ≤ b ∧ u.fcause = 8#8 ∧ u.finfo = coordInfo b t y x))

/-- Rule R174. A color pass on a one-bank canvas decodes bank 0 in full and then faults: `TILEMEM_ERR` at (1, 0) or
(1, 1) if that byte of bank 1 is absent, else `BAD_BANK` at bank 1's first pixel. -/
def Obligations.ColorPassOnOneBankFaults : Prop :=
  ∀ (s : State) (sel : Byte), s.idle → s.inited = true → s.nb = 1#2 → s.backed 0 → s.resolves sel →
    ∃ u, exec (.decode .color sel) s = .next u ∧ u.fault = true ∧ u.busy = false ∧
      (∀ t y x, t < 384 → y < 8 → x < 8 → s.decoded sel 0 t y x ≠ none ∧
        u.tbufWord 0 t y x = s.decoded sel 0 t y x ∧
        u.mosaicWord (pixelMy s.cfg t y) (pixelMx s.cfg 0 t x) = s.decoded sel 0 t y x) ∧
      (∀ i, 24576 ≤ i → u.tbufAt i = s.tbufAt i) ∧
      (s.tileByte 1 0 = none → u.fcause = 9#8 ∧ u.finfo = 0x00040000#32) ∧
      (s.tileByte 1 0 ≠ none → s.tileByte 1 1 = none → u.fcause = 9#8 ∧ u.finfo = 0x00040001#32) ∧
      (s.tileByte 1 0 ≠ none → s.tileByte 1 1 ≠ none → u.fcause = 8#8 ∧ u.finfo = 0x00040000#32)

/-- Rule R173: a mono pass, from every state and however it ends, writes no word of bank 1 in either memory, and what
it does depends on no byte of bank 1 of tile memory. -/
def Obligations.MonoPassLeavesBankOne : Prop :=
  ∀ (s u : State) (sel : Byte), exec (.decode .mono sel) s = .next u →
    (∀ t y x, t < 384 → y < 8 → x < 8 → u.tbufWord 1 t y x = s.tbufWord 1 t y x) ∧
    (∀ my mx, bankX s.cfg 1 ≤ mx → u.mosaicWord my mx = s.mosaicWord my mx) ∧
    (∀ m : List Host.Cell, (∀ off, off < 8192 → { s with tiles := m }.tileByte 0 off = s.tileByte 0 off) →
      exec (.decode .mono sel) { s with tiles := m } = .next { u with tiles := m })

/-- Rule R172 (idempotence), on canonical memories: a `DECODE` that completed without fault, issued again with the same
operands and inputs, leaves the whole state exactly as the first left it. -/
def Obligations.DecodeTwiceIsDecodeOnce : Prop :=
  ∀ (s u : State) (mode : Mode) (sel : Byte), s.tbufWf → s.mosaicWf → exec (.decode mode sel) s = .next u →
    u.fault = false → exec (.decode mode sel) u = .next u

/-- Rule R172 (purity): the pixels of the processed banks, and whether the pass faults and how, are a function of the
configuration, the layout, tile memory, the resolver and the operands alone, whatever both memories held before. -/
def Obligations.DecodeIsPure : Prop :=
  ∀ (s s' u u' : State) (mode : Mode) (sel : Byte), s.idle → s'.idle → s.inited = true → s'.inited = true →
    s'.cfg = s.cfg → s'.nb = s.nb → s'.tiles = s.tiles → s'.palette = s.palette →
    exec (.decode mode sel) s = .next u → exec (.decode mode sel) s' = .next u' →
    u'.fault = u.fault ∧ (u.fault = true → u'.fcause = u.fcause ∧ u'.finfo = u.finfo) ∧
    (u.fault = false → ∀ b t y x, b < (banksRequested mode).toNat → t < 384 → y < 8 → x < 8 →
      u'.tbufAt (tbufIndex b t y x) = u.tbufAt (tbufIndex b t y x) ∧
      u'.mosaicAt (pixelKey s.cfg b t y x) = u.mosaicAt (pixelKey s.cfg b t y x))

/-- Rule R167: every word a `DECODE` changes in either memory is opaque, from every state and however the pass ends. -/
def Obligations.DecodedWordsAreOpaque : Prop :=
  ∀ (s u : State) (mode : Mode) (sel : Byte), exec (.decode mode sel) s = .next u → ∀ i,
    (u.tbufAt i ≠ s.tbufAt i → (u.tbufAt i).extractLsb' 0 8 = 0xFF#8) ∧
    (u.mosaicAt i ≠ s.mosaicAt i → (u.mosaicAt i).extractLsb' 0 8 = 0xFF#8)

/-- Rule R175: no command but `INIT` changes a gridline pixel of the mosaic, from any state. -/
def Obligations.GridlinesSurviveCommands : Prop :=
  ∀ (i : Instr) (s u : State), (∀ n, i ≠ .init n) → exec i s = .next u →
    ∀ my mx, isGrid s.cfg mx my = true → u.mosaicWord my mx = s.mosaicWord my mx

/-- Rule R140: a command leaves the two memories equal at every coordinate of the layout if they were equal before. -/
def Obligations.CommandsKeepMemoriesDual : Prop :=
  ∀ (i : Instr) (s u : State), s.dual → exec i s = .next u → u.dual

/-! The two levels. -/

/-- Rules R10, R130: the two levels agree on `DECODE`. Its word issued at the micro-step level answers a state from which
the engine, left to run with no host access, reaches exactly the state the command-level transition gives, after at most
one micro-step for each of the row reads and for the resolver call, the check and the two writes of each pixel. Where the
command is accepted `BUSY` is 1, `PXC` is at the first pixel and nothing but the engine's own latches has changed. -/
def Obligations.DecodeLevelsAgree : Prop :=
  ∀ (s : State) (mode : Mode) (sel : Byte), s.phase = .idle →
    ∃ a, commandIssue (encode (.decode mode sel)) s = .next a ∧
      exec (.decode mode sel) s = .next (microSteps ((banksRequested mode).toNat * 104448) a) ∧
      (s.idle → s.inited = true →
        a = { s with
          busy := true, selr := sel, nbreq := banksRequested mode, phase := .readLower
          pxc := { b := 0#1, t := 0#9, y := 0#3, x := 0#3 } })

/-- Rules R10, R130, R182: the two levels agree on `INIT`. Its word issued at the micro-step level answers a state from
which the engine, left to run, reaches exactly the state the command-level transition gives, after one micro-step for
each pixel word it paints. Where the command is accepted `BUSY` is 1, `INIT` stands at its first word and nothing else
has changed: both memories and the layout are still the old ones (log entry 14). -/
def Obligations.InitLevelsAgree : Prop :=
  ∀ (s : State) (n : BitVec 2), s.phase = .idle →
    ∃ a, commandIssue (encode (.init n)) s = .next a ∧
      exec (.init n) s = .next (microSteps (tbufSize n + mosaicSize s.cfg n) a) ∧
      (s.idle → n = 1#2 ∨ n = 2#2 → a = { s with busy := true, phase := .paintTile n 0 })

/-- Rules R76, R131, R132. While `INIT` paints, one micro-step is one pixel write, tile buffers first in the order of
their linear index, then the mosaic row by row; every other word of both memories is as before, except that the words
outside the new layout are gone when the last one has been written (log entry 14). -/
def Obligations.InitPaintsWordByWord : Prop :=
  ∀ (s : State) (n : BitVec 2) (i : Nat), s.busy = true → s.fault = false → (n = 1#2 ∨ n = 2#2) →
    (s.phase = .paintTile n i →
      microStep s = { s with tbuf := (microStep s).tbuf, phase := (microStep s).phase } ∧
      (∀ k, (microStep s).tbufAt k = if k = i then s.cfg.blank else s.tbufAt k) ∧
      (microStep s).phase = if i + 1 < n.toNat * 24576 then .paintTile n (i + 1) else .paintMosaic n 0) ∧
    (s.phase = .paintMosaic n i → i < mosaicSize s.cfg n →
      let my := i / mosaicW s.cfg n
      let mx := i % mosaicW s.cfg n
      (∀ my' mx', my' < mosaicH s.cfg → mx' < mosaicW s.cfg n → (microStep s).mosaicAt (mosaicKey my' mx') =
        if my' = my ∧ mx' = mx then paint s.cfg mx my else s.mosaicAt (mosaicKey my' mx')) ∧
      (∀ k, k < tbufSize n → (microStep s).tbufAt k = s.tbufAt k) ∧
      (i + 1 < mosaicSize s.cfg n →
        microStep s = { s with mosaic := (microStep s).mosaic, phase := .paintMosaic n (i + 1) } ∧
        ∀ k, k ≠ mosaicKey my mx → (microStep s).mosaicAt k = s.mosaicAt k) ∧
      (mosaicSize s.cfg n ≤ i + 1 →
        microStep s = { s with
          tbuf := (microStep s).tbuf, mosaic := (microStep s).mosaic, nb := n, inited := true, winsel := .none
          busy := false, phase := .idle }))

/-- Rule R21: over any step but a reset, `NB` and `INITED` change only where an `INIT` completes, and then `NB` is its
bank count and `INITED` is 1; so while an `INIT` runs, and when a fault breaks it off, both are as the last completed
`INIT` left them, and `NB` is 0 before the first (that R131's `NB <- bank_count` takes effect at completion is log
entry 14). -/
def Obligations.LayoutChangesWhenInitCompletes : Prop :=
  (∀ s t : State, s.script.head? ≠ some .reset → step s = .next t → t.nb ≠ s.nb ∨ t.inited ≠ s.inited →
    s.fault = false ∧ t.fault = false ∧ t.busy = false ∧ t.inited = true ∧ t.winsel = .none ∧
    ((∃ i, s.phase = .paintMosaic t.nb i ∧ mosaicSize s.cfg t.nb ≤ i + 1) ∨
     (∃ w rest, s.script = .write 0#21 w :: rest ∧ decode w = .ok (.init t.nb) ∧ (t.nb = 1#2 ∨ t.nb = 2#2)))) ∧
  (∀ s t : State, s.Inv → step s = .next t → t.inited = false → t.nb = 0#2)

/-- Rule R261: from every state of the invariant the running command, left alone, ends within a number of micro-steps
fixed in advance. -/
def Obligations.EveryCommandTerminates : Prop :=
  ∀ s : State, s.Inv → (microSteps 391554 s).busy = false

/-! Invariants. -/

/-- The invariant holds after reset (rule R36). -/
def Obligations.ResetMeetsTheInvariant : Prop :=
  State.reset.Inv ∧ State.reset.gridOk ∧ State.reset.dualInv

/-- Every step keeps the invariant: canonical memories, the flags' rules, the layout's rules, the window's, the
slot's and the sequencer's (rules R21, R22, R26, R28 to R32). That the layout's rules hold while an `INIT` runs, and after
one broken off, rests on log entry 14. -/
def Obligations.StepKeepsTheInvariant : Prop :=
  ∀ s t : State, s.Inv → step s = .next t → t.Inv

/-- From a state of the invariant no step stops: every host action and every micro-step has a next state. -/
def Obligations.NoStepStops : Prop :=
  ∀ s : State, s.Inv → ∃ t, step s = .next t

/-- Every step, at either level, keeps every gridline pixel of the layout at `GRID_RGBA`: no `DECODE` and no `SETPIX`
writes one (rule R175), and `INIT` writes it `GRID_RGBA` (rules R131, R132). That the layout, and with it the gridline
pixels that exist, changes only when an `INIT` has painted all of it is log entry 14, which R131 (b) leaves open. -/
def Obligations.StepKeepsGridlines : Prop :=
  ∀ s t : State, s.Inv → s.gridOk → step s = .next t → t.gridOk

/-- At every step of either level but while an `INIT` paints, the two memories agree at every coordinate, but for the one
pixel of a pass between its two writes (rule R140). While `INIT` paints nothing is said: it writes all of `TBUF` before
`MOSAIC` (rule R131), an order R131 (b) leaves open; that both are painted when the layout changes rests on log entry
14. -/
def Obligations.StepKeepsMemoriesDual : Prop :=
  ∀ s t : State, s.Inv → s.dualInv → step s = .next t → t.dualInv

/-! The host port and reset. -/

/-- Rules R22, R29: the fields of `STATUS`, its reserved bits read 0, and the codes of `WINSEL`: 0 none, 1 the mosaic, 2
one tile buffer. -/
def Obligations.StatusFields : Prop :=
  ∀ s : State, s.status.getLsbD 0 = s.busy ∧ s.status.getLsbD 1 = s.inited ∧ s.status.getLsbD 2 = s.fault ∧
    s.status.extractLsb' 3 1 = 0#1 ∧ s.status.extractLsb' 4 2 = s.nb ∧ s.status.extractLsb' 6 2 = 0#2 ∧
    s.status.extractLsb' 8 2 = s.winsel.code ∧ s.status.extractLsb' 10 2 = 0#2 ∧
    s.status.getLsbD 12 = s.bgvalid ∧ s.status.extractLsb' 13 19 = 0#19 ∧
    s.busyOut = s.busy ∧ s.faultOut = s.fault ∧
    WinSel.none.code = 0#2 ∧ WinSel.mosaic.code = 1#2 ∧ WinSel.tile.code = 2#2

/-- Rules R34, R35: what each register reads, with no side effect and in every state; writes to read-only registers and
to the window are ignored; `ARG` stores all 32 bits. -/
def Obligations.RegisterAccess : Prop :=
  ∀ s : State,
    portRead 0#21 s = .next { s with rdata := 0#32 } ∧ portRead 1#21 s = .next { s with rdata := s.status } ∧
    portRead 2#21 s = .next { s with rdata := s.arg } ∧ portRead 3#21 s = .next { s with rdata := s.result } ∧
    portRead 4#21 s = .next { s with rdata := 0#24 ++ s.fcause } ∧
    portRead 5#21 s = .next { s with rdata := s.finfo } ∧
    portRead 6#21 s = .next { s with rdata := BitVec.ofNat 32 s.winlen } ∧
    (∀ v, portWrite 2#21 v s = .next { s with arg := v }) ∧
    (∀ (off : BitVec 21) (v : Word), off ≠ 0#21 → off ≠ 2#21 → off.toNat < 7 ∨ 0x100000 ≤ off.toNat →
      portWrite off v s = .next s)

/-- Rule R73: an access to an unmapped offset raises `BAD_ADDR` with the offset, a read returning 0; with `FAULT = 1` it
changes nothing and a read returns 0. -/
def Obligations.UnmappedAccessFaults : Prop :=
  ∀ (s : State) (off : BitVec 21) (v : Word), 0x7 ≤ off.toNat → off.toNat ≤ 0xFFFFF →
    (s.fault = false →
      portRead off s = .next { faultedFrom .badAddr (0#11 ++ off) s with rdata := 0#32 } ∧
      portWrite off v s = .next (faultedFrom .badAddr (0#11 ++ off) s)) ∧
    (s.fault = true → portRead off s = .next { s with rdata := 0#32 } ∧ portWrite off v s = .next s)

/-- Rule R145, while `BUSY = 0`: 0 when faulted; `BAD_WINDOW` with the index when no window is selected or the index is
not below `WINLEN`; else the word of the mosaic or of the selected tile buffer at that index, row by row; a write changes
nothing. -/
def Obligations.WindowReads : Prop :=
  ∀ (s : State) (off : BitVec 21), 0x100000 ≤ off.toNat → s.busy = false →
    let i := off.toNat - 0x100000
    let w := mosaicW s.cfg s.nb
    (s.fault = true → portRead off s = .next { s with rdata := 0#32 }) ∧
    (s.fault = false → s.winsel = .none ∨ s.winlen ≤ i →
      portRead off s = .next { faultedFrom .badWindow (BitVec.ofNat 32 i) s with rdata := 0#32 }) ∧
    (s.fault = false → s.winsel = .mosaic → i < s.winlen →
      i / w < mosaicH s.cfg ∧ i % w < w ∧
      portRead off s = .next { s with rdata := s.mosaicAt (mosaicKey (i / w) (i % w)) }) ∧
    (s.fault = false → s.winsel = .tile → i < 64 → s.winbank.toNat < s.nb.toNat → s.wintile.toNat < 384 →
      portRead off s =
        .next { s with rdata := s.tbufAt (tbufIndex s.winbank.toNat s.wintile.toNat (i / 8) (i % 8)) }) ∧
    (∀ v, portWrite off v s = .next s)

/-- Rule R253: a read of a window word inside the window while a pass runs raises nothing and changes nothing of the TDU, and
returns the addressed word as it stands before or after the pending micro-step. Which one is a free value. -/
def Obligations.WindowReadDuringPass : Prop :=
  ∀ (s : State) (i : Nat), s.Inv → s.phase.decoding = true → s.winsel ≠ .none → i < s.winlen →
    ∃ v, windowRead i s = .next { s with rdata := v, picks := s.picks + 1 } ∧
      (∀ off : BitVec 21, off.toNat = 0x100000 + i →
        portRead off s = .next { s with rdata := v, picks := s.picks + 1 }) ∧
      (windowWord i s = some v ∨ windowWord i (microStep s) = some v)

/-- Rules R253, R75: a read of a window word inside the window while an `INIT` paints raises nothing and changes nothing of the
TDU, and returns either the addressed word as it stands or, where the pending write goes to that word, the word it
writes: `Paint` in the mosaic, `BLANK_RGBA` in the tile buffer. Which one is a free value (log entry 8); the window is
still the last completed layout's (log entry 14). -/
def Obligations.WindowReadDuringInit : Prop :=
  ∀ (s : State) (i : Nat), s.Inv → s.phase.painting = true → s.winsel ≠ .none → i < s.winlen →
    ∃ v, windowRead i s = .next { s with rdata := v, picks := s.picks + 1 } ∧
      (∀ off : BitVec 21, off.toNat = 0x100000 + i →
        portRead off s = .next { s with rdata := v, picks := s.picks + 1 }) ∧
      (windowWord i s = some v ∨
       (∃ n j, s.winsel = .mosaic ∧ s.phase = .paintMosaic n j ∧
         i / mosaicW s.cfg s.nb = j / mosaicW s.cfg n ∧ i % mosaicW s.cfg s.nb = j % mosaicW s.cfg n ∧
         v = paint s.cfg (i % mosaicW s.cfg s.nb) (i / mosaicW s.cfg s.nb)) ∨
       (∃ n, s.winsel = .tile ∧
         s.phase = .paintTile n (tbufIndex s.winbank.toNat s.wintile.toNat (i / 8) (i % 8)) ∧ v = s.cfg.blank))

/-- Rules R240, R242: reset, from any state, stops the running command, sets every piece of state to its value after
reset and leaves the inputs alone; no other step clears `FAULT` or empties the background slot. The engine's latches,
whose value after reset rule R36 leaves unspecified, are left open. -/
def Obligations.ResetEvent : Prop :=
  (∀ (s : State) (rest : List HostAction), s.script = .reset :: rest →
    ∃ t, step s = .next t ∧
      t = { State.reset with
        pxc := t.pxc, selr := t.selr, nbreq := t.nbreq, lo := t.lo, up := t.up, idx := t.idx, col := t.col
        cfg := s.cfg, tiles := s.tiles, palette := s.palette, script := rest, rdata := s.rdata, picks := s.picks }) ∧
  (∀ s t : State, s.script.head? ≠ some .reset → step s = .next t →
    (s.fault = true → t.fault = true) ∧ (s.bgvalid = true → t.bgvalid = true))

/-- Rule R36: what the spec states of the state after reset. -/
def Obligations.ResetState : Prop :=
  State.reset.busy = false ∧ State.reset.inited = false ∧ State.reset.fault = false ∧ State.reset.nb = 0#2 ∧
  State.reset.winsel = .none ∧ State.reset.winbank = 0#1 ∧ State.reset.wintile = 0#9 ∧ State.reset.winlen = 0 ∧
  State.reset.bgvalid = false ∧ State.reset.bgref = 0#32 ∧ State.reset.arg = 0#32 ∧ State.reset.result = 0#32 ∧
  State.reset.fcause = 0#8 ∧ State.reset.finfo = 0#32 ∧ State.reset.status = 0#32 ∧
  (∀ b t y x, State.reset.tbufWord b t y x = none) ∧ (∀ my mx, State.reset.mosaicWord my mx = none)

/-- Rules R61, R78, R242 and decision D28: no command and no micro-step changes an input; over a step `Cfg` never
changes, and tile memory and the resolver change only by the host's own action on them. -/
def Obligations.InputsBelongToTheHost : Prop :=
  (∀ (i : Instr) (s t : State), exec i s = .next t →
    t.cfg = s.cfg ∧ t.tiles = s.tiles ∧ t.palette = s.palette) ∧
  (∀ s : State, (microStep s).cfg = s.cfg ∧ (microStep s).tiles = s.tiles ∧ (microStep s).palette = s.palette) ∧
  (∀ s t : State, step s = .next t → t.cfg = s.cfg ∧
    (t.tiles ≠ s.tiles → ∃ b off v, s.script.head? = some (.tileByte b off v)) ∧
    (t.palette ≠ s.palette → ∃ sel i a, s.script.head? = some (.resolver sel i a)))

/-- Rules R8, R61, R112: after the host writes a byte of tile memory, or changes an answer of the resolver, that byte or
answer reads as given, every other one as before, and nothing else has changed (that a write makes an absent byte
present, and the form of the resolver's change, are log entries 3 and 11). -/
def Obligations.HostInputsReadBack : Prop :=
  (∀ (s : State) (b : BitVec 1) (off : BitVec 13) (v : Byte) (rest : List HostAction),
    s.script = .tileByte b off v :: rest → ∃ u, step s = .next u ∧ u = { s with script := rest, tiles := u.tiles } ∧
      ∀ (b' : BitVec 1) (off' : BitVec 13), u.tileByte b'.toNat off'.toNat =
        if b' = b ∧ off' = off then some v else s.tileByte b'.toNat off'.toNat) ∧
  (∀ (s : State) (sel : Byte) (i : BitVec 2) (a : Option Rgb) (rest : List HostAction),
    s.script = .resolver sel i a :: rest → ∃ u, step s = .next u ∧
      u = { s with script := rest, palette := u.palette } ∧
      ∀ (sel' : Byte) (i' : BitVec 2), u.resolve sel' i' =
        if sel' = sel ∧ i' = i then a else s.resolve sel' i')

/-- Rule R21: no command but `INIT` writes `NB` or `INITED`. -/
def Obligations.OnlyInitWritesTheLayout : Prop :=
  ∀ (i : Instr) (s t : State), (∀ n, i ≠ .init n) → exec i s = .next t → t.nb = s.nb ∧ t.inited = s.inited

/-- Rule R181: the bounds, for every `Cfg` and every in-range coordinate. -/
def Obligations.ArithmeticBounds : Prop :=
  ∀ (c : Cfg) (b t y x : Nat), b < 2 → t < 384 → y < 8 → x < 8 →
    16 * t + 2 * y + 1 ≤ 6143 ∧ t % 16 ≤ 15 ∧ t / 16 ≤ 23 ∧ bankX c b ≤ 383 ∧ pixelMx c b t x ≤ 510 ∧
    pixelMy c t y ≤ 446 ∧ 256 ≤ mosaicW c 2#2 ∧ mosaicW c 2#2 ≤ 766 ∧ 192 ≤ mosaicH c ∧ mosaicH c ≤ 447 ∧
    (∀ nb : BitVec 2, b < nb.toNat →
      mosaicIndex c nb (pixelMy c t y) (pixelMx c b t x) ≤ mosaicSize c nb - 1) ∧
    mosaicSize c 2#2 - 1 ≤ 342401 ∧ tbufIndex b t y x ≤ 49151 ∧
    (∀ lo up : Byte, (colourIndex lo up x).toNat ≤ 3)
end

