-- ==== Sys2Proof/Laws/Layout.lean ====
section
/-! SUPPORT. Arithmetic of the layout: a pixel's place in its bank block, and linear indices and keys against coordinates. -/

namespace Sys2Proof.Machine

theorem bankPitch_pos (c : Cfg) : 0 < bankPitch c := by unfold bankPitch; omega

/-- The column of a pixel inside its bank block. -/
theorem pixelMx_mod (c : Cfg) (b t x : Nat) (hx : x < 8) : pixelMx c b t x % bankPitch c = t % 16 * 8 + x := by
  unfold pixelMx bankX
  rw [Nat.add_assoc, Nat.mul_comm, Nat.mul_add_mod, Nat.mod_eq_of_lt]
  unfold bankPitch
  omega

theorem pixelMx_div (c : Cfg) (b t x : Nat) (hx : x < 8) : pixelMx c b t x / bankPitch c = b := by
  unfold pixelMx bankX
  rw [Nat.add_assoc, Nat.mul_comm, Nat.mul_add_div (bankPitch_pos c), Nat.div_eq_of_lt, Nat.add_zero]
  unfold bankPitch
  omega

theorem pixelMx_lt (c : Cfg) (nb : BitVec 2) {b t x : Nat} (hb : b < nb.toNat) (hx : x < 8) :
    pixelMx c b t x < mosaicW c nb := by
  have h : (b + 1) * bankPitch c ≤ nb.toNat * bankPitch c := Nat.mul_le_mul_right _ hb
  have hp : 128 ≤ bankPitch c := by unfold bankPitch; omega
  unfold pixelMx bankX mosaicW
  rw [Nat.add_mul, Nat.one_mul] at h
  omega

/-- The row of a pixel: the horizontal band lies between tile rows 15 and 16 (rule R69). -/
theorem pixelMy_eq (c : Cfg) {t : Nat} (y : Nat) (ht : t < 384) :
    pixelMy c t y = if t < 256 then t / 16 * 8 + y else t / 16 * 8 + c.hgap.toNat + y := by
  unfold pixelMy
  split
  · rw [show t / 16 / 16 = 0 by omega]; simp
  · rw [show t / 16 / 16 = 1 by omega]; simp

theorem pixelMy_lt (c : Cfg) {t y : Nat} (ht : t < 384) (hy : y < 8) : pixelMy c t y < mosaicH c := by
  rw [pixelMy_eq c y ht]
  unfold mosaicH
  split <;> omega

theorem pixel_not_grid (c : Cfg) (b : Nat) {t y x : Nat} (ht : t < 384) (hy : y < 8) (hx : x < 8) :
    isGrid c (pixelMx c b t x) (pixelMy c t y) = false := by
  unfold isGrid
  rw [pixelMx_mod c b t x hx, pixelMy_eq c y ht]
  simp only [Bool.or_eq_false_iff, decide_eq_false_iff_not]
  constructor
  · omega
  · split <;> omega

theorem mosaicIndex_mod (c : Cfg) (nb : BitVec 2) {my mx : Nat} (h : mx < mosaicW c nb) :
    mosaicIndex c nb my mx % mosaicW c nb = mx := by
  unfold mosaicIndex
  rw [Nat.mul_comm, Nat.mul_add_mod, Nat.mod_eq_of_lt h]

theorem mosaicIndex_div (c : Cfg) (nb : BitVec 2) {my mx : Nat} (h : mx < mosaicW c nb) :
    mosaicIndex c nb my mx / mosaicW c nb = my := by
  unfold mosaicIndex
  rw [Nat.mul_comm, Nat.mul_add_div (by omega), Nat.div_eq_of_lt h, Nat.add_zero]

theorem mosaicIndex_lt (c : Cfg) (nb : BitVec 2) {my mx : Nat} (h : mx < mosaicW c nb) (hy : my < mosaicH c) :
    mosaicIndex c nb my mx < mosaicSize c nb := by
  have h1 : (my + 1) * mosaicW c nb ≤ mosaicH c * mosaicW c nb := Nat.mul_le_mul_right _ hy
  unfold mosaicIndex mosaicSize
  rw [Nat.mul_comm (mosaicW c nb)]
  rw [Nat.add_mul, Nat.one_mul] at h1
  omega

/-- Every column fits the 16 bits `mosaicKey` gives it (rule R6). -/
theorem mosaicW_lt (c : Cfg) (nb : BitVec 2) : mosaicW c nb < 65536 := by
  have h1 := nb.isLt
  have h2 := c.vgap.isLt
  have h3 : nb.toNat * bankPitch c ≤ 3 * 383 := Nat.mul_le_mul (by omega) (by unfold bankPitch; omega)
  unfold mosaicW
  omega

theorem mosaicKey_mod {my mx : Nat} (h : mx < 65536) : mosaicKey my mx % 65536 = mx := by unfold mosaicKey; omega

theorem mosaicKey_div {my mx : Nat} (h : mx < 65536) : mosaicKey my mx / 65536 = my := by unfold mosaicKey; omega

/-- A key names one coordinate. -/
theorem mosaicKey_inj {my mx my' mx' : Nat} (h : mx < 65536) (h' : mx' < 65536)
    (he : mosaicKey my mx = mosaicKey my' mx') : my = my' ∧ mx = mx' := by
  unfold mosaicKey at he
  omega

theorem paintAt_mosaicKey (c : Cfg) {my mx : Nat} (h : mx < 65536) : paintAt c (mosaicKey my mx) = paint c mx my := by
  unfold paintAt
  rw [mosaicKey_mod h, mosaicKey_div h]

theorem inMosaic_mosaicKey (c : Cfg) (nb : BitVec 2) {my mx : Nat} (h : mx < mosaicW c nb) (hy : my < mosaicH c) :
    inMosaic c nb (mosaicKey my mx) = true := by
  have hw := mosaicW_lt c nb
  unfold inMosaic
  rw [mosaicKey_mod (by omega), mosaicKey_div (by omega)]
  simp [h, hy]

/-- A word of the mosaic is the word of a coordinate inside it. -/
theorem mosaicKey_of_in {c : Cfg} {nb : BitVec 2} {k : Nat} (h : inMosaic c nb k = true) :
    ∃ my mx, my < mosaicH c ∧ mx < mosaicW c nb ∧ k = mosaicKey my mx := by
  unfold inMosaic at h
  simp only [Bool.and_eq_true, decide_eq_true_eq] at h
  exact ⟨k / 65536, k % 65536, h.2, h.1, by unfold mosaicKey; omega⟩

theorem pixelKey_in (c : Cfg) (nb : BitVec 2) {b t y x : Nat} (hb : b < nb.toNat) (ht : t < 384) (hy : y < 8)
    (hx : x < 8) : inMosaic c nb (pixelKey c b t y x) = true :=
  inMosaic_mosaicKey c nb (pixelMx_lt c nb hb hx) (pixelMy_lt c ht hy)

/-- `INIT` paints a tile pixel blank (rule R71). -/
theorem paintAt_pixelKey (c : Cfg) (nb : BitVec 2) {b t y x : Nat} (hb : b < nb.toNat) (ht : t < 384) (hy : y < 8)
    (hx : x < 8) : paintAt c (pixelKey c b t y x) = c.blank := by
  unfold pixelKey
  rw [paintAt_mosaicKey c (Nat.lt_trans (pixelMx_lt c nb hb hx) (mosaicW_lt c nb))]
  unfold paint
  rw [pixel_not_grid c b ht hy hx]
  rfl

/-- A gridline word is no tile pixel's word (rule R71). -/
theorem grid_ne_pixelKey (c : Cfg) (nb : BitVec 2) {b t y x my mx : Nat} (hb : b < nb.toNat) (ht : t < 384)
    (hy : y < 8) (hx : x < 8) (hmx : mx < mosaicW c nb) (hg : isGrid c mx my = true) :
    mosaicKey my mx ≠ pixelKey c b t y x := fun h => by
  have hw := mosaicW_lt c nb
  obtain ⟨rfl, rfl⟩ := mosaicKey_inj (by omega) (Nat.lt_trans (pixelMx_lt c nb hb hx) hw) h
  rw [pixel_not_grid c b ht hy hx] at hg
  exact absurd hg (by decide)

/-- A mosaic word is the word of at most one tile pixel (rule R71). -/
theorem pixelKey_inj (c : Cfg) (nb : BitVec 2) {b t y x b' t' y' x' : Nat} (hb : b < nb.toNat) (hb' : b' < nb.toNat)
    (ht : t < 384) (hy : y < 8) (hx : x < 8) (ht' : t' < 384) (hy' : y' < 8) (hx' : x' < 8)
    (h : pixelKey c b t y x = pixelKey c b' t' y' x') : b = b' ∧ t = t' ∧ y = y' ∧ x = x' := by
  have hw := mosaicW_lt c nb
  obtain ⟨h1, h2⟩ := mosaicKey_inj (Nat.lt_trans (pixelMx_lt c nb hb hx) hw) (Nat.lt_trans (pixelMx_lt c nb hb' hx') hw) h
  have e1 : b = b' := by rw [← pixelMx_div c b t x hx, h2, pixelMx_div c b' t' x' hx']
  have e2 : t % 16 * 8 + x = t' % 16 * 8 + x' := by rw [← pixelMx_mod c b t x hx, h2, pixelMx_mod c b' t' x' hx']
  rw [pixelMy_eq c y ht, pixelMy_eq c y' ht'] at h1
  refine ⟨e1, ?_⟩
  split at h1 <;> split at h1 <;> omega

theorem tbufIndex_inj {b t y x b' t' y' x' : Nat} (ht : t < 384) (hy : y < 8) (hx : x < 8) (ht' : t' < 384)
    (hy' : y' < 8) (hx' : x' < 8) (h : tbufIndex b t y x = tbufIndex b' t' y' x') :
    b = b' ∧ t = t' ∧ y = y' ∧ x = x' := by
  unfold tbufIndex at h
  omega

theorem tbufIndex_lt {nb : BitVec 2} {b t y x : Nat} (hb : b < nb.toNat) (ht : t < 384) (hy : y < 8) (hx : x < 8) :
    tbufIndex b t y x < tbufSize nb := by
  unfold tbufIndex tbufSize
  omega

end Sys2Proof.Machine
end

