-- ==== Sys2Proof/Laws/Memory.lean ====
section
/-! SUPPORT. Laws of the sparse memories: read after write, every write keeps the canonical form, and equal reads of
canonical memories are equal data. -/

namespace Sys2Proof.Machine

variable {α : Type}

theorem Cells.find_insert (a b : Nat) (v : α) (m : Cells α) :
    Cells.find b (Cells.insert a v m) = if a = b then some v else Cells.find b m := by
  induction m with
  | nil => simp [Cells.insert, Cells.find]
  | cons p m ih =>
    obtain ⟨k, u⟩ := p
    simp only [Cells.insert]
    split
    · simp only [Cells.find]
    · split
      · subst_vars
        simp only [Cells.find]
        split <;> rfl
      · rename_i _ hne
        simp only [Cells.find, ih]
        split
        · rw [if_neg (by omega)]
        · rfl

theorem Cells.find_erase (a b : Nat) (m : Cells α) :
    Cells.find b (Cells.erase a m) = if a = b then none else Cells.find b m := by
  induction m with
  | nil => simp [Cells.erase, Cells.find]
  | cons p m ih =>
    obtain ⟨k, u⟩ := p
    simp only [Cells.erase]
    split
    · subst_vars
      rw [ih]
      simp only [Cells.find]
      split <;> rfl
    · simp only [Cells.find, ih]
      split
      · rw [if_neg (by omega)]
      · rfl

/-- Read after write, for a memory with defaults: the written word there, the old word elsewhere. -/
theorem Cells.get_put [DecidableEq α] (d e : α) (a b : Nat) (v : α) (m : Cells α) (he : a = b → e = d) :
    Cells.get e b (Cells.put d a v m) = if a = b then v else Cells.get e b m := by
  unfold Cells.get Cells.put
  split
  · rw [Cells.find_erase]
    split
    · rename_i h1 h2
      simp [he h2, h1]
    · rfl
  · rw [Cells.find_insert]
    split <;> rfl

theorem Cells.find_set (a b : Nat) (v : Option α) (m : Cells α) :
    Cells.find b (Cells.set a v m) = if a = b then v else Cells.find b m := by
  cases v with
  | none => exact Cells.find_erase a b m
  | some u => exact Cells.find_insert a b u m

/-- What `Cells.keep` keeps reads as before; the rest is not listed. -/
theorem Cells.find_keep (p : Nat → Bool) (a : Nat) (m : Cells α) :
    Cells.find a (Cells.keep p m) = if p a then Cells.find a m else none := by
  induction m with
  | nil => simp [Cells.keep, Cells.find]
  | cons c m ih =>
    have hc : Cells.keep p (c :: m) = if p c.1 then c :: Cells.keep p m else Cells.keep p m := List.filter_cons ..
    rw [hc]
    by_cases hk : c.1 = a <;> by_cases hp : p c.1 = true <;> simp_all [Cells.find]

theorem Cells.mem_keep {p : Nat → Bool} {m : Cells α} {c : Nat × α} :
    c ∈ Cells.keep p m ↔ c ∈ m ∧ p c.1 = true := List.mem_filter

theorem Cells.sorted_keep {p : Nat → Bool} {m : Cells α} (h : Cells.sorted m) : Cells.sorted (Cells.keep p m) :=
  List.Pairwise.filter _ h

/-- Everything listed after an insertion is the new entry or was listed before. -/
theorem Cells.mem_insert {a : Nat} {v : α} {m : Cells α} {c : Nat × α}
    (h : c ∈ Cells.insert a v m) : c = (a, v) ∨ c ∈ m := by
  induction m with
  | nil => simpa [Cells.insert] using h
  | cons p m ih =>
    obtain ⟨k, u⟩ := p
    simp only [Cells.insert] at h
    split at h
    · simpa using h
    · split at h
      · simp only [List.mem_cons] at h ⊢
        exact h.imp_right Or.inr
      · simp only [List.mem_cons] at h ⊢
        rcases h with rfl | h
        · exact .inr (.inl rfl)
        · exact (ih h).imp_right Or.inr

theorem Cells.mem_erase {a : Nat} {m : Cells α} {c : Nat × α} (h : c ∈ Cells.erase a m) : c ∈ m := by
  induction m with
  | nil => simp [Cells.erase] at h
  | cons p m ih =>
    obtain ⟨k, u⟩ := p
    simp only [Cells.erase] at h
    split at h
    · exact List.mem_cons_of_mem _ (ih h)
    · simp only [List.mem_cons] at h ⊢
      exact h.imp_right ih

/-- Nothing listed after an erasure stands at the erased key. -/
theorem Cells.key_of_mem_erase {a : Nat} {m : Cells α} {c : Nat × α} (h : c ∈ Cells.erase a m) : c.1 ≠ a := by
  induction m with
  | nil => simp [Cells.erase] at h
  | cons p m ih =>
    obtain ⟨k, u⟩ := p
    simp only [Cells.erase] at h
    split at h
    · exact ih h
    · rcases List.mem_cons.mp h with rfl | h
      · assumption
      · exact ih h

theorem Cells.sorted_insert {a : Nat} {v : α} {m : Cells α} (h : Cells.sorted m) :
    Cells.sorted (Cells.insert a v m) := by
  induction m with
  | nil => simp [Cells.insert, Cells.sorted]
  | cons p m ih =>
    obtain ⟨k, u⟩ := p
    have hk := (List.pairwise_cons.mp h).1
    have hm := (List.pairwise_cons.mp h).2
    simp only [Cells.insert]
    split
    · rename_i hak
      refine List.pairwise_cons.mpr ⟨fun c hc => ?_, h⟩
      rcases List.mem_cons.mp hc with rfl | hc
      · exact hak
      · exact lt_trans hak (hk c hc)
    · split
      · subst_vars
        exact List.pairwise_cons.mpr ⟨hk, hm⟩
      · refine List.pairwise_cons.mpr ⟨fun c hc => ?_, ih hm⟩
        rcases Cells.mem_insert hc with rfl | hc
        · simp only
          omega
        · exact hk c hc

theorem Cells.sorted_erase {a : Nat} {m : Cells α} (h : Cells.sorted m) : Cells.sorted (Cells.erase a m) := by
  induction m with
  | nil => simp [Cells.erase, Cells.sorted]
  | cons p m ih =>
    obtain ⟨k, u⟩ := p
    have hk := (List.pairwise_cons.mp h).1
    have hm := (List.pairwise_cons.mp h).2
    simp only [Cells.erase]
    split
    · exact ih hm
    · exact List.pairwise_cons.mpr ⟨fun c hc => hk c (Cells.mem_erase hc), ih hm⟩

theorem Cells.sorted_put [DecidableEq α] {d : α} {a : Nat} {v : α} {m : Cells α} (h : Cells.sorted m) :
    Cells.sorted (Cells.put d a v m) := by
  unfold Cells.put
  split
  · exact Cells.sorted_erase h
  · exact Cells.sorted_insert h

theorem Cells.sorted_set {a : Nat} {v : Option α} {m : Cells α} (h : Cells.sorted m) :
    Cells.sorted (Cells.set a v m) := by
  cases v with
  | none => exact Cells.sorted_erase h
  | some u => exact Cells.sorted_insert h

/-- Everything listed after `put` was listed before, or is the new entry, which then is not the default. -/
theorem Cells.mem_put [DecidableEq α] {d : α} {a : Nat} {v : α} {m : Cells α} {c : Nat × α}
    (h : c ∈ Cells.put d a v m) : (c = (a, v) ∧ v ≠ d) ∨ c ∈ m := by
  unfold Cells.put at h
  split at h
  · exact .inr (Cells.mem_erase h)
  · rename_i hv
    exact (Cells.mem_insert h).imp_left fun e => ⟨e, hv⟩

theorem Cells.mem_set {a : Nat} {v : Option α} {m : Cells α} {c : Nat × α}
    (h : c ∈ Cells.set a v m) : c.1 = a ∨ c ∈ m := by
  cases v with
  | none => exact .inr (Cells.mem_erase h)
  | some u => exact (Cells.mem_insert h).imp_left fun e => by simp [e]

/-- In a canonical memory every listed entry is what its address reads as. -/
theorem Cells.find_of_mem {m : Cells α} (h : Cells.sorted m) {c : Nat × α} (hc : c ∈ m) :
    Cells.find c.1 m = some c.2 := by
  induction m with
  | nil => simp at hc
  | cons p m ih =>
    obtain ⟨k, u⟩ := p
    have hk := (List.pairwise_cons.mp h).1
    simp only [Cells.find]
    rcases List.mem_cons.mp hc with rfl | hc
    · simp
    · have := hk c hc
      simp only at this
      rw [if_neg (by omega)]
      exact ih (List.pairwise_cons.mp h).2 hc

theorem Cells.mem_of_find {m : Cells α} {a : Nat} {v : α} (h : Cells.find a m = some v) : (a, v) ∈ m := by
  induction m with
  | nil => simp [Cells.find] at h
  | cons p m ih =>
    obtain ⟨k, u⟩ := p
    simp only [Cells.find] at h
    split at h
    · subst_vars
      simp_all
    · exact List.mem_cons_of_mem _ (ih h)

/-- Two canonical memories with the same readings are the same list. -/
theorem Cells.ext_find {m n : Cells α} (hm : Cells.sorted m) (hn : Cells.sorted n)
    (h : ∀ a, Cells.find a m = Cells.find a n) : m = n := by
  have hp : ∀ {l : Cells α}, Cells.sorted l → (l.map Prod.fst).Pairwise (· < ·) := fun hl =>
    List.pairwise_map.mpr hl
  have hnd : ∀ {l : Cells α}, Cells.sorted l → l.Nodup := fun hl =>
    List.Pairwise.imp (fun {a b} hab => by rintro rfl; exact lt_irrefl _ hab) hl
  have hmem : ∀ c, c ∈ m ↔ c ∈ n := fun c =>
    ⟨fun hc => Cells.mem_of_find (by rw [← h, Cells.find_of_mem hm hc]),
     fun hc => Cells.mem_of_find (by rw [h, Cells.find_of_mem hn hc])⟩
  have hperm : m.Perm n := (List.perm_ext_iff_of_nodup (hnd hm) (hnd hn)).mpr hmem
  exact hperm.eq_of_pairwise (fun a b _ _ hab hba => absurd hab (lt_asymm hba)) hm hn

/-- Writing the word that is there already changes nothing. -/
theorem Cells.put_get_self [DecidableEq α] {d : α} {a : Nat} {m : Cells α} (h : Cells.sorted m)
    (hd : ∀ v, (a, v) ∈ m → v ≠ d) : Cells.put d a (Cells.get d a m) m = m := by
  refine Cells.ext_find (Cells.sorted_put h) h fun b => ?_
  unfold Cells.put Cells.get
  cases hf : Cells.find a m with
  | none =>
    simp only [Option.getD_none, if_pos]
    rw [Cells.find_erase]
    split
    · subst_vars
      exact hf.symm
    · rfl
  | some v =>
    simp only [Option.getD_some]
    rw [if_neg (hd v (Cells.mem_of_find hf)), Cells.find_insert]
    split
    · subst_vars
      exact hf.symm
    · rfl

end Sys2Proof.Machine
end

