-- ==== Sys2Proof/Laws/State.lean ====
section
/-! SUPPORT. What every field of State is after every named update: one lemma an update, one clause a field, each true
by unfolding the update once. -/

namespace Sys2Proof.Machine

variable (s : State)

@[simp] theorem writeTbuf_fields (i : Nat) (c : Word) :
    (writeTbuf i c s).inited = s.inited ∧ (writeTbuf i c s).nb = s.nb ∧ (writeTbuf i c s).busy = s.busy ∧
    (writeTbuf i c s).fault = s.fault ∧ (writeTbuf i c s).arg = s.arg ∧ (writeTbuf i c s).result = s.result ∧
    (writeTbuf i c s).fcause = s.fcause ∧ (writeTbuf i c s).finfo = s.finfo ∧ (writeTbuf i c s).winsel = s.winsel ∧
    (writeTbuf i c s).winbank = s.winbank ∧ (writeTbuf i c s).wintile = s.wintile ∧
    (writeTbuf i c s).bgvalid = s.bgvalid ∧ (writeTbuf i c s).bgref = s.bgref ∧
    (writeTbuf i c s).tbuf = Cells.put s.cfg.blank i c s.tbuf ∧ (writeTbuf i c s).mosaic = s.mosaic ∧
    (writeTbuf i c s).pxc = s.pxc ∧ (writeTbuf i c s).selr = s.selr ∧ (writeTbuf i c s).nbreq = s.nbreq ∧
    (writeTbuf i c s).lo = s.lo ∧ (writeTbuf i c s).up = s.up ∧ (writeTbuf i c s).idx = s.idx ∧
    (writeTbuf i c s).col = s.col ∧ (writeTbuf i c s).phase = s.phase ∧ (writeTbuf i c s).cfg = s.cfg ∧
    (writeTbuf i c s).tiles = s.tiles ∧ (writeTbuf i c s).palette = s.palette ∧
    (writeTbuf i c s).script = s.script ∧ (writeTbuf i c s).rdata = s.rdata ∧ (writeTbuf i c s).picks = s.picks :=
  by and_intros <;> rfl

@[simp] theorem writeMosaic_fields (i : Nat) (c : Word) :
    (writeMosaic i c s).inited = s.inited ∧ (writeMosaic i c s).nb = s.nb ∧ (writeMosaic i c s).busy = s.busy ∧
    (writeMosaic i c s).fault = s.fault ∧ (writeMosaic i c s).arg = s.arg ∧ (writeMosaic i c s).result = s.result ∧
    (writeMosaic i c s).fcause = s.fcause ∧ (writeMosaic i c s).finfo = s.finfo ∧
    (writeMosaic i c s).winsel = s.winsel ∧ (writeMosaic i c s).winbank = s.winbank ∧
    (writeMosaic i c s).wintile = s.wintile ∧ (writeMosaic i c s).bgvalid = s.bgvalid ∧
    (writeMosaic i c s).bgref = s.bgref ∧ (writeMosaic i c s).tbuf = s.tbuf ∧
    (writeMosaic i c s).mosaic = Cells.put (paintAt s.cfg i) i c s.mosaic ∧ (writeMosaic i c s).pxc = s.pxc ∧
    (writeMosaic i c s).selr = s.selr ∧ (writeMosaic i c s).nbreq = s.nbreq ∧ (writeMosaic i c s).lo = s.lo ∧
    (writeMosaic i c s).up = s.up ∧ (writeMosaic i c s).idx = s.idx ∧ (writeMosaic i c s).col = s.col ∧
    (writeMosaic i c s).phase = s.phase ∧ (writeMosaic i c s).cfg = s.cfg ∧ (writeMosaic i c s).tiles = s.tiles ∧
    (writeMosaic i c s).palette = s.palette ∧ (writeMosaic i c s).script = s.script ∧
    (writeMosaic i c s).rdata = s.rdata ∧ (writeMosaic i c s).picks = s.picks :=
  by and_intros <;> rfl

@[simp] theorem recreate_fields (n : BitVec 2) :
    (recreate n s).inited = s.inited ∧ (recreate n s).nb = n ∧ (recreate n s).busy = s.busy ∧
    (recreate n s).fault = s.fault ∧ (recreate n s).arg = s.arg ∧ (recreate n s).result = s.result ∧
    (recreate n s).fcause = s.fcause ∧ (recreate n s).finfo = s.finfo ∧ (recreate n s).winsel = s.winsel ∧
    (recreate n s).winbank = s.winbank ∧ (recreate n s).wintile = s.wintile ∧ (recreate n s).bgvalid = s.bgvalid ∧
    (recreate n s).bgref = s.bgref ∧ (recreate n s).tbuf = [] ∧ (recreate n s).mosaic = [] ∧
    (recreate n s).pxc = s.pxc ∧ (recreate n s).selr = s.selr ∧ (recreate n s).nbreq = s.nbreq ∧
    (recreate n s).lo = s.lo ∧ (recreate n s).up = s.up ∧ (recreate n s).idx = s.idx ∧ (recreate n s).col = s.col ∧
    (recreate n s).phase = s.phase ∧ (recreate n s).cfg = s.cfg ∧ (recreate n s).tiles = s.tiles ∧
    (recreate n s).palette = s.palette ∧ (recreate n s).script = s.script ∧ (recreate n s).rdata = s.rdata ∧
    (recreate n s).picks = s.picks :=
  by and_intros <;> rfl

@[simp] theorem relayout_fields (n : BitVec 2) :
    (relayout n s).inited = s.inited ∧ (relayout n s).nb = n ∧ (relayout n s).busy = s.busy ∧
    (relayout n s).fault = s.fault ∧ (relayout n s).arg = s.arg ∧ (relayout n s).result = s.result ∧
    (relayout n s).fcause = s.fcause ∧ (relayout n s).finfo = s.finfo ∧ (relayout n s).winsel = s.winsel ∧
    (relayout n s).winbank = s.winbank ∧ (relayout n s).wintile = s.wintile ∧ (relayout n s).bgvalid = s.bgvalid ∧
    (relayout n s).bgref = s.bgref ∧
    (relayout n s).tbuf = Cells.keep (fun k => decide (k < tbufSize n)) s.tbuf ∧
    (relayout n s).mosaic = Cells.keep (inMosaic s.cfg n) s.mosaic ∧
    (relayout n s).pxc = s.pxc ∧ (relayout n s).selr = s.selr ∧ (relayout n s).nbreq = s.nbreq ∧
    (relayout n s).lo = s.lo ∧ (relayout n s).up = s.up ∧ (relayout n s).idx = s.idx ∧ (relayout n s).col = s.col ∧
    (relayout n s).phase = s.phase ∧ (relayout n s).cfg = s.cfg ∧ (relayout n s).tiles = s.tiles ∧
    (relayout n s).palette = s.palette ∧ (relayout n s).script = s.script ∧ (relayout n s).rdata = s.rdata ∧
    (relayout n s).picks = s.picks :=
  by and_intros <;> rfl

@[simp] theorem finishInit_fields :
    (finishInit s).inited = true ∧ (finishInit s).nb = s.nb ∧ (finishInit s).busy = s.busy ∧
    (finishInit s).fault = s.fault ∧ (finishInit s).arg = s.arg ∧ (finishInit s).result = s.result ∧
    (finishInit s).fcause = s.fcause ∧ (finishInit s).finfo = s.finfo ∧ (finishInit s).winsel = .none ∧
    (finishInit s).winbank = s.winbank ∧ (finishInit s).wintile = s.wintile ∧ (finishInit s).bgvalid = s.bgvalid ∧
    (finishInit s).bgref = s.bgref ∧ (finishInit s).tbuf = s.tbuf ∧ (finishInit s).mosaic = s.mosaic ∧
    (finishInit s).pxc = s.pxc ∧ (finishInit s).selr = s.selr ∧ (finishInit s).nbreq = s.nbreq ∧
    (finishInit s).lo = s.lo ∧ (finishInit s).up = s.up ∧ (finishInit s).idx = s.idx ∧ (finishInit s).col = s.col ∧
    (finishInit s).phase = s.phase ∧ (finishInit s).cfg = s.cfg ∧ (finishInit s).tiles = s.tiles ∧
    (finishInit s).palette = s.palette ∧ (finishInit s).script = s.script ∧ (finishInit s).rdata = s.rdata ∧
    (finishInit s).picks = s.picks :=
  by and_intros <;> rfl

@[simp] theorem msnapBody_fields :
    (msnapBody s).inited = s.inited ∧ (msnapBody s).nb = s.nb ∧ (msnapBody s).busy = s.busy ∧
    (msnapBody s).fault = s.fault ∧ (msnapBody s).arg = s.arg ∧
    (msnapBody s).result = BitVec.ofNat 32 ((mosaicH s.cfg <<< 16) ||| mosaicW s.cfg s.nb) ∧
    (msnapBody s).fcause = s.fcause ∧ (msnapBody s).finfo = s.finfo ∧ (msnapBody s).winsel = .mosaic ∧
    (msnapBody s).winbank = s.winbank ∧ (msnapBody s).wintile = s.wintile ∧ (msnapBody s).bgvalid = s.bgvalid ∧
    (msnapBody s).bgref = s.bgref ∧ (msnapBody s).tbuf = s.tbuf ∧ (msnapBody s).mosaic = s.mosaic ∧
    (msnapBody s).pxc = s.pxc ∧ (msnapBody s).selr = s.selr ∧ (msnapBody s).nbreq = s.nbreq ∧
    (msnapBody s).lo = s.lo ∧ (msnapBody s).up = s.up ∧ (msnapBody s).idx = s.idx ∧ (msnapBody s).col = s.col ∧
    (msnapBody s).phase = s.phase ∧ (msnapBody s).cfg = s.cfg ∧ (msnapBody s).tiles = s.tiles ∧
    (msnapBody s).palette = s.palette ∧ (msnapBody s).script = s.script ∧ (msnapBody s).rdata = s.rdata ∧
    (msnapBody s).picks = s.picks :=
  by and_intros <;> rfl

@[simp] theorem showTile_fields (bank : BitVec 2) (tile : BitVec 10) :
    (showTile bank tile s).inited = s.inited ∧ (showTile bank tile s).nb = s.nb ∧
    (showTile bank tile s).busy = s.busy ∧ (showTile bank tile s).fault = s.fault ∧
    (showTile bank tile s).arg = s.arg ∧ (showTile bank tile s).result = 0x00080008#32 ∧
    (showTile bank tile s).fcause = s.fcause ∧ (showTile bank tile s).finfo = s.finfo ∧
    (showTile bank tile s).winsel = .tile ∧ (showTile bank tile s).winbank = bank.setWidth 1 ∧
    (showTile bank tile s).wintile = tile.setWidth 9 ∧ (showTile bank tile s).bgvalid = s.bgvalid ∧
    (showTile bank tile s).bgref = s.bgref ∧ (showTile bank tile s).tbuf = s.tbuf ∧
    (showTile bank tile s).mosaic = s.mosaic ∧ (showTile bank tile s).pxc = s.pxc ∧
    (showTile bank tile s).selr = s.selr ∧ (showTile bank tile s).nbreq = s.nbreq ∧
    (showTile bank tile s).lo = s.lo ∧ (showTile bank tile s).up = s.up ∧ (showTile bank tile s).idx = s.idx ∧
    (showTile bank tile s).col = s.col ∧ (showTile bank tile s).phase = s.phase ∧
    (showTile bank tile s).cfg = s.cfg ∧ (showTile bank tile s).tiles = s.tiles ∧
    (showTile bank tile s).palette = s.palette ∧ (showTile bank tile s).script = s.script ∧
    (showTile bank tile s).rdata = s.rdata ∧ (showTile bank tile s).picks = s.picks :=
  by and_intros <;> rfl

@[simp] theorem setbgBody_fields :
    (setbgBody s).inited = s.inited ∧ (setbgBody s).nb = s.nb ∧ (setbgBody s).busy = s.busy ∧
    (setbgBody s).fault = s.fault ∧ (setbgBody s).arg = s.arg ∧ (setbgBody s).result = s.result ∧
    (setbgBody s).fcause = s.fcause ∧ (setbgBody s).finfo = s.finfo ∧ (setbgBody s).winsel = s.winsel ∧
    (setbgBody s).winbank = s.winbank ∧ (setbgBody s).wintile = s.wintile ∧ (setbgBody s).bgvalid = true ∧
    (setbgBody s).bgref = s.arg ∧ (setbgBody s).tbuf = s.tbuf ∧ (setbgBody s).mosaic = s.mosaic ∧
    (setbgBody s).pxc = s.pxc ∧ (setbgBody s).selr = s.selr ∧ (setbgBody s).nbreq = s.nbreq ∧
    (setbgBody s).lo = s.lo ∧ (setbgBody s).up = s.up ∧ (setbgBody s).idx = s.idx ∧ (setbgBody s).col = s.col ∧
    (setbgBody s).phase = s.phase ∧ (setbgBody s).cfg = s.cfg ∧ (setbgBody s).tiles = s.tiles ∧
    (setbgBody s).palette = s.palette ∧ (setbgBody s).script = s.script ∧ (setbgBody s).rdata = s.rdata ∧
    (setbgBody s).picks = s.picks :=
  by and_intros <;> rfl

@[simp] theorem getbgBody_fields :
    (getbgBody s).inited = s.inited ∧ (getbgBody s).nb = s.nb ∧ (getbgBody s).busy = s.busy ∧
    (getbgBody s).fault = s.fault ∧ (getbgBody s).arg = s.arg ∧
    (getbgBody s).result = (if s.bgvalid then s.bgref else 0#32) ∧ (getbgBody s).fcause = s.fcause ∧
    (getbgBody s).finfo = s.finfo ∧ (getbgBody s).winsel = s.winsel ∧ (getbgBody s).winbank = s.winbank ∧
    (getbgBody s).wintile = s.wintile ∧ (getbgBody s).bgvalid = s.bgvalid ∧ (getbgBody s).bgref = s.bgref ∧
    (getbgBody s).tbuf = s.tbuf ∧ (getbgBody s).mosaic = s.mosaic ∧ (getbgBody s).pxc = s.pxc ∧
    (getbgBody s).selr = s.selr ∧ (getbgBody s).nbreq = s.nbreq ∧ (getbgBody s).lo = s.lo ∧
    (getbgBody s).up = s.up ∧ (getbgBody s).idx = s.idx ∧ (getbgBody s).col = s.col ∧
    (getbgBody s).phase = s.phase ∧ (getbgBody s).cfg = s.cfg ∧ (getbgBody s).tiles = s.tiles ∧
    (getbgBody s).palette = s.palette ∧ (getbgBody s).script = s.script ∧ (getbgBody s).rdata = s.rdata ∧
    (getbgBody s).picks = s.picks :=
  by and_intros <;> rfl

@[simp] theorem latchDecode_fields (mode : Mode) (sel : Byte) :
    (latchDecode mode sel s).inited = s.inited ∧ (latchDecode mode sel s).nb = s.nb ∧
    (latchDecode mode sel s).busy = s.busy ∧ (latchDecode mode sel s).fault = s.fault ∧
    (latchDecode mode sel s).arg = s.arg ∧ (latchDecode mode sel s).result = s.result ∧
    (latchDecode mode sel s).fcause = s.fcause ∧ (latchDecode mode sel s).finfo = s.finfo ∧
    (latchDecode mode sel s).winsel = s.winsel ∧ (latchDecode mode sel s).winbank = s.winbank ∧
    (latchDecode mode sel s).wintile = s.wintile ∧ (latchDecode mode sel s).bgvalid = s.bgvalid ∧
    (latchDecode mode sel s).bgref = s.bgref ∧ (latchDecode mode sel s).tbuf = s.tbuf ∧
    (latchDecode mode sel s).mosaic = s.mosaic ∧ (latchDecode mode sel s).pxc = s.pxc ∧
    (latchDecode mode sel s).selr = sel ∧ (latchDecode mode sel s).nbreq = banksRequested mode ∧
    (latchDecode mode sel s).lo = s.lo ∧ (latchDecode mode sel s).up = s.up ∧ (latchDecode mode sel s).idx = s.idx ∧
    (latchDecode mode sel s).col = s.col ∧ (latchDecode mode sel s).phase = s.phase ∧
    (latchDecode mode sel s).cfg = s.cfg ∧ (latchDecode mode sel s).tiles = s.tiles ∧
    (latchDecode mode sel s).palette = s.palette ∧ (latchDecode mode sel s).script = s.script ∧
    (latchDecode mode sel s).rdata = s.rdata ∧ (latchDecode mode sel s).picks = s.picks :=
  by and_intros <;> rfl

@[simp] theorem finish_fields :
    (finish s).inited = s.inited ∧ (finish s).nb = s.nb ∧ (finish s).busy = false ∧ (finish s).fault = s.fault ∧
    (finish s).arg = s.arg ∧ (finish s).result = s.result ∧ (finish s).fcause = s.fcause ∧
    (finish s).finfo = s.finfo ∧ (finish s).winsel = s.winsel ∧ (finish s).winbank = s.winbank ∧
    (finish s).wintile = s.wintile ∧ (finish s).bgvalid = s.bgvalid ∧ (finish s).bgref = s.bgref ∧
    (finish s).tbuf = s.tbuf ∧ (finish s).mosaic = s.mosaic ∧ (finish s).pxc = s.pxc ∧ (finish s).selr = s.selr ∧
    (finish s).nbreq = s.nbreq ∧ (finish s).lo = s.lo ∧ (finish s).up = s.up ∧ (finish s).idx = s.idx ∧
    (finish s).col = s.col ∧ (finish s).phase = .idle ∧ (finish s).cfg = s.cfg ∧ (finish s).tiles = s.tiles ∧
    (finish s).palette = s.palette ∧ (finish s).script = s.script ∧ (finish s).rdata = s.rdata ∧
    (finish s).picks = s.picks :=
  by and_intros <;> rfl

@[simp] theorem answer_fields (v : Word) :
    (answer v s).inited = s.inited ∧ (answer v s).nb = s.nb ∧ (answer v s).busy = s.busy ∧
    (answer v s).fault = s.fault ∧ (answer v s).arg = s.arg ∧ (answer v s).result = s.result ∧
    (answer v s).fcause = s.fcause ∧ (answer v s).finfo = s.finfo ∧ (answer v s).winsel = s.winsel ∧
    (answer v s).winbank = s.winbank ∧ (answer v s).wintile = s.wintile ∧ (answer v s).bgvalid = s.bgvalid ∧
    (answer v s).bgref = s.bgref ∧ (answer v s).tbuf = s.tbuf ∧ (answer v s).mosaic = s.mosaic ∧
    (answer v s).pxc = s.pxc ∧ (answer v s).selr = s.selr ∧ (answer v s).nbreq = s.nbreq ∧ (answer v s).lo = s.lo ∧
    (answer v s).up = s.up ∧ (answer v s).idx = s.idx ∧ (answer v s).col = s.col ∧ (answer v s).phase = s.phase ∧
    (answer v s).cfg = s.cfg ∧ (answer v s).tiles = s.tiles ∧ (answer v s).palette = s.palette ∧
    (answer v s).script = s.script ∧ (answer v s).rdata = v ∧ (answer v s).picks = s.picks :=
  by and_intros <;> rfl

@[simp] theorem storeTileByte_fields (b : BitVec 1) (off : BitVec 13) (v : Byte) :
    (storeTileByte b off v s).inited = s.inited ∧ (storeTileByte b off v s).nb = s.nb ∧
    (storeTileByte b off v s).busy = s.busy ∧ (storeTileByte b off v s).fault = s.fault ∧
    (storeTileByte b off v s).arg = s.arg ∧ (storeTileByte b off v s).result = s.result ∧
    (storeTileByte b off v s).fcause = s.fcause ∧ (storeTileByte b off v s).finfo = s.finfo ∧
    (storeTileByte b off v s).winsel = s.winsel ∧ (storeTileByte b off v s).winbank = s.winbank ∧
    (storeTileByte b off v s).wintile = s.wintile ∧ (storeTileByte b off v s).bgvalid = s.bgvalid ∧
    (storeTileByte b off v s).bgref = s.bgref ∧ (storeTileByte b off v s).tbuf = s.tbuf ∧
    (storeTileByte b off v s).mosaic = s.mosaic ∧ (storeTileByte b off v s).pxc = s.pxc ∧
    (storeTileByte b off v s).selr = s.selr ∧ (storeTileByte b off v s).nbreq = s.nbreq ∧
    (storeTileByte b off v s).lo = s.lo ∧ (storeTileByte b off v s).up = s.up ∧
    (storeTileByte b off v s).idx = s.idx ∧ (storeTileByte b off v s).col = s.col ∧
    (storeTileByte b off v s).phase = s.phase ∧ (storeTileByte b off v s).cfg = s.cfg ∧
    (storeTileByte b off v s).tiles = Cells.insert (tileKey b.toNat off.toNat) v s.tiles ∧
    (storeTileByte b off v s).palette = s.palette ∧ (storeTileByte b off v s).script = s.script ∧
    (storeTileByte b off v s).rdata = s.rdata ∧ (storeTileByte b off v s).picks = s.picks :=
  by and_intros <;> rfl

@[simp] theorem setResolver_fields (sel : Byte) (i : BitVec 2) (a : Option Rgb) :
    (setResolver sel i a s).inited = s.inited ∧ (setResolver sel i a s).nb = s.nb ∧
    (setResolver sel i a s).busy = s.busy ∧ (setResolver sel i a s).fault = s.fault ∧
    (setResolver sel i a s).arg = s.arg ∧ (setResolver sel i a s).result = s.result ∧
    (setResolver sel i a s).fcause = s.fcause ∧ (setResolver sel i a s).finfo = s.finfo ∧
    (setResolver sel i a s).winsel = s.winsel ∧ (setResolver sel i a s).winbank = s.winbank ∧
    (setResolver sel i a s).wintile = s.wintile ∧ (setResolver sel i a s).bgvalid = s.bgvalid ∧
    (setResolver sel i a s).bgref = s.bgref ∧ (setResolver sel i a s).tbuf = s.tbuf ∧
    (setResolver sel i a s).mosaic = s.mosaic ∧ (setResolver sel i a s).pxc = s.pxc ∧
    (setResolver sel i a s).selr = s.selr ∧ (setResolver sel i a s).nbreq = s.nbreq ∧
    (setResolver sel i a s).lo = s.lo ∧ (setResolver sel i a s).up = s.up ∧ (setResolver sel i a s).idx = s.idx ∧
    (setResolver sel i a s).col = s.col ∧ (setResolver sel i a s).phase = s.phase ∧
    (setResolver sel i a s).cfg = s.cfg ∧ (setResolver sel i a s).tiles = s.tiles ∧
    (setResolver sel i a s).palette = Cells.set (sel.toNat * 4 + i.toNat) a s.palette ∧
    (setResolver sel i a s).script = s.script ∧ (setResolver sel i a s).rdata = s.rdata ∧
    (setResolver sel i a s).picks = s.picks :=
  by and_intros <;> rfl

@[simp] theorem resetEvent_fields :
    (resetEvent s).inited = State.reset.inited ∧ (resetEvent s).nb = State.reset.nb ∧
    (resetEvent s).busy = State.reset.busy ∧ (resetEvent s).fault = State.reset.fault ∧
    (resetEvent s).arg = State.reset.arg ∧ (resetEvent s).result = State.reset.result ∧
    (resetEvent s).fcause = State.reset.fcause ∧ (resetEvent s).finfo = State.reset.finfo ∧
    (resetEvent s).winsel = State.reset.winsel ∧ (resetEvent s).winbank = State.reset.winbank ∧
    (resetEvent s).wintile = State.reset.wintile ∧ (resetEvent s).bgvalid = State.reset.bgvalid ∧
    (resetEvent s).bgref = State.reset.bgref ∧ (resetEvent s).tbuf = State.reset.tbuf ∧
    (resetEvent s).mosaic = State.reset.mosaic ∧ (resetEvent s).pxc = State.reset.pxc ∧
    (resetEvent s).selr = State.reset.selr ∧ (resetEvent s).nbreq = State.reset.nbreq ∧
    (resetEvent s).lo = State.reset.lo ∧ (resetEvent s).up = State.reset.up ∧ (resetEvent s).idx = State.reset.idx ∧
    (resetEvent s).col = State.reset.col ∧ (resetEvent s).phase = State.reset.phase ∧ (resetEvent s).cfg = s.cfg ∧
    (resetEvent s).tiles = s.tiles ∧ (resetEvent s).palette = s.palette ∧ (resetEvent s).script = s.script ∧
    (resetEvent s).rdata = s.rdata ∧ (resetEvent s).picks = s.picks :=
  by and_intros <;> rfl

end Sys2Proof.Machine
end

