-- ==== Sys2Proof/Laws/Ops.lean ====
section
/-! SUPPORT. What each shared operation can do, said once: fault entry, guarded sequencing, acceptance, the pixel
writes and the checks. -/

namespace Sys2Proof.Machine

/-! Fault entry (rules R204, R210). -/

theorem raise_of_fault {s : State} (h : s.fault = true) (c : Cause) (info : Word) : raise c info s = s := by
  simp [raise, h]

theorem raise_of_ok {s : State} (h : s.fault = false) (c : Cause) (info : Word) :
    raise c info s = faultedFrom c info s := by
  simp [raise, h]

@[simp] theorem raise_fault (c : Cause) (info : Word) (s : State) : (raise c info s).fault = true := by
  unfold raise
  split <;> simp_all

/-- Fault entry touches neither pixel memory, no configuration latch, no operand register and no input. -/
@[simp] theorem raise_fields (c : Cause) (info : Word) (s : State) :
    (raise c info s).inited = s.inited ∧ (raise c info s).nb = s.nb ∧ (raise c info s).arg = s.arg ∧
    (raise c info s).result = s.result ∧ (raise c info s).winsel = s.winsel ∧ (raise c info s).winbank = s.winbank ∧
    (raise c info s).wintile = s.wintile ∧ (raise c info s).bgvalid = s.bgvalid ∧ (raise c info s).bgref = s.bgref ∧
    (raise c info s).tbuf = s.tbuf ∧ (raise c info s).mosaic = s.mosaic ∧ (raise c info s).pxc = s.pxc ∧
    (raise c info s).selr = s.selr ∧ (raise c info s).nbreq = s.nbreq ∧ (raise c info s).lo = s.lo ∧
    (raise c info s).up = s.up ∧ (raise c info s).idx = s.idx ∧ (raise c info s).col = s.col ∧
    (raise c info s).cfg = s.cfg ∧ (raise c info s).tiles = s.tiles ∧ (raise c info s).palette = s.palette ∧
    (raise c info s).script = s.script ∧ (raise c info s).rdata = s.rdata ∧ (raise c info s).picks = s.picks := by
  unfold raise
  split <;> (and_intros <;> rfl)

/-! Sequencing that a fault ends (rules R170, R211). -/

theorem ifOk_of_ok {s : State} (h : s.fault = false) (f : State → State) : ifOk f s = f s := by
  simp [ifOk, h]

theorem ifOk_of_fault {s : State} (h : s.fault = true) (f : State → State) : ifOk f s = s := by
  simp [ifOk, h]

theorem ifOk_preserves {P : State → Prop} {f : State → State} (hf : ∀ s, P s → P (f s)) {s : State} (h : P s) :
    P (ifOk f s) := by
  unfold ifOk
  split
  · exact h
  · exact hf s h

theorem forEach_preserves {α : Type} {P : State → Prop} {f : α → State → State} {as : List α}
    (hf : ∀ a ∈ as, ∀ s, P s → P (f a s)) {s : State} (h : P s) : P (forEach f as s) := by
  induction as generalizing s with
  | nil => exact h
  | cons a as ih =>
    exact ifOk_preserves (fun s hs => ih (fun b hb => hf b (List.mem_cons_of_mem _ hb)) hs)
      (hf a (List.mem_cons_self ..) s h)

theorem forEach_append {α : Type} (f : α → State → State) (as bs : List α) {s : State} (h : s.fault = false) :
    forEach f (as ++ bs) s = ifOk (forEach f bs) (forEach f as s) := by
  induction as generalizing s with
  | nil => simp [forEach, ifOk, h]
  | cons a as ih =>
    simp only [List.cons_append, forEach]
    by_cases hf : (f a s).fault = true
    · simp [ifOk, hf]
    · have hf' : (f a s).fault = false := by simpa using hf
      rw [ifOk_of_ok hf', ifOk_of_ok hf', ih hf']

/-- A counted loop: it reaches its end with the invariant advanced to `n`, or one turn faults from a state that has
it at that turn. -/
theorem forEach_range {I : Nat → State → Prop} {Q : State → Prop} {f : Nat → State → State} (n : Nat)
    (hturn : ∀ k s, k < n → s.fault = false → I k s →
      ((f k s).fault = false ∧ I (k + 1) (f k s)) ∨ ((f k s).fault = true ∧ Q (f k s)))
    {s : State} (hs : s.fault = false) (h0 : I 0 s) :
    ((forEach f (List.range n) s).fault = false ∧ I n (forEach f (List.range n) s)) ∨
    ((forEach f (List.range n) s).fault = true ∧ Q (forEach f (List.range n) s)) := by
  induction n with
  | zero => exact .inl ⟨hs, h0⟩
  | succ n ih =>
    rw [List.range_succ, forEach_append f _ _ hs]
    rcases ih (fun k s hk => hturn k s (by omega)) with ⟨hf, hI⟩ | ⟨hf, hQ⟩
    · rw [ifOk_of_ok hf]
      simp only [forEach]
      rcases hturn n _ (by omega) hf hI with ⟨hf', hI'⟩ | ⟨hf', hQ⟩
      · rw [ifOk_of_ok hf']
        exact .inl ⟨hf', hI'⟩
      · rw [ifOk_of_fault hf']
        exact .inr ⟨hf', hQ⟩
    · rw [ifOk_of_fault hf]
      exact .inr ⟨hf, hQ⟩

/-! Acceptance (rule R130), in the order of rule R203. -/

/-- Everything a command issued as one transition can do. -/
theorem perform_cases (w : Word) (needsInit : Bool) (body : State → State) (s : State) :
    (s.fault = true ∧ perform w needsInit body s = s) ∨
    (s.fault = false ∧ s.busy = true ∧ perform w needsInit body s = faultedFrom .cmdOverlap w s) ∨
    (s.idle ∧ needsInit = true ∧ s.inited = false ∧ perform w needsInit body s = faultedFrom .notInit w s) ∨
    (s.idle ∧ (needsInit = true → s.inited = true) ∧
      perform w needsInit body s = complete (body { s with busy := true })) := by
  unfold perform accept
  cases hf : s.fault <;> cases hb : s.busy <;> cases hn : needsInit <;> cases hi : s.inited <;>
    simp [State.idle, hf, hb, raise]

theorem perform_of_idle {w : Word} {needsInit : Bool} {body : State → State} {s : State} (h : s.idle)
    (hi : needsInit = true → s.inited = true) :
    perform w needsInit body s = complete (body { s with busy := true }) := by
  obtain ⟨hf, hb⟩ := h
  unfold perform accept
  cases needsInit <;> simp_all

theorem complete_of_ok {s : State} (h : s.fault = false) : complete s = { s with busy := false } := by
  simp [complete, ifOk, h]

theorem complete_of_fault {s : State} (h : s.fault = true) : complete s = s := by
  simp [complete, ifOk, h]

/-- Completion changes nothing but `BUSY`. -/
theorem complete_eq (s : State) : complete s = { s with busy := (complete s).busy } := by
  unfold complete ifOk
  split <;> rfl

/-! The pixel writes (rule R140). -/

theorem tbufAt_writeTbuf (i j : Nat) (c : Word) (s : State) :
    (writeTbuf i c s).tbufAt j = if i = j then c else s.tbufAt j := by
  unfold State.tbufAt
  simp only [writeTbuf_fields]
  exact Cells.get_put _ _ _ _ _ _ fun _ => rfl

theorem mosaicAt_writeMosaic (i j : Nat) (c : Word) (s : State) :
    (writeMosaic i c s).mosaicAt j = if i = j then c else s.mosaicAt j := by
  unfold State.mosaicAt
  simp only [writeMosaic_fields]
  exact Cells.get_put _ _ _ _ _ _ fun h => by rw [h]

@[simp] theorem mosaicAt_writeTbuf (i j : Nat) (c : Word) (s : State) :
    (writeTbuf i c s).mosaicAt j = s.mosaicAt j := rfl

@[simp] theorem tbufAt_writeMosaic (i j : Nat) (c : Word) (s : State) :
    (writeMosaic i c s).tbufAt j = s.tbufAt j := rfl

theorem tbufAt_setPixel (b t y x j : Nat) (c : Word) (s : State) :
    (setPixel b t y x c s).tbufAt j = if tbufIndex b t y x = j then c else s.tbufAt j := by
  unfold setPixel
  rw [tbufAt_writeMosaic, tbufAt_writeTbuf]

theorem mosaicAt_setPixel (b t y x j : Nat) (c : Word) (s : State) :
    (setPixel b t y x c s).mosaicAt j = if pixelKey s.cfg b t y x = j then c else s.mosaicAt j := by
  unfold setPixel
  rw [mosaicAt_writeMosaic, mosaicAt_writeTbuf]

/-- A pixel write changes the two pixel memories and nothing else. -/
theorem setPixel_frame (b t y x : Nat) (c : Word) (s : State) :
    setPixel b t y x c s =
      { s with tbuf := (setPixel b t y x c s).tbuf, mosaic := (setPixel b t y x c s).mosaic } := rfl

/-- A write inside the layout keeps `TBUF` canonical. -/
theorem tbufWf_writeTbuf {i : Nat} {c : Word} {s : State} (h : s.tbufWf) (hi : i < tbufSize s.nb) :
    (writeTbuf i c s).tbufWf := by
  refine ⟨Cells.sorted_put h.1, fun e he => ?_⟩
  rcases Cells.mem_put he with ⟨rfl, hv⟩ | he
  · exact ⟨hi, hv⟩
  · exact h.2 e he

/-- A write inside the layout keeps `MOSAIC` canonical. -/
theorem mosaicWf_writeMosaic {i : Nat} {c : Word} {s : State} (h : s.mosaicWf) (hi : inMosaic s.cfg s.nb i = true) :
    (writeMosaic i c s).mosaicWf := by
  refine ⟨Cells.sorted_put h.1, fun e he => ?_⟩
  rcases Cells.mem_put he with ⟨rfl, hv⟩ | he
  · exact ⟨hi, hv⟩
  · exact h.2 e he

/-! The new layout of a completed `INIT` (rules R21, R31, R32). -/

theorem tbufAt_relayout (n : BitVec 2) {i : Nat} (s : State) (h : i < tbufSize n) :
    (relayout n s).tbufAt i = s.tbufAt i := by
  unfold State.tbufAt Cells.get
  simp only [relayout_fields, Cells.find_keep]
  rw [if_pos (by simpa using h)]

theorem mosaicAt_relayout (n : BitVec 2) {k : Nat} (s : State) (h : inMosaic s.cfg n k = true) :
    (relayout n s).mosaicAt k = s.mosaicAt k := by
  unfold State.mosaicAt Cells.get
  simp only [relayout_fields, Cells.find_keep]
  rw [if_pos h]

/-- The new layout's memories are canonical if the old one's were. -/
theorem memWf_relayout (n : BitVec 2) {s : State} (h : s.memWf) : (relayout n s).memWf := by
  unfold State.memWf State.tbufWf State.mosaicWf
  simp only [relayout_fields]
  refine ⟨h.1, h.2.1, ⟨Cells.sorted_keep h.2.2.1.1, fun e he => ?_⟩, Cells.sorted_keep h.2.2.2.1, fun e he => ?_⟩
  · obtain ⟨h1, h2⟩ := Cells.mem_keep.mp he
    exact ⟨by simpa using h2, (h.2.2.1.2 e h1).2⟩
  · obtain ⟨h1, h2⟩ := Cells.mem_keep.mp he
    exact ⟨h2, (h.2.2.2.2 e h1).2⟩

/-- If no word of the new layout is listed, the new layout is the freshly painted one of the command level. -/
theorem relayout_of_painted (n : BitVec 2) {s : State} (ht : ∀ c ∈ s.tbuf, ¬ c.1 < tbufSize n)
    (hm : ∀ c ∈ s.mosaic, inMosaic s.cfg n c.1 = false) : relayout n s = recreate n s := by
  unfold relayout recreate Cells.keep
  rw [List.filter_eq_nil_iff.mpr fun c hc => by simpa using ht c hc,
    List.filter_eq_nil_iff.mpr fun c hc => by simpa using hm c hc]

/-- A host write to tile memory keeps it canonical. -/
theorem tilesWf_storeTileByte {m : List Host.Cell} (h : tilesWf m) (b : BitVec 1) (off : BitVec 13) (v : Byte) :
    tilesWf (Cells.insert (tileKey b.toNat off.toNat) v m) := by
  refine ⟨Cells.sorted_insert h.1, fun e he => ?_⟩
  rcases Cells.mem_insert he with rfl | he
  · have h1 := b.isLt
    have h2 := off.isLt
    simp only [tileKey]
    omega
  · exact h.2 e he

/-- A change of the resolver keeps it canonical. -/
theorem paletteWf_set {m : Cells Rgb} (h : paletteWf m) (sel : Byte) (i : BitVec 2) (a : Option Rgb) :
    paletteWf (Cells.set (sel.toNat * 4 + i.toNat) a m) := by
  refine ⟨Cells.sorted_set h.1, fun e he => ?_⟩
  rcases Cells.mem_set he with he | he
  · have h1 := sel.isLt
    have h2 := i.isLt
    omega
  · exact h.2 e he

/-! The range checks (rules R141, R144). -/

/-- The checked write's checks: all pass and nothing changes, or one faults with the coordinate. -/
theorem checkPixel_cases (b t y x : Nat) {s : State} (h : s.fault = false) :
    (x < 8 ∧ y < 8 ∧ t < 384 ∧ b < s.nb.toNat ∧ checkPixel b t y x s = s) ∨
    (8 ≤ x ∧ checkPixel b t y x s = faultedFrom .badX (coordInfo b t y x) s) ∨
    (x < 8 ∧ 8 ≤ y ∧ checkPixel b t y x s = faultedFrom .badY (coordInfo b t y x) s) ∨
    (x < 8 ∧ y < 8 ∧ 384 ≤ t ∧ checkPixel b t y x s = faultedFrom .badTile (coordInfo b t y x) s) ∨
    (x < 8 ∧ y < 8 ∧ t < 384 ∧ s.nb.toNat ≤ b ∧
      checkPixel b t y x s = faultedFrom .badBank (coordInfo b t y x) s) := by
  unfold checkPixel
  simp only [raise_of_ok h]
  split
  · exact .inr (.inl ⟨‹_›, rfl⟩)
  · split
    · exact .inr (.inr (.inl ⟨by omega, ‹_›, rfl⟩))
    · split
      · exact .inr (.inr (.inr (.inl ⟨by omega, by omega, ‹_›, rfl⟩)))
      · split
        · exact .inr (.inr (.inr (.inr ⟨by omega, by omega, by omega, ‹_›, rfl⟩)))
        · exact .inl ⟨by omega, by omega, by omega, by omega, rfl⟩

/-- `TSNAP`'s checks: all pass and nothing changes, or one faults with the coordinate. -/
theorem checkTile_cases (b t : Nat) {s : State} (h : s.fault = false) :
    (t < 384 ∧ b < s.nb.toNat ∧ checkTile b t s = s) ∨
    (384 ≤ t ∧ checkTile b t s = faultedFrom .badTile (coordInfo b t 0 0) s) ∨
    (t < 384 ∧ s.nb.toNat ≤ b ∧ checkTile b t s = faultedFrom .badBank (coordInfo b t 0 0) s) := by
  unfold checkTile
  simp only [raise_of_ok h]
  split
  · exact .inr (.inl ⟨‹_›, rfl⟩)
  · split
    · exact .inr (.inr ⟨by omega, ‹_›, rfl⟩)
    · exact .inl ⟨by omega, by omega, rfl⟩

/-- The bank-count check: passes for 1 and 2, faults for 0 and 3 (rule R131). -/
theorem checkBankcount_cases (n : BitVec 2) {s : State} (h : s.fault = false) :
    ((n = 1#2 ∨ n = 2#2) ∧ checkBankcount n s = s) ∨
    (n ≠ 1#2 ∧ n ≠ 2#2 ∧ checkBankcount n s = faultedFrom .badBankcount (encode (.init n)) s) := by
  unfold checkBankcount
  simp only [raise_of_ok h]
  split
  · rename_i hn
    exact .inr ⟨hn.1, hn.2, rfl⟩
  · rename_i hn
    exact .inl ⟨by tauto, rfl⟩

end Sys2Proof.Machine
end

