-- ==== Sys2Proof/Laws/Pass.lean ====
section
/-! SUPPORT. What the accesses, one pixel and one row fetch of a `DECODE` pass can do, each said once. -/

namespace Sys2Proof.Machine

/-- `PXC` holds every coordinate of a bank that exists (rule R26). -/
theorem pxc_of {b t y x : Nat} (hb : b < 2) (ht : t < 384) (hy : y < 8) (hx : x < 8) :
    (Pxc.of b t y x).b.toNat = b ∧ (Pxc.of b t y x).t.toNat = t ∧ (Pxc.of b t y x).y.toNat = y ∧
      (Pxc.of b t y x).x.toNat = x := by
  simp only [Pxc.of, BitVec.toNat_ofNat]
  omega

/-! The accesses, at whatever pixel `PXC` names. -/

theorem readLower_cases {s : State} (h : s.fault = false) :
    (∃ v, s.tileByte s.pxc.b.toNat s.pxc.rowOffset = some v ∧ readLower s = { s with lo := v }) ∨
    (s.tileByte s.pxc.b.toNat s.pxc.rowOffset = none ∧
      readLower s = faultedFrom .tilememErr (tileInfo s.pxc.b.toNat s.pxc.rowOffset) s) := by
  unfold readLower
  rw [raise_of_ok h]
  split
  · exact .inl ⟨_, ‹_›, rfl⟩
  · exact .inr ⟨‹_›, rfl⟩

theorem readUpper_cases {s : State} (h : s.fault = false) :
    (∃ v, s.tileByte s.pxc.b.toNat (s.pxc.rowOffset + 1) = some v ∧ readUpper s = { s with up := v }) ∨
    (s.tileByte s.pxc.b.toNat (s.pxc.rowOffset + 1) = none ∧
      readUpper s = faultedFrom .tilememErr (tileInfo s.pxc.b.toNat (s.pxc.rowOffset + 1)) s) := by
  unfold readUpper
  rw [raise_of_ok h]
  split
  · exact .inl ⟨_, ‹_›, rfl⟩
  · exact .inr ⟨‹_›, rfl⟩

theorem resolvePixel_cases {s : State} (h : s.fault = false) :
    (∃ c, s.resolve s.selr (colourIndex s.lo s.up s.pxc.x.toNat) = some c ∧
      resolvePixel s = { s with idx := colourIndex s.lo s.up s.pxc.x.toNat, col := opaqueColour c }) ∨
    (s.resolve s.selr (colourIndex s.lo s.up s.pxc.x.toNat) = none ∧
      resolvePixel s =
        faultedFrom .badColor s.pxc.info { s with idx := colourIndex s.lo s.up s.pxc.x.toNat }) := by
  unfold resolvePixel
  simp only
  rw [raise_of_ok (s := { s with idx := colourIndex s.lo s.up s.pxc.x.toNat }) h]
  split
  · exact .inl ⟨_, ‹_›, rfl⟩
  · exact .inr ⟨‹_›, rfl⟩

/-- The state in which a pixel's checks are made: `PXC`, `IDX` and `COL` are latched. -/
abbrev pixelLatched (b t y x : Nat) (c : Rgb) (s : State) : State :=
  { s with pxc := Pxc.of b t y x, idx := colourIndex s.lo s.up x, col := opaqueColour c }

/-- One pixel of a pass: written to both memories, or `BAD_COLOR`, or `BAD_BANK` (rules R160, R166, R168, R203). -/
theorem decodePixel_cases {b t y x : Nat} (hb : b < 2) (ht : t < 384) (hy : y < 8) (hx : x < 8) {s : State}
    (h : s.fault = false) :
    (∃ c, s.resolve s.selr (colourIndex s.lo s.up x) = some c ∧ b < s.nb.toNat ∧
      decodePixel b t y x s = setPixel b t y x (opaqueColour c) (pixelLatched b t y x c s)) ∨
    (s.resolve s.selr (colourIndex s.lo s.up x) = none ∧
      decodePixel b t y x s = faultedFrom .badColor (coordInfo b t y x)
        { s with pxc := Pxc.of b t y x, idx := colourIndex s.lo s.up x }) ∨
    (∃ c, s.resolve s.selr (colourIndex s.lo s.up x) = some c ∧ s.nb.toNat ≤ b ∧
      decodePixel b t y x s = faultedFrom .badBank (coordInfo b t y x) (pixelLatched b t y x c s)) := by
  obtain ⟨eb, et, ey, ex⟩ := pxc_of hb ht hy hx
  unfold decodePixel
  rcases resolvePixel_cases (s := { s with pxc := Pxc.of b t y x }) h with ⟨c, hr, e⟩ | ⟨hr, e⟩
  · simp only [ex] at hr e
    rw [e, ifOk_of_ok (s := pixelLatched b t y x c s) h]
    unfold checkAtPxc
    simp only [eb, et, ey, ex]
    rcases checkPixel_cases b t y x (s := pixelLatched b t y x c s) h with
      ⟨-, -, -, hn, e⟩ | ⟨hx', -⟩ | ⟨-, hy', -⟩ | ⟨-, -, ht', -⟩ | ⟨-, -, -, hn, e⟩
    · refine .inl ⟨c, hr, hn, ?_⟩
      rw [e, ifOk_of_ok (s := pixelLatched b t y x c s) h]
      unfold writeMosaicAtPxc writeTbufAtPxc setPixel
      simp only [writeTbuf_fields, eb, et, ey, ex]
    · omega
    · omega
    · omega
    · refine .inr (.inr ⟨c, hr, hn, ?_⟩)
      rw [e, ifOk_of_fault rfl]
  · simp only [ex, Pxc.info, eb, et, ey] at hr e
    refine .inr (.inl ⟨hr, ?_⟩)
    rw [e, ifOk_of_fault (s := faultedFrom _ _ _) rfl, ifOk_of_fault rfl]

/-- The row fetch of a pass: both bytes latched, or `TILEMEM_ERR` at the first that is absent (rules R62, R163). -/
theorem rowFetch_cases {b t y : Nat} (hb : b < 2) (ht : t < 384) (hy : y < 8) {s : State} (h : s.fault = false) :
    (∃ lo up, s.tileByte b (16 * t + 2 * y) = some lo ∧ s.tileByte b (16 * t + 2 * y + 1) = some up ∧
      ifOk readUpper (readLower { s with pxc := Pxc.of b t y 0 }) =
        { s with pxc := Pxc.of b t y 0, lo := lo, up := up }) ∨
    (s.tileByte b (16 * t + 2 * y) = none ∧
      ifOk readUpper (readLower { s with pxc := Pxc.of b t y 0 }) =
        faultedFrom .tilememErr (tileInfo b (16 * t + 2 * y)) { s with pxc := Pxc.of b t y 0 }) ∨
    (∃ lo, s.tileByte b (16 * t + 2 * y) = some lo ∧ s.tileByte b (16 * t + 2 * y + 1) = none ∧
      ifOk readUpper (readLower { s with pxc := Pxc.of b t y 0 }) =
        faultedFrom .tilememErr (tileInfo b (16 * t + 2 * y + 1)) { s with pxc := Pxc.of b t y 0, lo := lo }) := by
  obtain ⟨eb, et, ey, -⟩ := pxc_of hb ht hy (by omega : 0 < 8)
  rcases readLower_cases (s := { s with pxc := Pxc.of b t y 0 }) h with ⟨lo, hl, e⟩ | ⟨hl, e⟩
  · simp only [Pxc.rowOffset, eb, et, ey] at hl e
    rw [e, ifOk_of_ok (s := { s with pxc := Pxc.of b t y 0, lo := lo }) h]
    rcases readUpper_cases (s := { s with pxc := Pxc.of b t y 0, lo := lo }) h with ⟨up, hu, e⟩ | ⟨hu, e⟩
    · simp only [Pxc.rowOffset, eb, et, ey] at hu e
      exact .inl ⟨lo, up, hl, hu, e⟩
    · simp only [Pxc.rowOffset, eb, et, ey] at hu e
      exact .inr (.inr ⟨lo, hl, hu, e⟩)
  · simp only [Pxc.rowOffset, eb, et, ey] at hl e
    refine .inr (.inl ⟨hl, ?_⟩)
    rw [e, ifOk_of_fault rfl]

/-! A whole pass. `s0` is the state with the latches of acceptance set; pixels are counted in the order bank, tile, row,
column, which is the order of `tbufIndex`. -/

/-- Where a pass that has not faulted stands when its first `k` pixels are done. -/
structure PassDone (s0 : State) (k : Nat) (s : State) : Prop where
  frame : s = { s0 with
    tbuf := s.tbuf, mosaic := s.mosaic, pxc := s.pxc, lo := s.lo, up := s.up, idx := s.idx, col := s.col }
  before : ∀ b t y x, t < 384 → y < 8 → x < 8 → tbufIndex b t y x < k →
    b < s0.nb.toNat ∧ s0.decoded s0.selr b t y x = some (s.tbufAt (tbufIndex b t y x)) ∧ s.dualAt b t y x
  after : ∀ i, k ≤ i → s.tbufAt i = s0.tbufAt i
  elsewhere : ∀ j, (∀ b t y x, t < 384 → y < 8 → x < 8 → tbufIndex b t y x < k →
    j ≠ pixelKey s0.cfg b t y x) → s.mosaicAt j = s0.mosaicAt j
  alpha : ∀ i, (s.tbufAt i ≠ s0.tbufAt i → (s.tbufAt i).extractLsb' 0 8 = 0xFF#8) ∧
    (s.mosaicAt i ≠ s0.mosaicAt i → (s.mosaicAt i).extractLsb' 0 8 = 0xFF#8)
  canonical : (s0.tbufWf → s.tbufWf) ∧ (s0.mosaicWf → s.mosaicWf)

/-- How a pass that has faulted in bank `bank` stands, and the check that failed (rules R202, R203, R211). -/
structure PassFault (s0 : State) (bank : Nat) (u : State) : Prop where
  bank_eq : u.pxc.b.toNat = bank
  frame : u = { faultedFrom .badColor 0#32 s0 with
    fcause := u.fcause, finfo := u.finfo, tbuf := u.tbuf, mosaic := u.mosaic
    pxc := u.pxc, lo := u.lo, up := u.up, idx := u.idx, col := u.col }
  range : u.pxc.b.toNat < 2 ∧ u.pxc.t.toNat < 384
  done : ∃ s, PassDone s0 (tbufIndex u.pxc.b.toNat u.pxc.t.toNat u.pxc.y.toNat u.pxc.x.toNat) s ∧
    u.tbuf = s.tbuf ∧ u.mosaic = s.mosaic
  cause :
    let b := u.pxc.b.toNat
    let t := u.pxc.t.toNat
    let y := u.pxc.y.toNat
    let x := u.pxc.x.toNat
    let off := 16 * t + 2 * y
    (x = 0 ∧ s0.tileByte b off = none ∧ u.fcause = 9#8 ∧ u.finfo = tileInfo b off) ∨
    (x = 0 ∧ s0.tileByte b off ≠ none ∧ s0.tileByte b (off + 1) = none ∧ u.fcause = 9#8 ∧
      u.finfo = tileInfo b (off + 1)) ∨
    (∃ lo up, s0.tileByte b off = some lo ∧ s0.tileByte b (off + 1) = some up ∧
      s0.resolve s0.selr (colourIndex lo up x) = none ∧ u.fcause = 10#8 ∧ u.finfo = coordInfo b t y x) ∨
    (s0.decoded s0.selr b t y x ≠ none ∧ s0.nb.toNat ≤ b ∧ u.fcause = 8#8 ∧ u.finfo = coordInfo b t y x)

/-- Rule R167: the alpha byte of an assembled colour. -/
theorem opaqueColour_alpha (c : Rgb) : (opaqueColour c).extractLsb' 0 8 = 0xFF#8 := by
  unfold opaqueColour
  apply BitVec.eq_of_getLsbD_eq
  intro k hk
  simp only [BitVec.getLsbD_extractLsb', BitVec.getLsbD_append]
  interval_cases k <;> simp

/-- The two bytes of row (`b`, `t`, `y`) are latched. -/
def RowLatched (s0 : State) (b t y : Nat) (s : State) : Prop :=
  s0.tileByte b (16 * t + 2 * y) = some s.lo ∧ s0.tileByte b (16 * t + 2 * y + 1) = some s.up

/-- `PXC` and the row latches are at the last pixel of row (`b`, `t`, `y`). -/
def EndsAt (s0 : State) (b t y : Nat) (u : State) : Prop := RowLatched s0 b t y u ∧ u.pxc = Pxc.of b t y 7

/-- One pixel takes the pass one pixel on, or faults there. -/
theorem decodePixel_pass {s0 : State} {b t y x : Nat} (hb : b < 2) (ht : t < 384) (hy : y < 8) (hx : x < 8)
    {s : State} (h : s.fault = false) (hI : PassDone s0 (tbufIndex b t y x) s) (hR : RowLatched s0 b t y s) :
    ((decodePixel b t y x s).fault = false ∧ PassDone s0 (tbufIndex b t y x + 1) (decodePixel b t y x s) ∧
      RowLatched s0 b t y (decodePixel b t y x s) ∧ (decodePixel b t y x s).pxc = Pxc.of b t y x) ∨
    ((decodePixel b t y x s).fault = true ∧ PassFault s0 b (decodePixel b t y x s)) := by
  have efr := hI.frame
  have ecfg : s.cfg = s0.cfg := by rw [efr]
  have enb : s.nb = s0.nb := by rw [efr]
  have eres : ∀ i, s.resolve s.selr i = s0.resolve s0.selr i := fun i => by rw [efr]; rfl
  obtain ⟨eb, et, ey, ex⟩ := pxc_of hb ht hy hx
  have hdec : ∀ c, s.resolve s.selr (colourIndex s.lo s.up x) = some c →
      s0.decoded s0.selr b t y x = some (opaqueColour c) := fun c hr => by
    unfold State.decoded
    rw [hR.1, hR.2]
    simp only
    rw [← eres, hr]
    rfl
  rcases decodePixel_cases hb ht hy hx h with ⟨c, hr, hn, e⟩ | ⟨hr, e⟩ | ⟨c, hr, hn, e⟩
  · left
    rw [e]
    rw [enb] at hn
    generalize hu : setPixel b t y x (opaqueColour c) (pixelLatched b t y x c s) = u
    have tb : ∀ j, u.tbufAt j = if tbufIndex b t y x = j then opaqueColour c else s.tbufAt j := fun j => by
      rw [← hu]
      exact tbufAt_setPixel ..
    have mo : ∀ j, u.mosaicAt j =
        if pixelKey s0.cfg b t y x = j then opaqueColour c else s.mosaicAt j := fun j => by
      rw [← hu, ← ecfg]
      exact mosaicAt_setPixel ..
    have ucfg : u.cfg = s0.cfg := by rw [← hu, ← ecfg]; rfl
    refine ⟨by rw [← hu]; exact h, ⟨?_, ?_, ?_, ?_, ?_, ?_⟩, by rw [← hu]; exact hR, by rw [← hu]; rfl⟩
    · have : u = { s with
          tbuf := u.tbuf, mosaic := u.mosaic, pxc := Pxc.of b t y x, idx := colourIndex s.lo s.up x
          col := opaqueColour c } := by rw [← hu]; rfl
      rw [efr] at this
      rw [this]
    · intro b' t' y' x' ht' hy' hx' hlt
      by_cases heq : tbufIndex b' t' y' x' = tbufIndex b t y x
      · obtain ⟨rfl, rfl, rfl, rfl⟩ := tbufIndex_inj ht' hy' hx' ht hy hx heq
        refine ⟨hn, by rw [tb, if_pos rfl]; exact hdec c hr, ?_⟩
        unfold State.dualAt
        rw [tb, if_pos rfl, ucfg, mo, if_pos rfl]
      · obtain ⟨h1, h2, h3⟩ := hI.before b' t' y' x' ht' hy' hx' (by omega)
        refine ⟨h1, by rw [tb, if_neg (Ne.symm heq)]; exact h2, ?_⟩
        unfold State.dualAt at h3 ⊢
        rw [tb, if_neg (Ne.symm heq), ucfg, mo, if_neg, h3, ecfg]
        intro hh
        obtain ⟨rfl, rfl, rfl, rfl⟩ := pixelKey_inj s0.cfg s0.nb hn h1 ht hy hx ht' hy' hx' hh
        exact heq rfl
    · intro i hi
      rw [tb, if_neg (by omega)]
      exact hI.after i (by omega)
    · intro j hj
      rw [mo, if_neg fun hh => hj b t y x ht hy hx (by omega) hh.symm]
      exact hI.elsewhere j fun b' t' y' x' h1 h2 h3 h4 => hj b' t' y' x' h1 h2 h3 (by omega)
    · intro i
      rw [tb, mo]
      constructor
      · split
        · exact fun _ => opaqueColour_alpha c
        · exact (hI.alpha i).1
      · split
        · exact fun _ => opaqueColour_alpha c
        · exact (hI.alpha i).2
    · rw [← hu]
      refine ⟨fun hw => ?_, fun hw => ?_⟩
      · exact tbufWf_writeTbuf (s := pixelLatched b t y x c s) (hI.canonical.1 hw)
          (tbufIndex_lt (by rw [enb]; exact hn) ht hy hx)
      · exact mosaicWf_writeMosaic (s := writeTbuf (tbufIndex b t y x) (opaqueColour c) (pixelLatched b t y x c s))
          (hI.canonical.2 hw) (pixelKey_in s.cfg s.nb (by rw [enb]; exact hn) ht hy hx)
  · right
    rw [e]
    refine ⟨rfl, eb, ?_, ?_, ⟨s, ?_, rfl, rfl⟩, ?_⟩
    · rw [show faultedFrom .badColor (coordInfo b t y x)
          { s with pxc := Pxc.of b t y x, idx := colourIndex s.lo s.up x } =
          { faultedFrom .badColor (coordInfo b t y x) s with
            pxc := Pxc.of b t y x, idx := colourIndex s.lo s.up x } from rfl]
      rw [efr]
    · simp only [eb, et]
      omega
    · simp only [eb, et, ey, ex]
      exact hI
    · simp only [eb, et, ey, ex]
      exact .inr (.inr (.inl ⟨s.lo, s.up, hR.1, hR.2, by rw [← eres, hr], rfl, trivial⟩))
  · right
    rw [e]
    refine ⟨rfl, eb, ?_, ?_, ⟨s, ?_, rfl, rfl⟩, ?_⟩
    · rw [show faultedFrom .badBank (coordInfo b t y x) (pixelLatched b t y x c s) =
          { faultedFrom .badBank (coordInfo b t y x) s with
            pxc := Pxc.of b t y x, idx := colourIndex s.lo s.up x, col := opaqueColour c } from rfl]
      rw [efr]
    · simp only [eb, et]
      omega
    · simp only [eb, et, ey, ex]
      exact hI
    · simp only [eb, et, ey, ex]
      exact .inr (.inr (.inr ⟨by rw [hdec c hr]; simp, by rw [← enb]; exact hn, rfl, trivial⟩))

/-- One row takes the pass one row on, or faults in it. -/
theorem decodeRow_pass {s0 : State} {b t y : Nat} (hb : b < 2) (ht : t < 384) (hy : y < 8) {s : State}
    (h : s.fault = false) (hI : PassDone s0 (tbufIndex b t y 0) s) :
    ((decodeRow b t y s).fault = false ∧ PassDone s0 (tbufIndex b t (y + 1) 0) (decodeRow b t y s) ∧
      EndsAt s0 b t y (decodeRow b t y s)) ∨
    ((decodeRow b t y s).fault = true ∧ PassFault s0 b (decodeRow b t y s)) := by
  have efr := hI.frame
  have etb : ∀ o, s.tileByte b o = s0.tileByte b o := fun o => by rw [efr]; rfl
  obtain ⟨eb, et, ey, ex⟩ := pxc_of hb ht hy (by omega : 0 < 8)
  unfold decodeRow
  rcases rowFetch_cases hb ht hy h with ⟨lo, up, h1, h2, e⟩ | ⟨h1, e⟩ | ⟨lo, h1, h2, e⟩
  · rw [e, ifOk_of_ok (s := { s with pxc := Pxc.of b t y 0, lo := lo, up := up }) h]
    rcases forEach_range (Q := PassFault s0 b) (f := decodePixel b t y)
        (I := fun k u => PassDone s0 (tbufIndex b t y k) u ∧ RowLatched s0 b t y u ∧
          (k ≠ 0 → u.pxc = Pxc.of b t y (k - 1))) 8
        (fun k u hk hf ⟨hu, hR, _⟩ => by
          rcases decodePixel_pass hb ht hy hk hf hu hR with ⟨a1, a2, a3, a4⟩ | a
          · exact .inl ⟨a1, a2, a3, fun _ => a4⟩
          · exact .inr a)
        (s := { s with pxc := Pxc.of b t y 0, lo := lo, up := up }) h
        ⟨⟨by rw [efr], hI.before, hI.after, hI.elsewhere, hI.alpha, hI.canonical⟩, ⟨by rw [← etb, h1], by rw [← etb, h2]⟩,
          fun hh => absurd rfl hh⟩ with ⟨a, b1, b2, b3⟩ | a
    · rw [show tbufIndex b t y 8 = tbufIndex b t (y + 1) 0 by unfold tbufIndex; omega] at b1
      exact .inl ⟨a, b1, b2, b3 (by omega)⟩
    · exact .inr a
  · rw [e, ifOk_of_fault rfl]
    refine .inr ⟨rfl, eb, by rw [efr], ?_, ⟨s, ?_, rfl, rfl⟩, ?_⟩
    · simp only [eb, et]
      omega
    · simp only [eb, et, ey, ex]
      exact hI
    · simp only [eb, et, ey, ex]
      exact .inl ⟨trivial, by rw [← etb, h1], rfl, trivial⟩
  · rw [e, ifOk_of_fault rfl]
    refine .inr ⟨rfl, eb, by rw [efr], ?_, ⟨s, ?_, rfl, rfl⟩, ?_⟩
    · simp only [eb, et]
      omega
    · simp only [eb, et, ey, ex]
      exact hI
    · simp only [eb, et, ey, ex]
      exact .inr (.inl ⟨trivial, by rw [← etb, h1]; simp, by rw [← etb, h2], rfl, trivial⟩)

/-- One tile takes the pass one tile on, or faults in it. -/
theorem decodeTile_pass {s0 : State} {b t : Nat} (hb : b < 2) (ht : t < 384) {s : State} (h : s.fault = false)
    (hI : PassDone s0 (tbufIndex b t 0 0) s) :
    ((decodeTile b t s).fault = false ∧ PassDone s0 (tbufIndex b (t + 1) 0 0) (decodeTile b t s) ∧
      EndsAt s0 b t 7 (decodeTile b t s)) ∨
    ((decodeTile b t s).fault = true ∧ PassFault s0 b (decodeTile b t s)) := by
  unfold decodeTile
  rcases forEach_range (Q := PassFault s0 b) (f := decodeRow b t)
      (I := fun k u => PassDone s0 (tbufIndex b t k 0) u ∧ (k ≠ 0 → EndsAt s0 b t (k - 1) u)) 8
      (fun k u hk hf ⟨hu, _⟩ => by
        rcases decodeRow_pass hb ht hk hf hu with ⟨a1, a2, a3⟩ | a
        · exact .inl ⟨a1, a2, fun _ => a3⟩
        · exact .inr a)
      h ⟨hI, fun hh => absurd rfl hh⟩ with ⟨a, b1, b2⟩ | a
  · rw [show tbufIndex b t 8 0 = tbufIndex b (t + 1) 0 0 by unfold tbufIndex; omega] at b1
    exact .inl ⟨a, b1, b2 (by omega)⟩
  · exact .inr a

/-- One bank takes the pass one bank on, or faults in it. -/
theorem decodeBank_pass {s0 : State} {b : Nat} (hb : b < 2) {s : State} (h : s.fault = false)
    (hI : PassDone s0 (tbufIndex b 0 0 0) s) :
    ((decodeBank b s).fault = false ∧ PassDone s0 (tbufIndex (b + 1) 0 0 0) (decodeBank b s) ∧
      EndsAt s0 b 383 7 (decodeBank b s)) ∨
    ((decodeBank b s).fault = true ∧ PassFault s0 b (decodeBank b s)) := by
  unfold decodeBank
  rcases forEach_range (Q := PassFault s0 b) (f := decodeTile b)
      (I := fun k u => PassDone s0 (tbufIndex b k 0 0) u ∧ (k ≠ 0 → EndsAt s0 b (k - 1) 7 u)) 384
      (fun k u hk hf ⟨hu, _⟩ => by
        rcases decodeTile_pass hb hk hf hu with ⟨a1, a2, a3⟩ | a
        · exact .inl ⟨a1, a2, fun _ => a3⟩
        · exact .inr a)
      h ⟨hI, fun hh => absurd rfl hh⟩ with ⟨a, b1, b2⟩ | a
  · rw [show tbufIndex b 384 0 0 = tbufIndex (b + 1) 0 0 0 by unfold tbufIndex; omega] at b1
    exact .inl ⟨a, b1, b2 (by omega)⟩
  · exact .inr a

theorem banksRequested_toNat (mode : Mode) :
    (banksRequested mode).toNat = 1 ∨ (banksRequested mode).toNat = 2 := by
  cases mode <;> simp [banksRequested]

/-- Everything the rule of `DECODE` can do from an unfaulted state: every pixel of the requested banks, or a precise
fault in one of them. -/
theorem decodeBody_cases (mode : Mode) (sel : Byte) {s : State} (h : s.fault = false) :
    ((decodeBody mode sel s).fault = false ∧
      PassDone (latchDecode mode sel s) ((banksRequested mode).toNat * 24576) (decodeBody mode sel s) ∧
      EndsAt (latchDecode mode sel s) ((banksRequested mode).toNat - 1) 383 7 (decodeBody mode sel s)) ∨
    ((decodeBody mode sel s).fault = true ∧
      ∃ b, b < (banksRequested mode).toNat ∧ PassFault (latchDecode mode sel s) b (decodeBody mode sel s)) := by
  have hn := banksRequested_toNat mode
  unfold decodeBody
  rcases forEach_range (f := decodeBank)
      (Q := fun u => ∃ b, b < (banksRequested mode).toNat ∧ PassFault (latchDecode mode sel s) b u)
      (I := fun k u => PassDone (latchDecode mode sel s) (tbufIndex k 0 0 0) u ∧
        (k ≠ 0 → EndsAt (latchDecode mode sel s) (k - 1) 383 7 u)) (banksRequested mode).toNat
      (fun k u hk hf ⟨hu, _⟩ => by
        rcases decodeBank_pass (by omega : k < 2) hf hu with ⟨a1, a2, a3⟩ | ⟨a, a'⟩
        · exact .inl ⟨a1, a2, fun _ => a3⟩
        · exact .inr ⟨a, k, hk, a'⟩)
      (s := latchDecode mode sel s) h
      ⟨⟨rfl, fun b t y x _ _ _ hh => by unfold tbufIndex at hh; omega, fun _ _ => rfl, fun _ _ => rfl,
        fun i => ⟨fun hh => absurd rfl hh, fun hh => absurd rfl hh⟩, fun hw => hw, fun hw => hw⟩, fun hh => absurd rfl hh⟩
      with ⟨a, b1, b2⟩ | a
  · rw [show tbufIndex (banksRequested mode).toNat 0 0 0 = (banksRequested mode).toNat * 24576 by
      unfold tbufIndex; omega] at b1
    exact .inl ⟨a, b1, b2 (by omega)⟩
  · exact .inr a

end Sys2Proof.Machine
end

