-- ==== Sys2Proof/Laws/Commands.lean ====
section
/-! SUPPORT. What a command issued as one transition can do, said once for all seven: ignored, faulted with nothing else
changed, or its own effect. -/

namespace Sys2Proof.Machine

/-- The effect of an accepted command none of whose own checks failed (a pass may still fault inside). -/
def completes (i : Instr) (s t : State) : Prop :=
  match i with
  | .init n => (n = 1#2 ∨ n = 2#2) ∧ t = finishInit (recreate n s)
  | .decode mode sel => t = complete (decodeBody mode sel { s with busy := true })
  | .setpix bank tile ly lx =>
    lx.toNat < 8 ∧ ly.toNat < 8 ∧ tile.toNat < 384 ∧ bank.toNat < s.nb.toNat ∧
      t = setPixel bank.toNat tile.toNat ly.toNat lx.toNat s.arg s
  | .msnap => t = msnapBody s
  | .tsnap bank tile => tile.toNat < 384 ∧ bank.toNat < s.nb.toNat ∧ t = showTile bank tile s
  | .setbg => t = setbgBody s
  | .getbg => t = getbgBody s

/-- `BUSY` set on acceptance and cleared on completion is as it was (rule R130). -/
theorem busy_restored {s : State} (h : s.busy = false) : { s with busy := false } = s := by
  cases s
  simp only at h
  subst h
  rfl

/-- Every command's outcome (rules R130, R211). -/
theorem exec_cases {i : Instr} {s t : State} (h : exec i s = .next t) :
    (s.fault = true ∧ t = s) ∨ (s.fault = false ∧ ∃ c info, t = faultedFrom c info s) ∨
    (s.idle ∧ (needsInit i = true → s.inited = true) ∧ completes i s t) := by
  have key : ∀ (w : Word) (b : Bool) (body : State → State), perform w b body s = t →
      (s.idle → (b = true → s.inited = true) → complete (body { s with busy := true }) = t →
        (∃ c info, t = faultedFrom c info s) ∨ completes i s t) →
      (b = true → needsInit i = true) → (needsInit i = true → b = true) →
      (s.fault = true ∧ t = s) ∨ (s.fault = false ∧ ∃ c info, t = faultedFrom c info s) ∨
      (s.idle ∧ (needsInit i = true → s.inited = true) ∧ completes i s t) := by
    intro w b body e hb _ hn
    rcases perform_cases w b body s with ⟨hf, e'⟩ | ⟨hf, _, e'⟩ | ⟨hid, _, _, e'⟩ | ⟨hid, hi, e'⟩
    · exact .inl ⟨hf, by rw [← e, e']⟩
    · exact .inr (.inl ⟨hf, _, _, by rw [← e, e']⟩)
    · exact .inr (.inl ⟨hid.1, _, _, by rw [← e, e']⟩)
    · rcases hb hid hi (by rw [← e', e]) with hc | hc
      · exact .inr (.inl ⟨hid.1, hc⟩)
      · exact .inr (.inr ⟨hid, fun h' => hi (hn h'), hc⟩)
  cases i with
  | init n =>
    refine key _ false (initBody n) (Host.Outcome.next.inj h) (fun hid _ e => ?_) nofun nofun
    have hf : ({ s with busy := true } : State).fault = false := hid.1
    unfold initBody at e
    rcases checkBankcount_cases n hf with ⟨hn, e'⟩ | ⟨_, _, e'⟩
    · rw [e', ifOk_of_ok hf, complete_of_ok (by exact hf)] at e
      refine .inr ⟨hn, ?_⟩
      rw [← e]
      exact congrArg (fun s => finishInit (recreate n s)) (busy_restored hid.2)
    · rw [e', ifOk_of_fault rfl, complete_of_fault rfl] at e
      exact .inl ⟨_, _, e.symm⟩
  | decode mode sel =>
    exact key _ true (decodeBody mode sel) (Host.Outcome.next.inj h) (fun _ _ e => .inr e.symm) (fun _ => rfl)
      (fun _ => rfl)
  | setpix bank tile ly lx =>
    refine key _ true _ (Host.Outcome.next.inj h) (fun hid _ e => ?_) (fun _ => rfl) (fun _ => rfl)
    have hf : ({ s with busy := true } : State).fault = false := hid.1
    unfold setPixelChecked at e
    rcases checkPixel_cases bank.toNat tile.toNat ly.toNat lx.toNat hf with
      ⟨hx, hy, ht, hb, e'⟩ | ⟨_, e'⟩ | ⟨_, _, e'⟩ | ⟨_, _, _, e'⟩ | ⟨_, _, _, _, e'⟩
    · rw [e', ifOk_of_ok hf, complete_of_ok (by exact hf)] at e
      refine .inr ⟨hx, hy, ht, hb, ?_⟩
      rw [← e]
      exact congrArg (fun s => setPixel bank.toNat tile.toNat ly.toNat lx.toNat s.arg s) (busy_restored hid.2)
    all_goals
      rw [e', ifOk_of_fault rfl, complete_of_fault rfl] at e
      exact .inl ⟨_, _, e.symm⟩
  | msnap =>
    refine key _ true msnapBody (Host.Outcome.next.inj h) (fun hid _ e => ?_) (fun _ => rfl) (fun _ => rfl)
    rw [complete_of_ok (by exact hid.1)] at e
    refine .inr ?_
    rw [completes, ← e]
    exact congrArg msnapBody (busy_restored hid.2)
  | tsnap bank tile =>
    refine key _ true _ (Host.Outcome.next.inj h) (fun hid _ e => ?_) (fun _ => rfl) (fun _ => rfl)
    have hf : ({ s with busy := true } : State).fault = false := hid.1
    rcases checkTile_cases bank.toNat tile.toNat hf with ⟨ht, hb, e'⟩ | ⟨_, e'⟩ | ⟨_, _, e'⟩
    · rw [e', ifOk_of_ok hf, complete_of_ok (by exact hf)] at e
      refine .inr ⟨ht, hb, ?_⟩
      rw [← e]
      exact congrArg (showTile bank tile) (busy_restored hid.2)
    all_goals
      rw [e', ifOk_of_fault rfl, complete_of_fault rfl] at e
      exact .inl ⟨_, _, e.symm⟩
  | setbg =>
    refine key _ false setbgBody (Host.Outcome.next.inj h) (fun hid _ e => ?_) nofun nofun
    rw [complete_of_ok (by exact hid.1)] at e
    refine .inr ?_
    rw [completes, ← e]
    exact congrArg setbgBody (busy_restored hid.2)
  | getbg =>
    refine key _ false getbgBody (Host.Outcome.next.inj h) (fun hid _ e => ?_) nofun nofun
    rw [complete_of_ok (by exact hid.1)] at e
    refine .inr ?_
    rw [completes, ← e]
    exact congrArg getbgBody (busy_restored hid.2)

/-- Every command has a next state, from every state. -/
theorem exec_next (i : Instr) (s : State) : ∃ t, exec i s = .next t := by
  cases i <;> exact ⟨_, rfl⟩

/-- What `completes` says of a pass, from an idle state: all of it, or a precise fault. -/
theorem completes_decode {mode : Mode} {sel : Byte} {s t : State} (h : s.idle)
    (hc : completes (.decode mode sel) s t) :
    (t.fault = false ∧
      PassDone (latchDecode mode sel s) ((banksRequested mode).toNat * 24576) t ∧
      EndsAt (latchDecode mode sel s) ((banksRequested mode).toNat - 1) 383 7 t) ∨
    (t.fault = true ∧
      ∃ b, b < (banksRequested mode).toNat ∧ PassFault (latchDecode mode sel s) b t) := by
  have hc : t = complete (decodeBody mode sel { s with busy := true }) := hc
  have hl : latchDecode mode sel s = { latchDecode mode sel { s with busy := true } with busy := false } :=
    (congrArg (latchDecode mode sel) (busy_restored h.2)).symm
  rcases decodeBody_cases mode sel (s := { s with busy := true }) h.1 with ⟨hf, hd, he⟩ | ⟨hf, b, hb, hd⟩
  · rw [complete_of_ok hf] at hc
    rw [hc, hl]
    refine .inl ⟨hf, ⟨?_, hd.before, hd.after, hd.elsewhere, hd.alpha, hd.canonical⟩, he⟩
    have hfr := hd.frame
    generalize decodeBody mode sel { s with busy := true } = u at hfr
    rw [hfr]
  · rw [complete_of_fault hf] at hc
    rw [hc, hl]
    refine .inr ⟨hf, b, hb, ⟨hd.bank_eq, hd.frame, hd.range, ?_, hd.cause⟩⟩
    obtain ⟨v, hv, e1, e2⟩ := hd.done
    refine ⟨{ v with busy := false }, ⟨?_, hv.before, hv.after, hv.elsewhere, hv.alpha, hv.canonical⟩, e1, e2⟩
    have hfr := hv.frame
    rw [hfr]

end Sys2Proof.Machine
end

