-- ==== Sys2Proof/Laws/Engine.lean ====
section
/-! SUPPORT. What one micro-step can do, said once phase by phase, and what its pixel write does. -/

namespace Sys2Proof.Machine

/-- A write of `INIT` to `TBUF`: one word blank. -/
theorem tbufAt_paintTileWord (i k : Nat) (s : State) :
    (paintTileWord i s).tbufAt k = if i = k then s.cfg.blank else s.tbufAt k := tbufAt_writeTbuf ..

/-- A write of `INIT` to `MOSAIC`: one word as `Paint` gives it. -/
theorem mosaicAt_paintMosaicWord (n : BitVec 2) (i k : Nat) (s : State) :
    (paintMosaicWord n i s).mosaicAt k =
      if mosaicKey (i / mosaicW s.cfg n) (i % mosaicW s.cfg n) = k then
        paint s.cfg (i % mosaicW s.cfg n) (i / mosaicW s.cfg n) else s.mosaicAt k := mosaicAt_writeMosaic ..

/-- The coordinate of a linear index lies in the mosaic (rule R67). -/
theorem index_in_mosaic {c : Cfg} {n : BitVec 2} {i : Nat} (h : i < mosaicSize c n) :
    i / mosaicW c n < mosaicH c ∧ i % mosaicW c n < mosaicW c n := by
  unfold mosaicSize at h
  have hw : 0 < mosaicW c n := by
    rcases Nat.eq_zero_or_pos (mosaicW c n) with h0 | h0
    · rw [h0] at h
      omega
    · exact h0
  exact ⟨Nat.div_lt_of_lt_mul h, Nat.mod_lt _ hw⟩

/-- The same, by coordinate. -/
theorem mosaicAt_paintMosaicWord_coord (n : BitVec 2) (i : Nat) {my mx : Nat} (s : State) (hi : i < mosaicSize s.cfg n)
    (hx : mx < 65536) :
    (paintMosaicWord n i s).mosaicAt (mosaicKey my mx) =
      if my = i / mosaicW s.cfg n ∧ mx = i % mosaicW s.cfg n then paint s.cfg mx my
      else s.mosaicAt (mosaicKey my mx) := by
  have hw := mosaicW_lt s.cfg n
  have hm := (index_in_mosaic hi).2
  rw [mosaicAt_paintMosaicWord]
  by_cases h : my = i / mosaicW s.cfg n ∧ mx = i % mosaicW s.cfg n
  · obtain ⟨rfl, rfl⟩ := h
    rw [if_pos rfl, if_pos ⟨rfl, rfl⟩]
  · rw [if_neg h, if_neg fun e => h ((mosaicKey_inj (by omega) hx e).imp Eq.symm Eq.symm)]

/-- What `INIT` writes is what an unlisted word reads as, so nothing is listed by it: `TBUF`. -/
theorem paintTileWord_mem {i : Nat} {s : State} {c : Nat × Word} (h : c ∈ (paintTileWord i s).tbuf) :
    c ∈ s.tbuf ∧ c.1 ≠ i := by
  unfold paintTileWord at h
  simp only [writeTbuf_fields, Cells.put, if_true] at h
  refine ⟨Cells.mem_erase h, Cells.key_of_mem_erase h⟩

/-- The same for `MOSAIC`. -/
theorem paintMosaicWord_mem {n : BitVec 2} {i : Nat} {s : State} {c : Nat × Word}
    (h : c ∈ (paintMosaicWord n i s).mosaic) (hn : n ≠ 0#2) :
    c ∈ s.mosaic ∧ c.1 ≠ mosaicKey (i / mosaicW s.cfg n) (i % mosaicW s.cfg n) := by
  have hw := mosaicW_lt s.cfg n
  have hp : 0 < mosaicW s.cfg n :=
    Nat.mul_pos (Nat.pos_of_ne_zero fun h => hn (BitVec.eq_of_toNat_eq (by simpa using h))) (bankPitch_pos _)
  have hx := Nat.mod_lt i hp
  unfold paintMosaicWord at h
  simp only [writeMosaic_fields] at h
  rw [paintAt_mosaicKey _ (by omega), Cells.put, if_pos rfl] at h
  exact ⟨Cells.mem_erase h, Cells.key_of_mem_erase h⟩

/-- Nothing moves while `BUSY = 0` or `FAULT = 1` (rules R212, R226). -/
theorem microStep_of_stopped {s : State} (h : s.busy = false ∨ s.fault = true) : microStep s = s := by
  unfold microStep
  rcases h with h | h <;> rw [h] <;> simp

/-- A micro-step of the tile-buffer half of `INIT`. -/
theorem microStep_paintTile {n : BitVec 2} {i : Nat} {s : State} (hb : s.busy = true) (hf : s.fault = false)
    (hp : s.phase = .paintTile n i) :
    microStep s = { paintTileWord i s with
      phase := if i + 1 < tbufSize n then .paintTile n (i + 1) else .paintMosaic n 0 } := by
  unfold microStep
  rw [if_pos (by simp [hb, hf]), hp]
  simp only
  split <;> rfl

/-- A micro-step of the mosaic half of `INIT`, but for the last. -/
theorem microStep_paintMosaic {n : BitVec 2} {i : Nat} {s : State} (hb : s.busy = true) (hf : s.fault = false)
    (hp : s.phase = .paintMosaic n i) (hi : i + 1 < mosaicSize s.cfg n) :
    microStep s = { paintMosaicWord n i s with phase := .paintMosaic n (i + 1) } := by
  unfold microStep
  rw [if_pos (by simp [hb, hf]), hp]
  exact if_pos hi

/-- The last micro-step of `INIT` (rule R21). -/
theorem microStep_completes_init {n : BitVec 2} {i : Nat} {s : State} (hb : s.busy = true) (hf : s.fault = false)
    (hp : s.phase = .paintMosaic n i) (hi : ¬ i + 1 < mosaicSize s.cfg n) :
    microStep s = completeInit n (paintMosaicWord n i s) := by
  unfold microStep
  rw [if_pos (by simp [hb, hf]), hp]
  exact if_neg hi

/-- The pending write changes the two pixel memories and nothing else. -/
theorem pendingWrite_frame (s : State) :
    pendingWrite s = { s with tbuf := (pendingWrite s).tbuf, mosaic := (pendingWrite s).mosaic } := by
  unfold pendingWrite
  split <;> rfl

/-- A host read from offset `0x100000` up is a window read, at either level (rules R34, R72). -/
theorem portRead_window {off : BitVec 21} (h : 0x100000 ≤ off.toNat) (s : State) :
    portRead off s = windowRead (off.toNat - 0x100000) s := by
  unfold portRead
  rw [if_neg (by omega), if_neg (by omega)]

/-- The word of a mosaic window index inside the window (rule R145). -/
theorem windowWord_mosaic {s : State} {i : Nat} (hw : s.winsel = .mosaic) (hi : i < s.winlen) :
    windowWord i s = some (s.mosaicAt (mosaicKey (i / mosaicW s.cfg s.nb) (i % mosaicW s.cfg s.nb))) := by
  unfold State.winlen at hi
  rw [hw] at hi
  have h := index_in_mosaic hi
  unfold windowWord State.mosaicWord
  rw [hw]
  exact if_pos ⟨h.2, h.1⟩

end Sys2Proof.Machine
end

