-- ==== Sys2Proof/Laws/PerInstr.lean ====
section
/-! SUPPORT. Statements made instruction by instruction. `RowMatch`: the word of a command matches its own row of the
opcode table and no other (rules R102 to R106, R108). -/

namespace Sys2Proof.Laws.RowMatch

open Sys2Proof.Machine

/-- The (mask, match) row of a command, from rules R102 to R106. -/
def row : Instr → Word × Word
  | .init _ => (0xFFFFFFFC#32, 0x10000000#32)
  | .decode _ _ => (0xFFFFFE00#32, 0x20000000#32)
  | .setpix _ _ _ _ => (0xFFF00000#32, 0x30000000#32)
  | .msnap => (0xFFFFFFFF#32, 0x40000000#32)
  | .tsnap _ _ => (0xFFF000FF#32, 0x50000000#32)
  | .setbg => (0xFFFFFFFF#32, 0x60000000#32)
  | .getbg => (0xFFFFFFFF#32, 0x70000000#32)

/-- The command's word matches its row, and its row is the only one it matches. -/
def Statement (i : Instr) : Prop :=
  row i ∈ opcodeRows ∧ encode i &&& (row i).1 = (row i).2 ∧
    ∀ r ∈ opcodeRows, encode i &&& r.1 = r.2 → r = row i

/-- The opcode of a word that matches a row is the row's. -/
theorem opcode_of_match {w : Word} {r : Word × Word} (hr : r ∈ opcodeRows) (h : w &&& r.1 = r.2) :
    w.extractLsb' 28 4 = r.2.extractLsb' 28 4 := by
  rw [← h]
  have hm : r.1.extractLsb' 28 4 = BitVec.allOnes 4 := by
    simp only [opcodeRows, List.mem_cons, List.not_mem_nil, or_false] at hr
    rcases hr with rfl | rfl | rfl | rfl | rfl | rfl | rfl <;> rfl
  rw [BitVec.extractLsb'_and, hm, BitVec.and_allOnes]

/-- It is enough to match the row: no two rows share an opcode. -/
theorem of_match {i : Instr} (hr : row i ∈ opcodeRows) (h : encode i &&& (row i).1 = (row i).2) : Statement i := by
  refine ⟨hr, h, fun r hr' h' => ?_⟩
  have hop := (opcode_of_match hr' h').symm.trans (opcode_of_match hr h)
  generalize row i = r' at hr hop
  simp only [opcodeRows, List.mem_cons, List.not_mem_nil, or_false] at hr hr'
  rcases hr with rfl | rfl | rfl | rfl | rfl | rfl | rfl <;>
    rcases hr' with rfl | rfl | rfl | rfl | rfl | rfl | rfl <;>
    first | rfl | exact absurd hop (by decide)

theorem init (bankCount : BitVec 2) : Statement (.init bankCount) := by
  refine of_match (by simp [row, opcodeRows]) ?_
  revert bankCount
  decide

theorem decode (mode : Mode) (sel : BitVec 8) : Statement (.decode mode sel) := by
  refine of_match (by simp [row, opcodeRows]) ?_
  apply BitVec.eq_of_getLsbD_eq
  intro k hk
  simp only [encode, row, BitVec.getLsbD_and, BitVec.getLsbD_append]
  cases mode <;> interval_cases k <;> simp

theorem setpix (bank : BitVec 2) (tile : BitVec 10) (ly lx : BitVec 4) : Statement (.setpix bank tile ly lx) := by
  refine of_match (by simp [row, opcodeRows]) ?_
  apply BitVec.eq_of_getLsbD_eq
  intro k hk
  simp only [encode, row, BitVec.getLsbD_and, BitVec.getLsbD_append]
  interval_cases k <;> simp

theorem msnap : Statement .msnap := of_match (by simp [row, opcodeRows]) (by decide)

theorem tsnap (bank : BitVec 2) (tile : BitVec 10) : Statement (.tsnap bank tile) := by
  refine of_match (by simp [row, opcodeRows]) ?_
  apply BitVec.eq_of_getLsbD_eq
  intro k hk
  simp only [encode, row, BitVec.getLsbD_and, BitVec.getLsbD_append]
  interval_cases k <;> simp

theorem setbg : Statement .setbg := of_match (by simp [row, opcodeRows]) (by decide)

theorem getbg : Statement .getbg := of_match (by simp [row, opcodeRows]) (by decide)

end Sys2Proof.Laws.RowMatch
end

