-- ==== Sys2Proof/Tests/Slice0.lean ====
section
/-! SUPPORT. The model's own tests, expected results from spec/95_test_vectors.md and the rules named, and after them, for
every statement with hypotheses, a named state and operands that meet them all. -/

open Sys2Proof Sys2Proof.Machine

namespace Sys2Proof.Tests

/-- One field of the next state, if there is one. -/
def seen {α : Type} (f : State → α) : Host.Outcome State Fault Refusal → Option α
  | .next s => some (f s)
  | .fault _ => none
  | .refused _ => none

/-- What a host learns of a fault: `FCAUSE`, `FINFO`, `STATUS`. -/
def record (s : State) : Byte × Word × Word := (s.fcause, s.finfo, s.status)

/-- After reset and `INIT n`, with the default `Cfg`. -/
def canvas (n : BitVec 2) : State := finishInit (recreate n State.reset)

/-- The resolver `Ident` of 95_test_vectors.md, for selector 0. -/
def ident : Cells Rgb :=
  [(0, ⟨0#8, 0#8, 0#8⟩), (1, ⟨1#8, 1#8, 1#8⟩), (2, ⟨2#8, 2#8, 2#8⟩), (3, ⟨3#8, 3#8, 3#8⟩)]

/-- A bank of 6144 zero bytes (rule R61). -/
@[irreducible] def zeroBank (b : Nat) : List Host.Cell := (List.range 6144).map fun off => (tileKey b off, 0#8)

/-- One bank laid out, bank 0 present. -/
def shown : State := { canvas 1#2 with tiles := zeroBank 0, palette := ident }

/-- Two banks laid out, both present. -/
def shownBoth : State := { canvas 2#2 with tiles := zeroBank 0 ++ zeroBank 1, palette := ident }

/-- A colour pass at its very last pixel, about to read that row. -/
def passing : State :=
  { canvas 2#2 with
    busy := true, phase := .readLower, nbreq := 2#2, pxc := Pxc.of 1 383 7 7, winsel := .mosaic }

/-- The same pass between the two writes of that pixel. -/
def midWrite : State := { passing with phase := .writeMosaic }

/-- A second `INIT 2`, the window still on the mosaic, about to paint its last word. -/
def painting : State := { canvas 2#2 with busy := true, winsel := .mosaic, phase := .paintMosaic 2#2 50699 }

/-- The same, the window on the last tile, about to paint the last word of the tile buffers. -/
def paintingTile : State :=
  { painting with winsel := .tile, winbank := 1#1, wintile := 383#9, phase := .paintTile 2#2 49151 }

/-- The first `INIT` after reset, as it is accepted. -/
def firstInit : State := { State.reset with busy := true, phase := .paintTile 1#2 0 }

/-- A faulted machine. -/
def broken : State := faultedFrom .badAddr 7#32 (canvas 2#2)

/-! Decoding: words written out bit by bit from the formats of 30_encoding.md (vectors E1 to E28). -/

theorem test_decode_init : decode 0b00010000000000000000000000000001#32 = .ok (.init 1#2) ∧
    decode 0x10000003#32 = .ok (.init 3#2) ∧ decode 0x10000005#32 = .error .reservedBits := by decide

theorem test_decode_decode : decode 0b00100000000000000000000111100100#32 = .ok (.decode .color 0xE4#8) ∧
    decode 0x20000010#32 = .ok (.decode .mono 0x10#8) ∧ decode 0x20000200#32 = .error .reservedBits := by decide

theorem test_decode_setpix : decode 0b00110000000001000001000100100101#32 = .ok (.setpix 1#2 17#10 2#4 5#4) ∧
    decode 0x300FFFFF#32 = .ok (.setpix 3#2 1023#10 15#4 15#4) ∧ decode 0x30100000#32 = .error .reservedBits := by
  decide

theorem test_decode_msnap : decode 0b01000000000000000000000000000000#32 = .ok .msnap ∧
    decode 0x40000001#32 = .error .reservedBits := by decide

theorem test_decode_tsnap : decode 0b01010000000001000001000100000000#32 = .ok (.tsnap 1#2 17#10) ∧
    decode 0x50057F00#32 = .ok (.tsnap 1#2 383#10) ∧ decode 0x50000001#32 = .error .reservedBits := by decide

theorem test_decode_setbg : decode 0b01100000000000000000000000000000#32 = .ok .setbg ∧
    decode 0x60000001#32 = .error .reservedBits := by decide

theorem test_decode_getbg : decode 0b01110000000000000000000000000000#32 = .ok .getbg ∧
    decode 0x78000000#32 = .error .reservedBits := by decide

theorem test_decode_reserved : decode 0x00000000#32 = .error .reservedOpcode ∧
    decode 0x80000000#32 = .error .reservedOpcode ∧ decode 0xF0000000#32 = .error .reservedOpcode ∧
    decode 0xFFFFFFFF#32 = .error .reservedOpcode := by decide

theorem test_table_word : decodeTableWord 32 0x30041125 = some (.setpix 1#2 17#10 2#4 5#4) ∧
    decodeTableWord 32 0 = none := by decide

/-- One ill-formed term for each check of `Instr.wellFormed`, and a well-formed one at the edge of each range. -/
theorem test_wellFormed : (Instr.init 0#2).wellFormed = false ∧ (Instr.init 3#2).wellFormed = false ∧
    (Instr.setpix 2#2 0#10 0#4 0#4).wellFormed = false ∧ (Instr.setpix 0#2 384#10 0#4 0#4).wellFormed = false ∧
    (Instr.setpix 0#2 0#10 8#4 0#4).wellFormed = false ∧ (Instr.setpix 0#2 0#10 0#4 8#4).wellFormed = false ∧
    (Instr.tsnap 2#2 0#10).wellFormed = false ∧ (Instr.tsnap 0#2 384#10).wellFormed = false ∧
    (Instr.init 2#2).wellFormed = true ∧ (Instr.setpix 1#2 383#10 7#4 7#4).wellFormed = true ∧
    (Instr.tsnap 1#2 383#10).wellFormed = true := by decide

/-! Each command, at most two tests. -/

/-- Rule R131's example, vectors G3, G10, G11, G13. -/
theorem test_init : seen (fun s => (s.status, s.mosaicWord 0 0, s.mosaicWord 0 128, s.mosaicWord 128 0,
      s.mosaicWord 131 0, s.mosaicWord 64 64, s.mosaicWord 0 130)) (exec (.init 1#2) State.reset) =
    some (0x12#32, some 0#32, some 0x808080FF#32, some 0x808080FF#32, some 0#32, some 0#32, none) := by decide

/-- Vector F30: `NB` stays 2. -/
theorem test_init_badBankcount : seen record (exec (.init 0#2) (canvas 2#2)) =
    some (4#8, 0x10000000#32, 0x26#32) := by decide

/-- Rule R160's example, vector U1: the row of bytes `0xB0`, `0xE0` through `Ident`. -/
theorem test_decode_row :
    (let s := decodeRow 0 0 0 { canvas 1#2 with tiles := [(0, 0xB0#8), (1, 0xE0#8)], palette := ident }
     (List.range 8).map fun x => (s.tbufWord 0 0 0 x, s.mosaicWord 0 x)) =
    [0x030303FF#32, 0x020202FF#32, 0x030303FF#32, 0x010101FF#32, 0x000000FF#32, 0x000000FF#32, 0x000000FF#32,
      0x000000FF#32].map fun w => (some w, some w) := by decide

/-- Vector P3a's read of an absent byte: bank 1 offset 0 would be `0x00040000`; here bank 0 ends at offset 1. -/
theorem test_decode_tilememErr : seen record (exec (.decode .mono 0#8) { canvas 1#2 with tiles := [(0, 0x80#8)] }) =
    some (9#8, 0x00000001#32, 0x16#32) := by decide

/-- Program P4 step 7. -/
theorem test_setpix : seen (fun s => (s.status, s.tbufWord 1 17 2 5, s.mosaicWord 10 143, s.tbufWord 1 17 2 4))
      (exec (.setpix 1#2 17#10 2#4 5#4) { canvas 2#2 with arg := 0x11223344#32 }) =
    some (0x22#32, some 0x11223344#32, some 0x11223344#32, some 0#32) := by decide

/-- Vector F19: `x` is checked first. -/
theorem test_setpix_badX : seen record (exec (.setpix 2#2 384#10 8#4 8#4) (canvas 2#2)) =
    some (5#8, 0x00098088#32, 0x26#32) := by decide

/-- Rule R143's examples. -/
theorem test_msnap : seen (fun s => (s.result, s.winlen, s.status)) (exec .msnap (canvas 1#2)) =
      some (0x00C30082#32, 25350, 0x112#32) ∧
    seen (fun s => (s.result, s.winlen, s.status)) (exec .msnap (canvas 2#2)) =
      some (0x00C30104#32, 50700, 0x122#32) := by decide

/-- Vector F10. -/
theorem test_msnap_notInit : seen record (exec .msnap State.reset) = some (3#8, 0x40000000#32, 0x04#32) := by decide

/-- Vector F29. -/
theorem test_tsnap : seen (fun s => (s.result, s.winlen, s.status)) (exec (.tsnap 1#2 383#10) (canvas 2#2)) =
    some (0x00080008#32, 64, 0x222#32) := by decide

/-- Vectors F28 and F27. -/
theorem test_tsnap_faults : seen record (exec (.tsnap 2#2 384#10) (canvas 2#2)) = some (7#8, 0x00098000#32, 0x26#32) ∧
    seen record (exec (.tsnap 1#2 0#10) (canvas 1#2)) = some (8#8, 0x00040000#32, 0x16#32) := by decide

/-- Program P4 step 3. -/
theorem test_setbg : seen (fun s => (s.bgref, s.status)) (exec .setbg { State.reset with arg := 0xCAFE0001#32 }) =
    some (0xCAFE0001#32, 0x1000#32) := by decide

/-- Program P4 steps 1 and 4. -/
theorem test_getbg : seen (fun s => (s.result, s.status)) (exec .getbg State.reset) = some (0#32, 0#32) ∧
    seen State.result (exec .getbg { State.reset with bgvalid := true, bgref := 0xCAFE0001#32 }) =
      some 0xCAFE0001#32 := by decide

/-! The port and the step. -/

/-- Vectors H1, H2, H3. -/
theorem test_port_faults : seen (fun s => (s.rdata, record s)) (portRead 0x7#21 State.reset) =
      some (0#32, 12#8, 7#32, 0x04#32) ∧
    seen record (portWrite 0xFFFFF#21 0#32 State.reset) = some (12#8, 0x000FFFFF#32, 0x04#32) ∧
    seen (fun s => (s.rdata, record s)) (portRead 0x100000#21 State.reset) = some (0#32, 11#8, 0#32, 0x04#32) := by
  decide

/-- Program P1's window reads 128 and 25350 (before the pass). -/
theorem test_window : seen State.rdata (portRead (0x100000#21 + 128#21) { canvas 1#2 with winsel := .mosaic }) =
      some 0x808080FF#32 ∧
    seen record (portRead (0x100000#21 + 25350#21) { canvas 1#2 with winsel := .mosaic }) =
      some (11#8, 0x00006306#32, 0x116#32) := by decide

/-- Program P2's window read 33280, row 128 of two banks (the band); and index 2743, which is `MOSAIC[10][143]` (rules
R67, R145) and holds what `SETPIX` of program P4 wrote there, where 2742 does not. -/
theorem test_window_rows :
    seen State.rdata (portRead (0x100000#21 + 33280#21) { canvas 2#2 with winsel := .mosaic }) = some 0x808080FF#32 ∧
    (let s := { setPixel 1 17 2 5 0x11223344#32 (canvas 2#2) with winsel := .mosaic }
     seen State.rdata (portRead (0x100000#21 + 2743#21) s) = some 0x11223344#32 ∧
     seen State.rdata (portRead (0x100000#21 + 2742#21) s) = some 0#32) := by decide

/-- Rule R130: an issued `SETBG` completes in the transition that accepts it, and an issued illegal word faults. -/
theorem test_issue_completes :
    seen (fun s => (s.bgref, s.status)) (commandIssue 0x60000000#32 { State.reset with arg := 0xCAFE0001#32 }) =
      some (0xCAFE0001#32, 0x1000#32) ∧
    seen record (commandIssue 0x20000200#32 (canvas 2#2)) = some (1#8, 0x20000200#32, 0x26#32) := by decide

/-- Vector O1: the pass is accepted with `STATUS = 0x13`, and a second `CMD` write ends it. -/
theorem test_overlap : seen State.status (commandIssue 0x20000000#32 (canvas 1#2)) = some 0x13#32 ∧
    seen record (portWrite 0#21 0x40000000#32
      (accept 0x20000000#32 true (startDecode .mono 0#8) (canvas 1#2))) =
      some (2#8, 0x40000000#32, 0x16#32) := by decide

/-- Rules R21, R76: an issued `INIT 1` over two banks leaves `STATUS` and the words it has not reached as they were; its
first micro-step writes tile-buffer word 0 and nothing else. -/
theorem test_init_issued :
    let s := setPixel 0 0 0 1 7#32 (setPixel 0 0 0 0 9#32 (canvas 2#2))
    seen (fun a => (a.status, a.tbufWord 0 0 0 0)) (commandIssue 0x10000001#32 s) = some (0x23#32, some 9#32) ∧
    seen (fun a => ((microStep a).status, (microStep a).tbufWord 0 0 0 0, (microStep a).tbufWord 0 0 0 1,
        (microStep a).mosaicWord 0 0)) (commandIssue 0x10000001#32 s) =
      some (0x23#32, some 0#32, some 7#32, some 9#32) := by decide

/-- A table word placed as the next command is run by the very next step, from reset. -/
theorem test_withFetchWord : seen State.status (step (State.reset.withFetchWord 32 0x10000001)) = some 0x12#32 := by
  decide

/-- Reset's memories are in canonical form. -/
theorem test_reset_memWf : State.reset.memWf := by decide

/-! What the witnesses share. -/

/-- A listed address reads as something. -/
theorem find_exists {α : Type} {a : Nat} {v : α} {m : Cells α} (h : (a, v) ∈ m) : ∃ u, Cells.find a m = some u := by
  induction m with
  | nil => cases h
  | cons c m ih =>
    unfold Cells.find
    split
    · exact ⟨_, rfl⟩
    · next hne =>
      rcases List.mem_cons.mp h with e | h
      · exact absurd (congrArg Prod.fst e).symm hne
      · exact ih h

theorem mem_zeroBank {b off : Nat} (h : off < 6144) : (tileKey b off, 0#8) ∈ zeroBank b := by
  unfold zeroBank
  exact List.mem_map.mpr ⟨off, List.mem_range.mpr h, rfl⟩

theorem shown_backed : shown.backed 0 := by
  intro off h
  exact find_exists (mem_zeroBank h)

theorem shownBoth_backed : ∀ b, b < 2 → shownBoth.backed b := by
  intro b hb off h
  refine find_exists (v := 0#8) (m := zeroBank 0 ++ zeroBank 1) ?_
  rcases (by omega : b = 0 ∨ b = 1) with rfl | rfl
  · exact List.mem_append_left _ (mem_zeroBank h)
  · exact List.mem_append_right _ (mem_zeroBank h)

theorem ident_resolves (s : State) (h : s.palette = ident) : s.resolves 0#8 := by
  intro i
  have e : s.resolve 0#8 i = Cells.find i.toNat ident := by unfold State.resolve; rw [h]; simp
  rw [e]
  clear e
  have hi : i = 0#2 ∨ i = 1#2 ∨ i = 2#2 ∨ i = 3#2 := by revert i; decide
  rcases hi with rfl | rfl | rfl | rfl <;> exact ⟨_, rfl⟩

/-- Memories that list nothing agree everywhere, and their gridlines are painted. -/
theorem dual_of_empty {s : State} (ht : s.tbuf = []) (hm : s.mosaic = []) : s.dual := by
  intro b t y x hb ht' hy hx
  unfold State.dualAt State.tbufAt State.mosaicAt
  rw [ht, hm]
  show s.cfg.blank = paintAt s.cfg (pixelKey s.cfg b t y x)
  rw [paintAt_pixelKey _ _ hb ht' hy hx]

theorem gridOk_of_empty {s : State} (hm : s.mosaic = []) : s.gridOk := by
  intro my mx hy hx hg
  unfold State.mosaicWord State.mosaicAt
  rw [if_pos ⟨hx, hy⟩, hm, paintAt_mosaicKey _ (Nat.lt_trans hx (mosaicW_lt _ _)), paint, if_pos hg]
  rfl

theorem canvas_inv : (canvas 2#2).Inv := by
  constructor <;> first | decide | (intro h; cases h) | trivial

theorem passing_inv : passing.Inv := by
  constructor <;> first | decide | (intro h; cases h) | trivial

theorem midWrite_inv : midWrite.Inv := by
  constructor <;> first | decide | (intro h; cases h) | trivial

/-- Memories that list nothing read as painted, wherever an `INIT` of one or two banks stands. -/
theorem painted_of_empty {s : State} (ht : s.tbuf = []) (hm : s.mosaic = [])
    (h : ∀ n i, s.phase = .paintTile n i → (n = 1#2 ∨ n = 2#2) ∧ i < tbufSize n)
    (h' : ∀ n i, s.phase = .paintMosaic n i → (n = 1#2 ∨ n = 2#2) ∧ i < mosaicSize s.cfg n) : s.painted := by
  have hb : ∀ k, s.tbufAt k = s.cfg.blank := fun k => by
    unfold State.tbufAt
    rw [ht]
    rfl
  have hp : ∀ n my mx, mx < mosaicW s.cfg n → s.mosaicAt (mosaicKey my mx) = paint s.cfg mx my := fun n my mx hx => by
    unfold State.mosaicAt
    rw [hm, paintAt_mosaicKey _ (Nat.lt_trans hx (mosaicW_lt _ n))]
    rfl
  unfold State.painted
  split
  · next n i e => exact ⟨(h n i e).1, (h n i e).2, fun k _ => hb k⟩
  · next n i e => exact ⟨(h' n i e).1, (h' n i e).2, fun k _ => hb k, fun my mx hx _ => hp n my mx hx⟩
  · trivial

theorem painting_inv : painting.Inv := by
  refine ⟨?_, ?_, ?_, ?_, ?_, ?_, ?_, ?_, ?_, ?_, ?_, ?_, ?_, painted_of_empty rfl rfl (nofun) (by rintro n i ⟨⟩; decide)⟩ <;>
    first | decide | (intro h; cases h)

theorem paintingTile_inv : paintingTile.Inv := by
  refine ⟨?_, ?_, ?_, ?_, ?_, ?_, ?_, ?_, ?_, ?_, ?_, ?_, ?_, painted_of_empty rfl rfl (by rintro n i ⟨⟩; decide) (nofun)⟩ <;>
    first | decide | (intro h; cases h)

theorem firstInit_inv : firstInit.Inv := by
  refine ⟨?_, ?_, ?_, ?_, ?_, ?_, ?_, ?_, ?_, ?_, ?_, ?_, ?_, painted_of_empty rfl rfl (by rintro n i ⟨⟩; decide) (nofun)⟩ <;>
    first | decide | (intro h; cases h)

theorem broken_inv : broken.Inv := by
  constructor <;> first | decide | trivial | exact fun _ => ⟨.badAddr, rfl⟩

theorem midWrite_dualInv : midWrite.dualInv := by
  intro _ _ b t y x hb ht hy hx
  refine ⟨fun h => ?_, fun _ => dual_of_empty rfl rfl b t y x hb ht hy hx⟩
  obtain ⟨_, rfl, rfl, rfl, rfl⟩ := h
  rfl

/-- The one-bank pass over zero bytes completes, whatever both memories held before. -/
theorem shown_completes (m n : Cells Word) :
    ∃ u, exec (.decode .mono 0#8) { shown with tbuf := m, mosaic := n } = .next u ∧ u.fault = false := by
  have hid : ({ shown with tbuf := m, mosaic := n } : State).idle := ⟨rfl, rfl⟩
  refine ⟨complete (decodeBody .mono 0#8 { shown with tbuf := m, mosaic := n, busy := true }), ?_, ?_⟩
  · exact congrArg Host.Outcome.next (perform_of_idle hid fun _ => rfl)
  · rcases completes_decode (mode := .mono) (sel := 0#8) hid rfl with ⟨h, _⟩ | ⟨_, b, hb, hd⟩
    · exact h
    · have hb0 : b = 0 := by simpa [banksRequested] using hb
      have hpx := hd.bank_eq.trans hb0
      have hr := hd.range.2
      have hy := (complete (decodeBody .mono 0#8 { shown with tbuf := m, mosaic := n, busy := true })).pxc.y.isLt
      have hc := hd.cause
      simp only [hpx] at hc
      generalize (complete (decodeBody .mono 0#8 { shown with tbuf := m, mosaic := n, busy := true })).pxc = p at hr hy hc
      obtain ⟨lo, hlo⟩ := shown_backed (16 * p.t.toNat + 2 * p.y.toNat) (by omega)
      obtain ⟨up, hup⟩ := shown_backed (16 * p.t.toNat + 2 * p.y.toNat + 1) (by omega)
      rcases hc with ⟨_, h, _⟩ | ⟨_, _, h, _⟩ | ⟨_, _, _, _, h, _⟩ | ⟨_, h, _⟩
      · exact absurd (hlo.symm.trans h) nofun
      · exact absurd (hup.symm.trans h) nofun
      · obtain ⟨c, hres⟩ := ident_resolves shown rfl (colourIndex _ _ p.x.toNat)
        exact absurd (hres.symm.trans h) nofun
      · exact absurd (show (1 : Nat) ≤ 0 from h) (by decide)

/-! Witnesses, one for each statement with hypotheses, in the statements' order; a statement with clauses is witnessed
clause by clause, at the ends of its ranges. -/

theorem witness_EncodeInvertsDecode : ∃ i, decode 0x300FFFFF#32 = .ok i := ⟨_, rfl⟩

theorem witness_IllegalWordsFault :
    (0x0FFFFFFF#32).extractLsb' 28 4 = 0#4 ∧ 8#4 ≤ (0x80000000#32).extractLsb' 28 4 ∧
    ((0x70000001#32).extractLsb' 28 4 ≠ 0#4 ∧ (0x70000001#32).extractLsb' 28 4 < 8#4 ∧
      ∀ r ∈ opcodeRows, 0x70000001#32 &&& r.1 ≠ r.2) ∧
    ((0xFFFFFFFF#32, 0x40000000#32) ∈ opcodeRows ∧ 0x40000000#32 &&& 0xFFFFFFFF#32 = 0x40000000#32) ∧
    State.reset.idle ∧ ∀ r ∈ opcodeRows, 0#32 &&& r.1 ≠ r.2 := by
  refine ⟨by decide, by decide, ⟨by decide, by decide, ?_⟩, ⟨by simp [opcodeRows], by decide⟩, by decide, ?_⟩ <;>
    simp [opcodeRows]

theorem witness_StepRunsTheDecodedCommand :
    { State.reset with script := [.write 0#21 0x10000001#32, .wait] }.script = .write 0#21 0x10000001#32 :: [.wait] ∧
    decode 0x10000001#32 = .ok (.init 1#2) ∧ decodeTableWord 32 0x70000000 = some .getbg ∧
    { State.reset with script := [.write 0x1FFFFF#21 1#32] }.script = .write 0x1FFFFF#21 1#32 :: [] ∧
    { State.reset with script := [.read 0#21, .turn] }.script = .read 0#21 :: [.turn] ∧
    { State.reset with script := [.issue 0xFFFFFFFF#32] }.script = .issue 0xFFFFFFFF#32 :: [] ∧
    decode 0x70000000#32 = .ok .getbg ∧ decode 0x300FFFFF#32 = .ok (.setpix 3#2 1023#10 15#4 15#4) := by decide

theorem witness_StepRuns_issue : (∀ n, Instr.getbg ≠ .init n) ∧ (∀ mode sel, Instr.getbg ≠ .decode mode sel) ∧
    (∀ n, Instr.setpix 3#2 1023#10 15#4 15#4 ≠ .init n) ∧
    ∀ mode sel, Instr.setpix 3#2 1023#10 15#4 15#4 ≠ .decode mode sel := ⟨nofun, nofun, nofun, nofun⟩

theorem witness_EngineMovesBetweenAccesses : (State.reset.script = [] ∧ State.reset.busy = false) ∧
    passing.script = [] ∧ { passing with script := [.turn] }.script = .turn :: [] ∧
    ({ passing with script := [.wait] }.script = .wait :: [] ∧ { passing with script := [.wait] }.busy = true) ∧
    ({ State.reset with script := [.wait] }.script = .wait :: [] ∧
      { State.reset with script := [.wait] }.busy = false) := by decide

theorem witness_FaultIsSink : broken.fault = true ∧ broken.script.head? ≠ some .reset ∧
    7 ≤ (7#21).toNat ∧ 7 ≤ (0x1FFFFF#21).toNat ∧ (6#21).toNat < 7 ∧
    { broken with script := [.reset] }.script = .reset :: [] := by decide

theorem witness_FaultEntry : State.reset.fault = false ∧ passing.fault = false := by decide

theorem witness_CommandWhileBusyOverlaps : (passing.fault = false ∧ passing.busy = true) ∧
    (painting.fault = false ∧ painting.busy = true) := by decide

theorem witness_UseBeforeInitFaults : needsInit (.decode .color 0xFF#8) = true ∧
    needsInit (.setpix 3#2 1023#10 15#4 15#4) = true ∧ needsInit .msnap = true ∧ needsInit (.tsnap 3#2 1023#10) = true ∧
    State.reset.idle ∧ State.reset.inited = false := by decide

theorem witness_FaultsBeforeAnyChange : (∀ mode sel, Instr.init 3#2 ≠ .decode mode sel) ∧
    (canvas 2#2).fault = false ∧ ∃ t, exec (.init 3#2) (canvas 2#2) = .next t ∧ t.fault = true :=
  ⟨nofun, by decide, _, rfl, by decide⟩

theorem witness_InitLaysOutTheCanvas : State.reset.idle ∧ (2#2 = 1#2 ∨ 2#2 = 2#2) ∧ (1#2 = 1#2 ∨ 1#2 = 2#2) ∧
    (1 < (2#2).toNat ∧ 383 < 384 ∧ 7 < 8) ∧ (1#2).toNat ≤ 1 ∧ (2#2).toNat ≤ 2 ∧
    (194 < mosaicH State.reset.cfg ∧ 259 < mosaicW State.reset.cfg 2#2 ∧ 129 < mosaicW State.reset.cfg 1#2) ∧
    (0#2 = 0#2 ∨ 0#2 = 3#2) ∧ (3#2 = 0#2 ∨ 3#2 = 3#2) := by decide

theorem witness_GridDescriptionsAgree : (259 < mosaicW Cfg.standard 2#2 ∧ 194 < mosaicH Cfg.standard) ∧
    (127 < mosaicW Cfg.standard 1#2 ∧ 130 < mosaicH Cfg.standard) := by decide

theorem witness_PlacementPartitionsTheMosaic :
    (pixelMx Cfg.standard 1 383 7 = 257 ∧ pixelMy Cfg.standard 383 7 = 194) ∧
    (1 < (2#2).toNat ∧ 383 < 384 ∧ 7 < 8) ∧
    (257 < mosaicW Cfg.standard 2#2 ∧ 194 < mosaicH Cfg.standard ∧ isGrid Cfg.standard 257 194 = false) ∧
    (127 < mosaicW Cfg.standard 1#2 ∧ 127 < mosaicH Cfg.standard ∧ isGrid Cfg.standard 127 127 = false) := by decide

theorem witness_SetpixWritesBothMemories : (canvas 2#2).idle ∧ (canvas 2#2).inited = true ∧
    (1#2).toNat < (canvas 2#2).nb.toNat ∧ (383#10).toNat < 384 ∧ (7#4).toNat < 8 := by decide

theorem witness_SetpixChecksInOrder : (canvas 2#2).idle ∧ (canvas 2#2).inited = true ∧ 8 ≤ (8#4).toNat ∧
    (7#4).toNat < 8 ∧ 384 ≤ (384#10).toNat ∧ (383#10).toNat < 384 ∧ (canvas 2#2).nb.toNat ≤ (2#2).toNat ∧
    (1#2).toNat < (canvas 2#2).nb.toNat := by decide

theorem witness_MsnapShowsTheMosaic : (canvas 2#2).idle ∧ (canvas 2#2).inited = true := by decide

theorem witness_TsnapShowsOneTile : (canvas 1#2).idle ∧ (canvas 1#2).inited = true ∧ (383#10).toNat < 384 ∧
    (0#2).toNat < (canvas 1#2).nb.toNat ∧ 384 ≤ (384#10).toNat ∧ (canvas 1#2).nb.toNat ≤ (1#2).toNat := by decide

theorem witness_SetbgStoresArg : (State.reset.idle ∧ (canvas 2#2).idle) ∧
    { canvas 2#2 with bgvalid := true }.bgvalid = true ∧
    ∃ t, exec (.init 1#2) { canvas 2#2 with bgvalid := true } = .next t := ⟨by decide, rfl, _, rfl⟩

theorem witness_GetbgReturnsTheReference : (State.reset.idle ∧ State.reset.bgvalid = false) ∧
    ({ State.reset with bgvalid := true }.idle ∧ { State.reset with bgvalid := true }.bgvalid = true) := by decide

theorem witness_SlotIsIndependent : (Instr.msnap ≠ .setbg ∧ Instr.msnap ≠ .getbg) ∧
    (∃ t, exec .msnap (canvas 2#2) = .next t) ∧ (∃ t, exec .setbg (canvas 2#2) = .next t) ∧
    (∃ t, exec .getbg (canvas 2#2) = .next t) ∧ State.reset.idle ∧ (canvas 2#2).idle :=
  ⟨by decide, ⟨_, rfl⟩, ⟨_, rfl⟩, ⟨_, rfl⟩, by decide⟩

theorem witness_UnpackRowLanes : 7 < 8 ∧ (0xFE#8).getLsbD (7 - 7) = (0x00#8).getLsbD (7 - 7) ∧
    (0x7F#8).getLsbD (7 - 0) = (0x00#8).getLsbD (7 - 0) := by decide

theorem witness_DecodeWritesEveryPixel :
    ((∃ u, exec (.decode .mono 0#8) shown = .next u ∧ u.fault = false) ∧
      0 < (banksRequested .mono).toNat ∧ 1 < (banksRequested .color).toNat ∧ 383 < 384 ∧ 7 < 8) ∧
    (shown.idle ∧ shown.inited = true ∧ (banksRequested .mono).toNat ≤ shown.nb.toNat ∧
      (∀ b, b < (banksRequested .mono).toNat → shown.backed b) ∧ shown.resolves 0#8) ∧
    (shownBoth.idle ∧ shownBoth.inited = true ∧ (banksRequested .color).toNat ≤ shownBoth.nb.toNat ∧
      (∀ b, b < (banksRequested .color).toNat → shownBoth.backed b) ∧ shownBoth.resolves 0#8) := by
  refine ⟨⟨shown_completes [] [], by decide⟩, ⟨⟨rfl, rfl⟩, rfl, by decide, fun b hb => ?_, ident_resolves _ rfl⟩,
    ⟨rfl, rfl⟩, rfl, by decide, fun b hb => shownBoth_backed b hb, ident_resolves _ rfl⟩
  obtain rfl : b = 0 := by simpa [banksRequested] using hb
  exact shown_backed

/-- A lower byte, an upper byte and a colour that are not there, each behind one good row. -/
theorem witness_PassFaultsArePrecise :
    let s := { canvas 1#2 with tiles := [(0, 0xB0#8), (1, 0xE0#8)], palette := ident }
    let s' := { s with tiles := s.tiles ++ [(2, 0x01#8)] }
    let s'' := { s with tiles := s.tiles ++ [(2, 0x00#8), (3, 0x01#8)], palette := ident.take 2 ++ ident.drop 3 }
    (s.idle ∧ s.inited = true ∧ ∃ u, exec (.decode .mono 0#8) s = .next u ∧ u.fault = true) ∧
    (s'.idle ∧ s'.inited = true ∧ ∃ u, exec (.decode .mono 0#8) s' = .next u ∧ u.fault = true) ∧
    (s''.idle ∧ s''.inited = true ∧ ∃ u, exec (.decode .color 0#8) s'' = .next u ∧ u.fault = true) := by
  refine ⟨⟨⟨rfl, rfl⟩, rfl, _, rfl, ?_⟩, ⟨⟨rfl, rfl⟩, rfl, _, rfl, ?_⟩, ⟨rfl, rfl⟩, rfl, _, rfl, ?_⟩ <;> decide

/-- One bank laid out and present, and beside it the bytes `m`. -/
def oneBank (m : List Host.Cell) : State := { shown with tiles := zeroBank 0 ++ m }

theorem oneBank_high (m : List Host.Cell) (off : Nat) : (oneBank m).tileByte 1 off = Cells.find (tileKey 1 off) m := by
  have key : ∀ l : List Host.Cell, (∀ c ∈ l, c.1 < 8192) →
      Cells.find (tileKey 1 off) (l ++ m) = Cells.find (tileKey 1 off) m := by
    intro l
    induction l with
    | nil => intro _; rfl
    | cons c l ih =>
      intro hl
      have hc := hl c (List.mem_cons_self ..)
      show (if c.1 = tileKey 1 off then _ else Cells.find (tileKey 1 off) (l ++ m)) = _
      rw [if_neg (by unfold tileKey; omega), ih fun d hd => hl d (List.mem_cons_of_mem _ hd)]
  refine key (zeroBank 0) fun c hc => ?_
  unfold zeroBank at hc
  obtain ⟨i, hi, rfl⟩ := List.mem_map.mp hc
  have := List.mem_range.mp hi
  simp only [tileKey]
  omega

/-- Bank 1 absent, with one byte, and with two. -/
theorem witness_ColorPassOnOneBankFaults :
    (∀ m, (oneBank m).idle ∧ (oneBank m).inited = true ∧ (oneBank m).nb = 1#2 ∧ (oneBank m).backed 0 ∧
      (oneBank m).resolves 0#8) ∧
    (oneBank []).tileByte 1 0 = none ∧
    ((oneBank [(8192, 0#8)]).tileByte 1 0 ≠ none ∧ (oneBank [(8192, 0#8)]).tileByte 1 1 = none) ∧
    ((oneBank [(8192, 0#8), (8193, 0#8)]).tileByte 1 0 ≠ none ∧
      (oneBank [(8192, 0#8), (8193, 0#8)]).tileByte 1 1 ≠ none) := by
  simp only [oneBank_high]
  refine ⟨fun m => ⟨⟨rfl, rfl⟩, rfl, rfl, fun off h => ?_, ident_resolves _ rfl⟩, by decide⟩
  exact find_exists (List.mem_append_left _ (mem_zeroBank h))

theorem witness_MonoPassLeavesBankOne : (∃ u, exec (.decode .mono 0#8) (canvas 2#2) = .next u) ∧
    (383 < 384 ∧ 7 < 8) ∧ bankX (canvas 2#2).cfg 1 ≤ 130 ∧
    ∀ off, off < 8192 → { canvas 2#2 with tiles := [(8192, 1#8)] }.tileByte 0 off = (canvas 2#2).tileByte 0 off := by
  refine ⟨⟨_, rfl⟩, by decide, by decide, fun off h => ?_⟩
  show (if 8192 = 0 * 8192 + off then _ else none) = none
  rw [if_neg (by omega)]

theorem witness_DecodeTwiceIsDecodeOnce : shown.tbufWf ∧ shown.mosaicWf ∧
    ∃ u, exec (.decode .mono 0#8) shown = .next u ∧ u.fault = false :=
  ⟨by decide, by decide, shown_completes [] []⟩

theorem witness_DecodeIsPure :
    let s' := { shown with tbuf := [(0, 5#32)], mosaic := [(1, 6#32)] }
    shown.idle ∧ s'.idle ∧ shown.inited = true ∧ s'.inited = true ∧ s'.cfg = shown.cfg ∧ s'.nb = shown.nb ∧
    s'.tiles = shown.tiles ∧ s'.palette = shown.palette ∧
    (∃ u, exec (.decode .mono 0#8) shown = .next u ∧ u.fault = false) ∧
    (∃ u', exec (.decode .mono 0#8) s' = .next u') ∧
    (0 < (banksRequested .mono).toNat ∧ 383 < 384 ∧ 7 < 8) ∧
    ∃ u, exec (.decode .mono 0#8) (canvas 1#2) = .next u ∧ u.fault = true :=
  ⟨⟨rfl, rfl⟩, ⟨rfl, rfl⟩, rfl, rfl, rfl, rfl, rfl, rfl, shown_completes [] [], ⟨_, rfl⟩, by decide, _, rfl, by decide⟩

theorem witness_DecodedWordsAreOpaque :
    let s := { canvas 1#2 with tiles := [(0, 0xB0#8), (1, 0xE0#8)], palette := ident }
    ∃ u, exec (.decode .mono 0#8) s = .next u ∧ u.tbufAt 7 ≠ s.tbufAt 7 ∧ u.mosaicAt 7 ≠ s.mosaicAt 7 :=
  ⟨_, rfl, by decide, by decide⟩

theorem witness_GridlinesSurviveCommands : (∀ n, Instr.setpix 1#2 383#10 7#4 7#4 ≠ .init n) ∧
    (∃ u, exec (.setpix 1#2 383#10 7#4 7#4) (canvas 2#2) = .next u) ∧ isGrid (canvas 2#2).cfg 258 194 = true ∧
    isGrid (canvas 2#2).cfg 0 128 = true := ⟨nofun, ⟨_, rfl⟩, by decide, by decide⟩

theorem witness_CommandsKeepMemoriesDual : (canvas 2#2).dual ∧
    ∃ u, exec (.setpix 1#2 383#10 7#4 7#4) { canvas 2#2 with arg := 9#32 } = .next u :=
  ⟨dual_of_empty rfl rfl, _, rfl⟩

theorem witness_DecodeLevelsAgree : (shown.phase = .idle ∧ shown.idle ∧ shown.inited = true) ∧
    (broken.phase = .idle ∧ ¬ broken.idle) := by decide

theorem witness_InitLevelsAgree : (State.reset.phase = .idle ∧ State.reset.idle) ∧ (1#2 = 1#2 ∨ 1#2 = 2#2) ∧
    (2#2 = 1#2 ∨ 2#2 = 2#2) ∧ broken.phase = .idle := by decide

/-- The first word, the last word of each memory, and a word that is not the last. -/
theorem witness_InitPaintsWordByWord :
    (firstInit.busy = true ∧ firstInit.fault = false ∧ (1#2 = 1#2 ∨ 1#2 = 2#2) ∧ firstInit.phase = .paintTile 1#2 0) ∧
    (paintingTile.busy = true ∧ paintingTile.fault = false ∧ (2#2 = 1#2 ∨ 2#2 = 2#2) ∧
      paintingTile.phase = .paintTile 2#2 49151 ∧ ¬ 49151 + 1 < (2#2).toNat * 24576) ∧
    (painting.busy = true ∧ painting.fault = false ∧ painting.phase = .paintMosaic 2#2 50699 ∧
      50699 < mosaicSize painting.cfg 2#2 ∧ mosaicSize painting.cfg 2#2 ≤ 50699 + 1) ∧
    ({ painting with phase := .paintMosaic 2#2 0 }.phase = .paintMosaic 2#2 0 ∧ 0 + 1 < mosaicSize painting.cfg 2#2) ∧
    (194 < mosaicH painting.cfg ∧ 259 < mosaicW painting.cfg 2#2 ∧ 49151 < tbufSize 2#2 ∧
      mosaicKey 0 0 ≠ mosaicKey 194 259) := by decide

theorem witness_LayoutChangesWhenInitCompletes :
    (painting.script.head? ≠ some .reset ∧
      ∃ t, step { painting with nb := 1#2 } = .next t ∧ t.nb ≠ 1#2) ∧
    (∃ t, step { State.reset with script := [.write 0#21 0x10000001#32] } = .next t ∧
      t.inited ≠ State.reset.inited) ∧
    (firstInit.Inv ∧ ∃ t, step firstInit = .next t ∧ t.inited = false) :=
  ⟨⟨by decide, _, rfl, by decide⟩, ⟨_, rfl, by decide⟩, firstInit_inv, _, rfl, rfl⟩

theorem witness_EveryCommandTerminates : passing.Inv ∧ painting.Inv ∧ passing.busy = true ∧ painting.busy = true :=
  ⟨passing_inv, painting_inv, rfl, rfl⟩

theorem witness_StepKeepsTheInvariant : (midWrite.Inv ∧ ∃ t, step midWrite = .next t) ∧
    (painting.Inv ∧ ∃ t, step painting = .next t) ∧ (broken.Inv ∧ ∃ t, step broken = .next t) :=
  ⟨⟨midWrite_inv, _, rfl⟩, ⟨painting_inv, _, rfl⟩, broken_inv, _, rfl⟩

theorem witness_NoStepStops : (canvas 2#2).Inv ∧ passing.Inv := ⟨canvas_inv, passing_inv⟩

theorem witness_StepKeepsGridlines : (midWrite.Inv ∧ midWrite.gridOk ∧ ∃ t, step midWrite = .next t) ∧
    (painting.Inv ∧ painting.gridOk ∧ ∃ t, step painting = .next t) :=
  ⟨⟨midWrite_inv, gridOk_of_empty rfl, _, rfl⟩, painting_inv, gridOk_of_empty rfl, _, rfl⟩

theorem witness_StepKeepsMemoriesDual : (midWrite.Inv ∧ midWrite.dualInv ∧ ∃ t, step midWrite = .next t) ∧
    (painting.Inv ∧ painting.dualInv ∧ ∃ t, step painting = .next t) :=
  ⟨⟨midWrite_inv, midWrite_dualInv, _, rfl⟩, painting_inv, fun _ h => absurd h (by decide), _, rfl⟩

theorem witness_RegisterAccess : (1#21 ≠ 0#21 ∧ 1#21 ≠ 2#21 ∧ (1#21).toNat < 7) ∧
    (6#21 ≠ 0#21 ∧ 6#21 ≠ 2#21 ∧ (6#21).toNat < 7) ∧
    (0x100000#21 ≠ 0#21 ∧ 0x100000#21 ≠ 2#21 ∧ 0x100000 ≤ (0x100000#21).toNat) ∧
    0x100000 ≤ (0x1FFFFF#21).toNat := by decide

theorem witness_UnmappedAccessFaults : (0x7 ≤ (0x7#21).toNat ∧ (0x7#21).toNat ≤ 0xFFFFF) ∧
    (0x7 ≤ (0xFFFFF#21).toNat ∧ (0xFFFFF#21).toNat ≤ 0xFFFFF) ∧ State.reset.fault = false ∧ broken.fault = true := by
  decide

/-- Offsets `0x100000` (index 0), `0x10003F` (63), `0x108200` (33280, row 128) and `0x10C60B` (50699, the last). -/
theorem witness_WindowReads : (0x100000 ≤ (0x100000#21).toNat ∧ 0x100000 ≤ (0x1FFFFF#21).toNat) ∧
    (broken.busy = false ∧ broken.fault = true) ∧
    ((canvas 2#2).busy = false ∧ (canvas 2#2).fault = false ∧ (canvas 2#2).winsel = .none) ∧
    { canvas 2#2 with winsel := .tile }.winlen ≤ (0x100040#21).toNat - 0x100000 ∧
    ((0x108200#21).toNat - 0x100000 = 33280 ∧ 33280 / mosaicW (canvas 2#2).cfg (canvas 2#2).nb = 128) ∧
    ((0x10C60B#21).toNat - 0x100000 < { canvas 2#2 with winsel := .mosaic }.winlen) ∧
    ((0x10003F#21).toNat - 0x100000 < 64 ∧
      { canvas 2#2 with winsel := .tile, winbank := 1#1, wintile := 383#9 }.winbank.toNat < (canvas 2#2).nb.toNat ∧
      { canvas 2#2 with winsel := .tile, winbank := 1#1, wintile := 383#9 }.wintile.toNat < 384) := by decide

theorem witness_WindowReadDuringPass : passing.Inv ∧ passing.phase.decoding = true ∧ passing.winsel ≠ .none ∧
    0 < passing.winlen ∧ 50699 < passing.winlen ∧ (0x100000#21).toNat = 0x100000 + 0 ∧
    (0x10C60B#21).toNat = 0x100000 + 50699 := ⟨passing_inv, by decide⟩

theorem witness_WindowReadDuringInit :
    (painting.Inv ∧ painting.phase.painting = true ∧ painting.winsel ≠ .none ∧ 0 < painting.winlen ∧
      50699 < painting.winlen ∧ (0x10C60B#21).toNat = 0x100000 + 50699) ∧
    (paintingTile.Inv ∧ paintingTile.phase.painting = true ∧ paintingTile.winsel ≠ .none ∧ 63 < paintingTile.winlen ∧
      (0x10003F#21).toNat = 0x100000 + 63 ∧ tbufIndex 1 383 7 7 = 49151) := ⟨⟨painting_inv, by decide⟩, paintingTile_inv, by decide⟩

theorem witness_ResetEvent : { broken with script := [.reset] }.script = .reset :: [] ∧
    (broken.script.head? ≠ some .reset ∧ broken.fault = true ∧ { broken with bgvalid := true }.bgvalid = true ∧
      ∃ t, step { broken with bgvalid := true } = .next t) := ⟨rfl, by decide, rfl, rfl, _, rfl⟩

theorem witness_InputsBelongToTheHost : (∃ t, exec .msnap (canvas 2#2) = .next t) ∧
    (∃ t, step { canvas 2#2 with script := [.tileByte 1#1 8191#13 1#8] } = .next t ∧ t.tiles ≠ (canvas 2#2).tiles) ∧
    ∃ t, step { canvas 2#2 with script := [.resolver 255#8 3#2 (some ⟨1#8, 2#8, 3#8⟩)] } = .next t ∧
      t.palette ≠ (canvas 2#2).palette := ⟨⟨_, rfl⟩, ⟨_, rfl, by decide⟩, _, rfl, by decide⟩

theorem witness_HostInputsReadBack :
    { shown with script := [.tileByte 1#1 8191#13 1#8] }.script = .tileByte 1#1 8191#13 1#8 :: [] ∧
    { shown with script := [.resolver 0#8 3#2 none] }.script = .resolver 0#8 3#2 none :: [] := ⟨rfl, rfl⟩

theorem witness_OnlyInitWritesTheLayout : (∀ n, Instr.msnap ≠ .init n) ∧ ∃ t, exec .msnap (canvas 2#2) = .next t :=
  ⟨nofun, _, rfl⟩

theorem witness_ArithmeticBounds : 1 < 2 ∧ 383 < 384 ∧ 7 < 8 ∧ 1 < (2#2).toNat := by decide

end Sys2Proof.Tests
end

section
/-! SUPPORT. The host port's registers: one rule for reads of the offsets below `0x7`, one rule for each kind of write,
and from them O43. -/

namespace Sys2Proof.Machine

/-- A register read is an answer and nothing more, whatever `BUSY` and `FAULT` are (rule R34). -/
theorem portRead_register {off : BitVec 21} (h : off.toNat < 7) (s : State) :
    portRead off s = .next { s with rdata := regRead off.toNat s } := if_pos h

/-- `FCAUSE` is stored as the byte `FCAUSE[7:0]` and read with 24 zero bits above it (rule R28). -/
theorem regRead_fcause (s : State) : regRead 4 s = 0#24 ++ s.fcause :=
  BitVec.setWidth_eq_append (by decide)

/-- `ARG` takes the whole word (rules R24, R35). -/
theorem portWrite_arg (v : Word) (s : State) : portWrite 2#21 v s = .next { s with arg := v } := rfl

/-- The offsets a write may change something at are `CMD`, `ARG` and the unmapped ones (rules R35, R73). -/
theorem portWrite_ignored {off : BitVec 21} (hcmd : off ≠ 0#21) (harg : off ≠ 2#21)
    (hmapped : off.toNat < 7 ∨ 0x100000 ≤ off.toNat) (v : Word) (s : State) : portWrite off v s = .next s := by
  have hcmd' : off.toNat ≠ 0 := fun h => hcmd (BitVec.eq_of_toNat_eq h)
  have harg' : off.toNat ≠ 2 := fun h => harg (BitVec.eq_of_toNat_eq h)
  have hmapped' : ¬(7 ≤ off.toNat ∧ off.toNat < 0x100000) := by omega
  simp only [portWrite, hcmd', harg', hmapped', if_false]

/-- Settles O43: each register read is the rule for reads at that offset, and every write it speaks of is to `ARG` or to
a word the port ignores. -/
theorem registerAccess : Obligations.RegisterAccess := by
  unfold Obligations.RegisterAccess
  intro s
  have hread (off : BitVec 21) (h : off.toNat < 7) := portRead_register h s
  refine ⟨hread 0#21 (by decide), hread 1#21 (by decide), hread 2#21 (by decide), hread 3#21 (by decide), ?_,
    hread 5#21 (by decide), hread 6#21 (by decide), fun v => portWrite_arg v s, ?_⟩
  · rw [← regRead_fcause]
    exact hread 4#21 (by decide)
  · intro off v hcmd harg hmapped
    exact portWrite_ignored hcmd harg hmapped v s

end Sys2Proof.Machine
end

section
/-! SUPPORT. The unmapped offsets `0x7` to `0xFFFFF`: a read and a write are each one `raise` of `BAD_ADDR`, and from
them O44. -/

namespace Sys2Proof.Machine

/-- `FINFO` takes the 21-bit offset with 11 zero bits above it (rule R73). -/
theorem setWidth_offset (off : BitVec 21) : off.setWidth 32 = 0#11 ++ off :=
  BitVec.setWidth_eq_append (by decide)

/-- A read of an unmapped offset raises `BAD_ADDR` with the offset and answers 0 (rule R73). -/
theorem portRead_unmapped {off : BitVec 21} (hlo : 0x7 ≤ off.toNat) (hhi : off.toNat ≤ 0xFFFFF) (s : State) :
    portRead off s = .next { raise .badAddr (0#11 ++ off) s with rdata := 0#32 } := by
  have hregister : ¬ off.toNat < 0x7 := by omega
  have hwindow : off.toNat < 0x100000 := by omega
  rw [portRead, if_neg hregister, if_pos hwindow, setWidth_offset, answer]

/-- A write to an unmapped offset raises `BAD_ADDR` with the offset, whatever the word is (rule R73). -/
theorem portWrite_unmapped {off : BitVec 21} (hlo : 0x7 ≤ off.toNat) (hhi : off.toNat ≤ 0xFFFFF) (v : Word)
    (s : State) : portWrite off v s = .next (raise .badAddr (0#11 ++ off) s) := by
  have hcmd : off.toNat ≠ 0x0 := by omega
  have harg : off.toNat ≠ 0x2 := by omega
  have hunmapped : 0x7 ≤ off.toNat ∧ off.toNat < 0x100000 := by omega
  rw [portWrite, if_neg hcmd, if_neg harg, if_pos hunmapped, setWidth_offset]

/-- Settles O44: both accesses are a `raise`, which enters the fault from an unfaulted state (rule R210) and changes
nothing in a faulted one (rule R204). -/
theorem unmappedAccessFaults : Obligations.UnmappedAccessFaults := by
  unfold Obligations.UnmappedAccessFaults
  intro s off v hlo hhi
  rw [portRead_unmapped hlo hhi, portWrite_unmapped hlo hhi]
  constructor
  · intro hok
    rw [raise_of_ok hok]
    exact ⟨rfl, rfl⟩
  · intro hfault
    rw [raise_of_fault hfault]
    exact ⟨rfl, rfl⟩

end Sys2Proof.Machine
end

section
/-! SUPPORT. Words that are no command: the decoder refuses a word exactly when it matches no row of the opcode table,
a row's opcode tells it apart from the other rows, and what the port does with such a word; from these O3. -/

namespace Sys2Proof.Machine

/-! The decoder against the opcode table (rule R108). -/

/-- The decoder refuses a word exactly when no row matches it, and the reason is `illegalReason`. -/
theorem decode_eq_error_iff (w : Word) (e : Illegal) :
    decode w = .error e ↔ (∀ r ∈ opcodeRows, w &&& r.1 ≠ r.2) ∧ illegalReason w = e := by
  unfold decode
  split_ifs <;> simp [opcodeRows, *]

theorem decode_of_no_row {w : Word} (h : ∀ r ∈ opcodeRows, w &&& r.1 ≠ r.2) : decode w = .error (illegalReason w) :=
  (decode_eq_error_iff w _).mpr ⟨h, rfl⟩

theorem decode_ok_iff_row (w : Word) : (∃ i, decode w = .ok i) ↔ ∃ r ∈ opcodeRows, w &&& r.1 = r.2 := by
  constructor
  · rintro ⟨i, hi⟩
    by_contra hno
    have hrows : ∀ r ∈ opcodeRows, w &&& r.1 ≠ r.2 := fun r hr h => hno ⟨r, hr, h⟩
    rw [decode_of_no_row hrows] at hi
    cases hi
  · rintro ⟨r, hr, hmatch⟩
    cases hd : decode w with
    | ok i => exact ⟨i, rfl⟩
    | error e =>
      obtain ⟨hrows, -⟩ := (decode_eq_error_iff w e).mp hd
      exact absurd hmatch (hrows r hr)

/-! The opcodes of the rows (rules R101, R110). -/

/-- The opcode a row asks for. -/
def rowOpcode (r : Word × Word) : BitVec 4 := r.2.extractLsb' 28 4

theorem map_rowOpcode : opcodeRows.map rowOpcode = [1#4, 2#4, 3#4, 4#4, 5#4, 6#4, 7#4] := rfl

theorem rowOpcode_of_match {w : Word} {r : Word × Word} (hr : r ∈ opcodeRows) (h : w &&& r.1 = r.2) :
    rowOpcode r = w.extractLsb' 28 4 :=
  (Laws.RowMatch.opcode_of_match hr h).symm

/-- No two rows ask for the same opcode. -/
theorem row_eq_of_rowOpcode_eq {r r' : Word × Word} (hr : r ∈ opcodeRows) (hr' : r' ∈ opcodeRows)
    (h : rowOpcode r = rowOpcode r') : r = r' := by
  have hnodup : (opcodeRows.map rowOpcode).Nodup := by
    rw [map_rowOpcode]
    decide
  exact List.inj_on_of_nodup_map hnodup hr hr' h

/-- Every row's opcode is one of the seven defined ones. -/
theorem rowOpcode_defined {r : Word × Word} (hr : r ∈ opcodeRows) : rowOpcode r ≠ 0#4 ∧ rowOpcode r < 8#4 := by
  have hmem : rowOpcode r ∈ opcodeRows.map rowOpcode := List.mem_map_of_mem hr
  rw [map_rowOpcode] at hmem
  revert hmem
  generalize rowOpcode r = op
  revert op
  decide

/-- At most one row matches a word: each matching row asks for the word's opcode. -/
theorem matching_row_unique {w : Word} {r r' : Word × Word} (hr : r ∈ opcodeRows) (hr' : r' ∈ opcodeRows)
    (h : w &&& r.1 = r.2) (h' : w &&& r'.1 = r'.2) : r = r' :=
  row_eq_of_rowOpcode_eq hr hr' ((rowOpcode_of_match hr h).trans (rowOpcode_of_match hr' h').symm)

/-- No row has a reserved opcode, so no word with one matches a row (rule R110). -/
theorem no_row_of_reserved_opcode {w : Word} (hop : w.extractLsb' 28 4 = 0#4 ∨ 8#4 ≤ w.extractLsb' 28 4) :
    ∀ r ∈ opcodeRows, w &&& r.1 ≠ r.2 := by
  intro r hr hmatch
  obtain ⟨hpos, hlt⟩ := rowOpcode_defined hr
  rw [rowOpcode_of_match hr hmatch] at hpos hlt
  rcases hop with hzero | hge
  · exact hpos hzero
  · exact BitVec.not_lt.mpr hge hlt

theorem illegalReason_of_reserved {w : Word} (hop : w.extractLsb' 28 4 = 0#4 ∨ 8#4 ≤ w.extractLsb' 28 4) :
    illegalReason w = .reservedOpcode := by
  unfold illegalReason
  generalize w.extractLsb' 28 4 = op at hop
  exact if_neg (by bv_omega)

theorem illegalReason_of_defined {w : Word} (hpos : w.extractLsb' 28 4 ≠ 0#4) (hlt : w.extractLsb' 28 4 < 8#4) :
    illegalReason w = .reservedBits := by
  unfold illegalReason
  generalize w.extractLsb' 28 4 = op at hpos hlt
  exact if_pos (by bv_omega)

/-! The port (rules R108, R130): at either level a word the decoder refuses is `rejectWord`. -/

theorem rejectWord_of_idle {s : State} (h : s.idle) (w : Word) : rejectWord w s = faultedFrom .illegalCmd w s := by
  obtain ⟨hfault, hbusy⟩ := h
  simp [rejectWord, hfault, hbusy, raise_of_ok]

theorem portWrite_cmd_of_error {w : Word} {e : Illegal} (h : decode w = .error e) (s : State) :
    portWrite 0#21 w s = .next (rejectWord w s) := by
  show commandWrite w s = _
  rw [commandWrite, h]

theorem commandIssue_of_error {w : Word} {e : Illegal} (h : decode w = .error e) (s : State) :
    commandIssue w s = .next (rejectWord w s) := by
  rw [commandIssue, h]

/-- Settles O3: the decoder refuses exactly the words no row matches, a row is known by its opcode, and an idle port
answers a refused word with `ILLEGAL_CMD`. -/
theorem illegalWordsFault : Obligations.IllegalWordsFault := by
  unfold Obligations.IllegalWordsFault
  refine ⟨decode_ok_iff_row, ?unique, ?reserved, ?defined, ?port⟩
  case unique =>
    intro w r hr r' hr' h h'
    exact matching_row_unique hr hr' h h'
  case reserved =>
    intro w hop
    rw [decode_of_no_row (no_row_of_reserved_opcode hop), illegalReason_of_reserved hop]
  case defined =>
    intro w hpos hlt hrows
    rw [decode_of_no_row hrows, illegalReason_of_defined hpos hlt]
  case port =>
    intro w s hidle hrows
    have hrefused := decode_of_no_row hrows
    rw [portWrite_cmd_of_error hrefused, commandIssue_of_error hrefused, rejectWord_of_idle hidle]
    exact ⟨rfl, rfl⟩

end Sys2Proof.Machine
end

section
/-! SUPPORT. The canvas commands with checks: an accepted command whose body is a check and then an effect, what the
memories hold after `INIT`, the `FINFO` of a `SETPIX`, and from them O12 and O16. -/

namespace Sys2Proof.Machine

/-! A check and then an effect, completed (rules R130, R211). -/

theorem complete_ifOk_of_ok {f : State → State} {s : State} (h : s.fault = false) (hf : (f s).fault = false) :
    complete (ifOk f s) = { f s with busy := false } := by
  rw [ifOk_of_ok h, complete_of_ok hf]

theorem complete_ifOk_of_fault {s : State} (h : s.fault = true) (f : State → State) : complete (ifOk f s) = s := by
  rw [ifOk_of_fault h, complete_of_fault h]

/-! `INIT` (rule R131). -/

theorem exec_init_of_idle {s : State} (h : s.idle) (n : BitVec 2) :
    exec (.init n) s = .next (complete (initBody n { s with busy := true })) :=
  congrArg Host.Outcome.next (perform_of_idle h nofun)

theorem exec_init_completes {s : State} (h : s.idle) {n : BitVec 2} (hn : n = 1#2 ∨ n = 2#2) :
    exec (.init n) s = .next (finishInit (recreate n s)) := by
  have hok : ({ s with busy := true } : State).fault = false := h.1
  rcases checkBankcount_cases n hok with ⟨-, hpass⟩ | ⟨hne1, hne2, -⟩
  · rw [exec_init_of_idle h, initBody, hpass, complete_ifOk_of_ok hok hok]
    exact congrArg (fun s => Host.Outcome.next (finishInit (recreate n s))) (busy_restored h.2)
  · exact absurd hn (not_or.mpr ⟨hne1, hne2⟩)

theorem exec_init_badBankcount {s : State} (h : s.idle) {n : BitVec 2} (hn : ¬(n = 1#2 ∨ n = 2#2)) :
    exec (.init n) s = .next (faultedFrom .badBankcount (encode (.init n)) s) := by
  rcases checkBankcount_cases n (s := { s with busy := true }) h.1 with ⟨hn', -⟩ | ⟨-, -, hfail⟩
  · exact absurd hn' hn
  · rw [exec_init_of_idle h, initBody, hfail, complete_ifOk_of_fault rfl]

/-- A recreated tile buffer is blank, and has the words of the new layout only (rules R31, R131). -/
theorem tbufWord_recreate (n : BitVec 2) (s : State) (b t y x : Nat) :
    (recreate n s).tbufWord b t y x =
      if b < n.toNat ∧ t < 384 ∧ y < 8 ∧ x < 8 then some s.cfg.blank else none := rfl

/-- A recreated mosaic is as `Paint` gives it (rules R32, R132). -/
theorem mosaicWord_recreate {n : BitVec 2} {s : State} {my mx : Nat} (hy : my < mosaicH s.cfg)
    (hx : mx < mosaicW s.cfg n) : (recreate n s).mosaicWord my mx = some (paint s.cfg mx my) := by
  have hword : (recreate n s).mosaicWord my mx = some (paintAt s.cfg (mosaicKey my mx)) := if_pos ⟨hx, hy⟩
  rw [hword, paintAt_mosaicKey s.cfg (hx.trans (mosaicW_lt s.cfg n))]

/-- `INIT`'s last assignments leave both memories as they are. -/
@[simp] theorem tbufWord_finishInit (s : State) (b t y x : Nat) :
    (finishInit s).tbufWord b t y x = s.tbufWord b t y x := rfl

@[simp] theorem mosaicWord_finishInit (s : State) (my mx : Nat) :
    (finishInit s).mosaicWord my mx = s.mosaicWord my mx := rfl

/-- Settles O12: an accepted `INIT` recreates both memories and finishes, or its check faults first. -/
theorem initLaysOutTheCanvas : Obligations.InitLaysOutTheCanvas := by
  unfold Obligations.InitLaysOutTheCanvas
  intro s n hidle
  constructor
  · intro hn
    refine ⟨_, exec_init_completes hidle hn, rfl, ?blank, ?absent, ?painted⟩
    case blank =>
      intro b t y x hb ht hy hx
      rw [tbufWord_finishInit, tbufWord_recreate, if_pos ⟨hb, ht, hy, hx⟩]
    case absent =>
      intro b t y x hb
      rw [tbufWord_finishInit, tbufWord_recreate, if_neg fun hin => absurd hin.1 (Nat.not_lt.mpr hb)]
    case painted =>
      intro my mx hy hx
      rw [mosaicWord_finishInit, mosaicWord_recreate hy hx]
  · intro hn
    refine exec_init_badBankcount hidle ?_
    rcases hn with rfl | rfl <;> decide

/-! `SETPIX` (rule R141). -/

/-- The coordinate layout of `FINFO` is that of the operand bits of the command word (rules R104, R202). -/
theorem coordInfo_eq_append (bank : BitVec 2) (tile : BitVec 10) (ly lx : BitVec 4) :
    coordInfo bank.toNat tile.toNat ly.toNat lx.toNat = 0#4 ++ 0#8 ++ bank ++ tile ++ ly ++ lx := by
  have hfields : (0#4 ++ 0#8 ++ bank ++ tile ++ ly ++ lx).toNat =
      bank.toNat <<< 18 ||| tile.toNat <<< 8 ||| ly.toNat <<< 4 ||| lx.toNat := by
    simp only [BitVec.toNat_append, Nat.shiftLeft_or_distrib, ← Nat.shiftLeft_add, BitVec.toNat_zero,
      Nat.zero_shiftLeft, Nat.zero_or]
  rw [coordInfo, ← hfields, BitVec.ofNat_toNat, BitVec.setWidth_eq]

/-- The mask of bits 19:0, cut at the fields of a `SETPIX` word (rule R104). -/
theorem coordMask_eq_append : 0x000FFFFF#32 =
    0#4 ++ 0#8 ++ BitVec.allOnes 2 ++ BitVec.allOnes 10 ++ BitVec.allOnes 4 ++ BitVec.allOnes 4 := by decide

/-- The coordinate a failed check reports is bits 19:0 of the command word (rule R141). -/
theorem coordInfo_setpix (bank : BitVec 2) (tile : BitVec 10) (ly lx : BitVec 4) :
    coordInfo bank.toNat tile.toNat ly.toNat lx.toNat = encode (.setpix bank tile ly lx) &&& 0x000FFFFF#32 := by
  have hfields : encode (.setpix bank tile ly lx) &&& 0x000FFFFF#32 =
      (0x3#4 &&& 0#4) ++ (0#8 &&& 0#8) ++ (bank &&& .allOnes 2) ++ (tile &&& .allOnes 10) ++ (ly &&& .allOnes 4) ++
        (lx &&& .allOnes 4) := by
    rw [coordMask_eq_append, encode]
    simp only [← BitVec.and_append]
    exact BitVec.and_append
  rw [coordInfo_eq_append, hfields]
  simp only [BitVec.and_zero, BitVec.and_allOnes]

theorem exec_setpix_of_idle {s : State} (h : s.idle) (hi : s.inited = true) (bank : BitVec 2) (tile : BitVec 10)
    (ly lx : BitVec 4) : exec (.setpix bank tile ly lx) s =
      .next (complete (setPixelChecked bank.toNat tile.toNat ly.toNat lx.toNat s.arg { s with busy := true })) :=
  congrArg Host.Outcome.next (perform_of_idle h fun _ => hi)

/-- An accepted `SETPIX` is the chain of rule R141: the first range check that fails, else the dual write. -/
theorem exec_setpix_eq {s : State} (h : s.idle) (hi : s.inited = true) (bank : BitVec 2) (tile : BitVec 10)
    (ly lx : BitVec 4) :
    let info := encode (.setpix bank tile ly lx) &&& 0x000FFFFF#32
    exec (.setpix bank tile ly lx) s = .next (
      if 8 ≤ lx.toNat then faultedFrom .badX info s
      else if 8 ≤ ly.toNat then faultedFrom .badY info s
      else if 384 ≤ tile.toNat then faultedFrom .badTile info s
      else if s.nb.toNat ≤ bank.toNat then faultedFrom .badBank info s
      else setPixel bank.toNat tile.toNat ly.toNat lx.toNat s.arg s) := by
  have hok : ({ s with busy := true } : State).fault = false := h.1
  rw [exec_setpix_of_idle h hi, setPixelChecked, checkPixel, coordInfo_setpix]
  simp only [raise_of_ok hok]
  split_ifs
  case neg =>
    rw [complete_ifOk_of_ok hok hok]
    exact congrArg (fun s => Host.Outcome.next (setPixel bank.toNat tile.toNat ly.toNat lx.toNat s.arg s))
      (busy_restored h.2)
  all_goals rw [complete_ifOk_of_fault rfl]

/-- Settles O16: each clause is one branch of the chain of checks. -/
theorem setpixChecksInOrder : Obligations.SetpixChecksInOrder := by
  unfold Obligations.SetpixChecksInOrder
  intro s bank tile ly lx hidle hinit i info
  have hchain := exec_setpix_eq hidle hinit bank tile ly lx
  refine ⟨?badX, ?badY, ?badTile, ?badBank, ?write⟩
  case badX =>
    intro hx
    rw [hchain, if_pos hx]
  case badY =>
    intro hx hy
    rw [hchain, if_neg hx.not_ge, if_pos hy]
  case badTile =>
    intro hx hy ht
    rw [hchain, if_neg hx.not_ge, if_neg hy.not_ge, if_pos ht]
  case badBank =>
    intro hx hy ht hb
    rw [hchain, if_neg hx.not_ge, if_neg hy.not_ge, if_neg ht.not_ge, if_pos hb]
  case write =>
    intro hx hy ht hb
    rw [hchain, if_neg hx.not_ge, if_neg hy.not_ge, if_neg ht.not_ge, if_neg hb.not_ge]

end Sys2Proof.Machine
end

section
/-! SUPPORT. Window reads while `BUSY = 0` (rule R145): one rule for each way a read can end, the word of each kind of
window, and from them O45. -/

namespace Sys2Proof.Machine

theorem windowRead_of_fault {s : State} (h : s.fault = true) (i : Nat) :
    windowRead i s = .next { s with rdata := 0#32 } := if_pos h

theorem windowRead_outside {s : State} (h : s.fault = false) {i : Nat} (hi : s.winsel = .none ∨ s.winlen ≤ i) :
    windowRead i s = .next { faultedFrom .badWindow (BitVec.ofNat 32 i) s with rdata := 0#32 } := by
  rw [windowRead, if_neg (Bool.eq_false_iff.mp h), if_pos hi, raise_of_ok h, answer]

/-- A read inside the window answers the word the window shows, and changes nothing else. -/
theorem windowRead_inside {s : State} (h : s.idle) {i : Nat} (hi : i < s.winlen) {v : Word}
    (hv : windowWord i s = some v) : windowRead i s = .next { s with rdata := v } := by
  obtain ⟨hfault, hbusy⟩ := h
  have hsel : s.winsel ≠ .none := by
    intro hnone
    rw [State.winlen, hnone] at hi
    exact absurd hi (Nat.not_lt_zero i)
  rw [windowRead, if_neg (Bool.eq_false_iff.mp hfault), if_neg (not_or.mpr ⟨hsel, hi.not_ge⟩),
    if_neg (Bool.eq_false_iff.mp hbusy), hv, answerPixel, answer]

theorem winlen_mosaic {s : State} (h : s.winsel = .mosaic) : s.winlen = mosaicSize s.cfg s.nb := by
  rw [State.winlen, h]

theorem winlen_tile {s : State} (h : s.winsel = .tile) : s.winlen = 64 := by
  rw [State.winlen, h]

/-- The word of a tile window index inside the window (rule R145). -/
theorem windowWord_tile {s : State} {i : Nat} (hw : s.winsel = .tile) (hi : i < 64)
    (hb : s.winbank.toNat < s.nb.toNat) (ht : s.wintile.toNat < 384) :
    windowWord i s = some (s.tbufAt (tbufIndex s.winbank.toNat s.wintile.toNat (i / 8) (i % 8))) := by
  rw [windowWord, hw]
  exact if_pos ⟨hb, ht, Nat.div_lt_of_lt_mul hi, Nat.mod_lt i (by decide)⟩

/-- Settles O45: a read from offset `0x100000` up is a window read, which faults outside the window and answers the
window's word inside it; a write there is one of the ignored ones. -/
theorem windowReads : Obligations.WindowReads := by
  unfold Obligations.WindowReads
  intro s off hoff hbusy i w
  rw [portRead_window hoff]
  refine ⟨fun hfault => windowRead_of_fault hfault i, fun hok hout => windowRead_outside hok hout, ?mosaic, ?tile,
    ?write⟩
  case mosaic =>
    intro hok hsel hi
    obtain ⟨hrow, hcolumn⟩ := index_in_mosaic (hi.trans_eq (winlen_mosaic hsel))
    exact ⟨hrow, hcolumn, windowRead_inside ⟨hok, hbusy⟩ hi (windowWord_mosaic hsel hi)⟩
  case tile =>
    intro hok hsel hi hbank htile
    have hlen : i < s.winlen := hi.trans_eq (winlen_tile hsel).symm
    exact windowRead_inside ⟨hok, hbusy⟩ hlen (windowWord_tile hsel hi hbank htile)
  case write =>
    intro v
    have hne {k : BitVec 21} (hk : k.toNat < 0x100000) : off ≠ k := by
      rintro rfl
      exact absurd hoff hk.not_ge
    exact portWrite_ignored (hne (by decide)) (hne (by decide)) (.inr hoff) v s

end Sys2Proof.Machine
end

section
/-! SUPPORT. The row unpack (rules R164, R165): the two bits of a lane, the lanes packed into one word, and from them
O22. -/

namespace Sys2Proof.Machine

/-- Bit `k` of a byte, shifted down and masked as `IDX` does it. -/
theorem shiftRight_and_one (v : Byte) (k : Nat) : (v >>> k) &&& 1#8 = (BitVec.ofBool (v.getLsbD k)).setWidth 8 := by
  ext i hi
  rcases i with _ | i
  · simp
  · simp

/-- `IDX` is the upper byte's bit above the lower byte's (rule R165). -/
theorem colourIndex_eq_append (lo up : Byte) (x : Nat) :
    colourIndex lo up x = BitVec.ofBool (up.getLsbD (7 - x)) ++ BitVec.ofBool (lo.getLsbD (7 - x)) := by
  rw [colourIndex, shiftRight_and_one, shiftRight_and_one]
  cases up.getLsbD (7 - x) <;> cases lo.getLsbD (7 - x) <;> rfl

theorem lane_getLsbD : ∀ high low : Bool, (BitVec.ofBool high ++ BitVec.ofBool low).getLsbD 1 = high ∧
    (BitVec.ofBool high ++ BitVec.ofBool low).getLsbD 0 = low := by decide

theorem unpackRow_getElem? (lo up : Byte) {x : Nat} (hx : x < 8) :
    (unpackRow lo up)[x]? = some (colourIndex lo up x) := by
  rw [unpackRow, List.getElem?_map, List.getElem?_range hx, Option.map_some]

theorem unpackRow_length (lo up : Byte) : (unpackRow lo up).length = 8 := by
  rw [unpackRow, List.length_map, List.length_range]

theorem unpackRow_reverse_getElem? (lo up : Byte) {i : Nat} (hi : i < 8) :
    (unpackRow lo up).reverse[i]? = some (colourIndex lo up (7 - i)) := by
  rw [List.getElem?_reverse (hi.trans_eq (unpackRow_length lo up).symm), unpackRow_length]
  exact unpackRow_getElem? lo up (by omega)

/-- The lanes as one 16-bit value, the first the most significant (rule R164). -/
def packLanes (lanes : List (BitVec 2)) : BitVec 16 :=
  lanes.foldl (fun w lane => (w <<< 2) ||| lane.setWidth 16) 0#16

theorem packLanes_concat (lanes : List (BitVec 2)) (lane : BitVec 2) :
    packLanes (lanes ++ [lane]) = (packLanes lanes <<< 2) ||| lane.setWidth 16 := by
  rw [packLanes, List.foldl_append]
  rfl

/-- Bits `2 * i` and `2 * i + 1` of the packed lanes are those of the lane `i` places from the last. -/
theorem packLanes_getLsbD (lanes : List (BitVec 2)) {i j : Nat} (hj : j < 2) (hi : 2 * i + j < 16) :
    (packLanes lanes).getLsbD (2 * i + j) = (lanes.reverse[i]?.getD 0#2).getLsbD j := by
  induction lanes using List.reverseRecOn generalizing i with
  | nil => simp [packLanes]
  | append_singleton lanes lane ih =>
    rw [packLanes_concat, List.reverse_concat', BitVec.getLsbD_or, BitVec.getLsbD_shiftLeft, BitVec.getLsbD_setWidth]
    cases i with
    | zero => simp [hj, (by omega : j < 16)]
    | succ i =>
      have hprev : 2 * (i + 1) + j - 2 = 2 * i + j := by omega
      have hlane : lane.getLsbD (2 * (i + 1) + j) = false := BitVec.getLsbD_of_ge lane _ (by omega)
      rw [hprev, hlane, ih (by omega)]
      simp [hi, (by omega : 1 < 2 * (i + 1) + j)]

/-- Settles O22: a lane is its two bits, `UnpackRow` maps it over the columns, and packing keeps each lane's bits. -/
theorem unpackRowLanes : Obligations.UnpackRowLanes := by
  unfold Obligations.UnpackRowLanes
  intro lo up
  refine ⟨unpackRow_length lo up, ?lane, ?packed⟩
  case lane =>
    intro x hx
    refine ⟨colourIndex_eq_append lo up x, unpackRow_getElem? lo up hx, ?_⟩
    intro lo' up' hlo hup
    rw [unpackRow_getElem? lo' up' hx, unpackRow_getElem? lo up hx, colourIndex_eq_append, colourIndex_eq_append, hlo,
      hup]
  case packed =>
    intro packed i hi
    have hbit {j : Nat} (hj : j < 2) : packed.getLsbD (2 * i + j) = (colourIndex lo up (7 - i)).getLsbD j := by
      rw [show packed = packLanes (unpackRow lo up) from rfl, packLanes_getLsbD _ hj (by omega),
        unpackRow_reverse_getElem? lo up hi, Option.getD_some]
    have hcolumn : 7 - (7 - i) = i := by omega
    rw [hbit one_lt_two, ← Nat.add_zero (2 * i), hbit two_pos, colourIndex_eq_append, hcolumn]
    exact lane_getLsbD (up.getLsbD i) (lo.getLsbD i)

end Sys2Proof.Machine
end

section
/-! SUPPORT. What a `DECODE` leaves in the pixel memories: the pixels of the requested banks, all of them or those
before a fault, and nothing else; from these O23 and O25. -/

namespace Sys2Proof.Machine

/-! Reading one state's pixels in another with the same layout. -/

theorem tbufWord_of_in {s : State} {b t y x : Nat} (hb : b < s.nb.toNat) (ht : t < 384) (hy : y < 8) (hx : x < 8) :
    s.tbufWord b t y x = some (s.tbufAt (tbufIndex b t y x)) := if_pos ⟨hb, ht, hy, hx⟩

/-- Every tile pixel of the layout has its mosaic word (rule R71). -/
theorem mosaicWord_pixel {s : State} {b t y x : Nat} (hb : b < s.nb.toNat) (ht : t < 384) (hy : y < 8) (hx : x < 8) :
    s.mosaicWord (pixelMy s.cfg t y) (pixelMx s.cfg b t x) = some (s.mosaicAt (pixelKey s.cfg b t y x)) :=
  if_pos ⟨pixelMx_lt s.cfg s.nb hb hx, pixelMy_lt s.cfg ht hy⟩

/-! The colour of a pixel (rule R171). -/

/-- A backed bank and a total resolver give every pixel of the bank its colour. -/
theorem decoded_of_backed {s : State} {sel : Byte} {b : Nat} (hb : s.backed b) (hr : s.resolves sel) {t y : Nat}
    (ht : t < 384) (hy : y < 8) (x : Nat) :
    ∃ lo up c, s.tileByte b (16 * t + 2 * y) = some lo ∧ s.tileByte b (16 * t + 2 * y + 1) = some up ∧
      s.resolve sel (colourIndex lo up x) = some c ∧ s.decoded sel b t y x = some (opaqueColour c) := by
  obtain ⟨lo, hlo⟩ := hb (16 * t + 2 * y) (by omega)
  obtain ⟨up, hup⟩ := hb (16 * t + 2 * y + 1) (by omega)
  obtain ⟨c, hc⟩ := hr (colourIndex lo up x)
  refine ⟨lo, up, c, hlo, hup, hc, ?_⟩
  rw [State.decoded, hlo, hup]
  exact congrArg (Option.map opaqueColour) hc

/-- A pixel has a colour only where both its bytes are present. -/
theorem tileBytes_of_decoded {s : State} {sel : Byte} {b t y x : Nat} (h : s.decoded sel b t y x ≠ none) :
    s.tileByte b (16 * t + 2 * y) ≠ none ∧ s.tileByte b (16 * t + 2 * y + 1) ≠ none := by
  constructor <;> (intro hnone; simp [State.decoded, hnone] at h)

/-! The pixels a pass has done, whether it went on or faulted after them. -/

/-- What `PassDone` says of the layout and the pixel memories. `s` is the state before the pass, `u` one after it. -/
structure PixelsDone (s : State) (sel : Byte) (k : Nat) (u : State) : Prop where
  cfg : u.cfg = s.cfg
  nb : u.nb = s.nb
  before : ∀ b t y x, t < 384 → y < 8 → x < 8 → tbufIndex b t y x < k →
    b < s.nb.toNat ∧ s.decoded sel b t y x = some (u.tbufAt (tbufIndex b t y x)) ∧ u.dualAt b t y x
  after : ∀ i, k ≤ i → u.tbufAt i = s.tbufAt i
  elsewhere : ∀ j, (∀ b t y x, t < 384 → y < 8 → x < 8 → tbufIndex b t y x < k →
    j ≠ pixelKey s.cfg b t y x) → u.mosaicAt j = s.mosaicAt j

theorem PassDone.pixelsDone {s u : State} {mode : Mode} {sel : Byte} {k : Nat}
    (h : PassDone (latchDecode mode sel s) k u) : PixelsDone s sel k u where
  cfg := by rw [h.frame, latchDecode]
  nb := by rw [h.frame, latchDecode]
  before := h.before
  after := h.after
  elsewhere := h.elsewhere

/-- Fault entry leaves what the pass had done (rules R210, R211). -/
theorem PassFault.pixelsDone {s u : State} {mode : Mode} {sel : Byte} {bank : Nat}
    (h : PassFault (latchDecode mode sel s) bank u) :
    PixelsDone s sel (tbufIndex u.pxc.b.toNat u.pxc.t.toNat u.pxc.y.toNat u.pxc.x.toNat) u := by
  obtain ⟨v, hv, htbuf, hmosaic⟩ := h.done
  have hd := hv.pixelsDone
  have hcfg : u.cfg = s.cfg := by rw [h.frame, latchDecode]
  have htb (i : Nat) : u.tbufAt i = v.tbufAt i := by rw [State.tbufAt, State.tbufAt, htbuf, hcfg, hd.cfg]
  have hmo (j : Nat) : u.mosaicAt j = v.mosaicAt j := by rw [State.mosaicAt, State.mosaicAt, hmosaic, hcfg, hd.cfg]
  have hdual (b t y x : Nat) : u.dualAt b t y x ↔ v.dualAt b t y x := by
    rw [State.dualAt, State.dualAt, htb, hmo, hcfg, hd.cfg]
  refine ⟨hcfg, by rw [h.frame, latchDecode], ?_, ?_, ?_⟩
  · simpa only [htb, hdual] using hd.before
  · simpa only [htb] using hd.after
  · simpa only [hmo] using hd.elsewhere

/-- A pixel that is done holds its colour in both memories (rules R140, R171). -/
theorem PixelsDone.pixel {s u : State} {sel : Byte} {k : Nat} (h : PixelsDone s sel k u) {b t y x : Nat} (ht : t < 384)
    (hy : y < 8) (hx : x < 8) (hk : tbufIndex b t y x < k) :
    s.decoded sel b t y x ≠ none ∧ u.tbufWord b t y x = s.decoded sel b t y x ∧
      u.mosaicWord (pixelMy s.cfg t y) (pixelMx s.cfg b t x) = s.decoded sel b t y x := by
  obtain ⟨hb, hcolour, hdual⟩ := h.before b t y x ht hy hx hk
  have hbu : b < u.nb.toNat := h.nb ▸ hb
  rw [← h.cfg, tbufWord_of_in hbu ht hy hx, mosaicWord_pixel hbu ht hy hx, ← hdual, hcolour]
  exact ⟨Option.some_ne_none _, rfl, rfl⟩

/-- A pass that has a bank to decode, in tile memory, in the layout and with every colour, does not fault in it. -/
theorem not_passFault_of_backed {s0 u : State} {b : Nat} (hnb : b < s0.nb.toNat) (hb : s0.backed b)
    (hr : s0.resolves s0.selr) : ¬ PassFault s0 b u := by
  rintro ⟨rfl, -, ⟨-, ht⟩, -, hcause⟩
  obtain ⟨lo, up, c, hlo, hup, hc, -⟩ := decoded_of_backed hb hr ht u.pxc.y.isLt u.pxc.x.toNat
  rcases hcause with ⟨-, hnone, -⟩ | ⟨-, -, hnone, -⟩ | ⟨lo', up', hlo', hup', hnone, -⟩ | ⟨-, hbad, -⟩
  · rw [hlo] at hnone
    cases hnone
  · rw [hup] at hnone
    cases hnone
  · obtain ⟨c', hc'⟩ := hr (colourIndex lo' up' u.pxc.x.toNat)
    rw [hc'] at hnone
    cases hnone
  · exact absurd hnb hbad.not_gt

/-! `DECODE` as one transition (rule R130). -/

/-- An accepted `DECODE` is the rule of `DECODE`, and so all of the pass or a precise fault. -/
theorem exec_decode_of_idle {s : State} (h : s.idle) (hi : s.inited = true) (mode : Mode) (sel : Byte) :
    ∃ u, exec (.decode mode sel) s = .next u ∧ completes (.decode mode sel) s u :=
  ⟨_, congrArg Host.Outcome.next (perform_of_idle h fun _ => hi), rfl⟩

/-- A `DECODE` that ends without fault was accepted and has done every pixel of its banks. -/
theorem pixelsDone_of_no_fault {s u : State} {mode : Mode} {sel : Byte} (h : exec (.decode mode sel) s = .next u)
    (hf : u.fault = false) :
    PixelsDone s sel ((banksRequested mode).toNat * 24576) u := by
  rcases exec_cases h with ⟨hfault, rfl⟩ | ⟨-, c, info, rfl⟩ | ⟨hidle, -, hc⟩
  · rw [hfault] at hf
    cases hf
  · cases hf
  · rcases completes_decode hidle hc with ⟨-, hd, -⟩ | ⟨hfault, -⟩
    · exact hd.pixelsDone
    · rw [hfault] at hf
      cases hf

/-- With its banks backed and in the layout and every colour resolved, a `DECODE` ends without fault. -/
theorem exec_decode_completes {s : State} {mode : Mode} {sel : Byte} (h : s.idle) (hi : s.inited = true)
    (hnb : (banksRequested mode).toNat ≤ s.nb.toNat) (hb : ∀ b, b < (banksRequested mode).toNat → s.backed b)
    (hr : s.resolves sel) :
    ∃ u, exec (.decode mode sel) s = .next u ∧ u.fault = false ∧
      PassDone (latchDecode mode sel s) ((banksRequested mode).toNat * 24576) u := by
  obtain ⟨u, hexec, hc⟩ := exec_decode_of_idle h hi mode sel
  rcases completes_decode h hc with ⟨hf, hd, -⟩ | ⟨-, b, hlt, hbad⟩
  · exact ⟨u, hexec, hf, hd⟩
  · exact absurd hbad (not_passFault_of_backed (hlt.trans_le hnb) (hb b hlt) hr)

/-- The pixels of the first `n` banks come before all others in the order of the tile buffer (rule R65). -/
theorem tbufIndex_lt_iff {b t y x : Nat} (ht : t < 384) (hy : y < 8) (hx : x < 8) (n : Nat) :
    tbufIndex b t y x < n * 24576 ↔ b < n := by
  unfold tbufIndex
  omega

/-- Settles O23: a completed pass has done every pixel, and with banks backed and colours resolved no check fails. -/
theorem decodeWritesEveryPixel : Obligations.DecodeWritesEveryPixel := by
  unfold Obligations.DecodeWritesEveryPixel
  have hpixel {s u : State} {mode : Mode} {sel : Byte}
      (hd : PixelsDone s sel ((banksRequested mode).toNat * 24576) u) {b t y x : Nat}
      (hb : b < (banksRequested mode).toNat) (ht : t < 384) (hy : y < 8) (hx : x < 8) :=
    hd.pixel ht hy hx ((tbufIndex_lt_iff ht hy hx _).mpr hb)
  constructor
  · intro s u mode sel hexec hf b t y x hb ht hy hx
    exact hpixel (pixelsDone_of_no_fault hexec hf) hb ht hy hx
  · intro s mode sel hidle hi hnb hbacked hr
    obtain ⟨u, hexec, -, hd⟩ := exec_decode_completes hidle hi hnb hbacked hr
    refine ⟨u, hexec, hd.frame, ?pixel, hd.after, ?elsewhere⟩
    case pixel =>
      intro b t y x hb ht hy hx
      obtain ⟨lo, up, c, hlo, hup, hc, hcolour⟩ := decoded_of_backed (hbacked b hb) hr ht hy x
      obtain ⟨-, htbuf, hmosaic⟩ := hpixel hd.pixelsDone hb ht hy hx
      exact ⟨lo, up, c, hlo, hup, hc, htbuf.trans hcolour, hmosaic.trans hcolour⟩
    case elsewhere =>
      intro j hj
      refine hd.elsewhere j fun b t y x ht hy hx hk => ?_
      exact hj b t y x ((tbufIndex_lt_iff ht hy hx _).mp hk) ht hy hx

/-! A color pass on a one-bank canvas (rule R174). -/

section
variable {s u : State} {mode : Mode} {sel : Byte} (hnb : s.nb = 1#2) (h : PassFault (latchDecode mode sel s) 1 u)
include hnb h

/-- A pass on a one-bank canvas that faults in bank 1 does so at its first pixel, for no later one can be reached. -/
theorem PassFault.at_first_pixel : u.pxc.t.toNat = 0 ∧ u.pxc.y.toNat = 0 ∧ u.pxc.x.toNat = 0 := by
  have hfirst : ¬ tbufIndex 1 0 0 0 < tbufIndex u.pxc.b.toNat u.pxc.t.toNat u.pxc.y.toNat u.pxc.x.toNat := by
    intro hlt
    obtain ⟨hb, -⟩ := h.pixelsDone.before 1 0 0 0 (by decide) (by decide) (by decide) hlt
    rw [hnb] at hb
    exact absurd hb (by decide)
  rw [h.bank_eq] at hfirst
  unfold tbufIndex at hfirst
  omega

/-- The pixels done by then are those of bank 0. -/
theorem PassFault.bank_zero_done : PixelsDone s sel (1 * 24576) u := by
  obtain ⟨ht, hy, hx⟩ := h.at_first_pixel hnb
  have hdone := h.pixelsDone
  rwa [h.bank_eq, ht, hy, hx] at hdone

/-- The check that fails there: the row fetch, or the bank check once the row fetch has succeeded. -/
theorem PassFault.cause_at_first_pixel (hr : s.resolves sel) :
    (s.tileByte 1 0 = none ∧ u.fcause = 9#8 ∧ u.finfo = 0x00040000#32) ∨
    (s.tileByte 1 0 ≠ none ∧ s.tileByte 1 1 = none ∧ u.fcause = 9#8 ∧ u.finfo = 0x00040001#32) ∨
    (s.tileByte 1 0 ≠ none ∧ s.tileByte 1 1 ≠ none ∧ u.fcause = 8#8 ∧ u.finfo = 0x00040000#32) := by
  obtain ⟨ht, hy, hx⟩ := h.at_first_pixel hnb
  have hcause := h.cause
  simp only [h.bank_eq, ht, hy, hx] at hcause
  rcases hcause with ⟨-, hnone, hc, hi⟩ | ⟨-, hlo, hnone, hc, hi⟩ | ⟨lo, up, -, -, hnone, -⟩ | ⟨hsome, -, hc, hi⟩
  · exact .inl ⟨hnone, hc, hi⟩
  · exact .inr (.inl ⟨hlo, hnone, hc, hi⟩)
  · obtain ⟨c, hcolour⟩ := hr (colourIndex lo up 0)
    exact absurd (hcolour.symm.trans hnone) (Option.some_ne_none c)
  · obtain ⟨hlo, hup⟩ := tileBytes_of_decoded hsome
    exact .inr (.inr ⟨hlo, hup, hc, hi⟩)

end

/-- On a one-bank canvas with bank 0 backed and every colour resolved, a color pass faults in bank 1: bank 0 cannot
fault, and no pixel of bank 1 can be done. -/
theorem exec_decode_color_one_bank {s : State} {sel : Byte} (h : s.idle) (hi : s.inited = true) (hnb : s.nb = 1#2)
    (hb : s.backed 0) (hr : s.resolves sel) :
    ∃ u, exec (.decode .color sel) s = .next u ∧ u.fault = true ∧ PassFault (latchDecode .color sel s) 1 u := by
  obtain ⟨u, hexec, hc⟩ := exec_decode_of_idle h hi .color sel
  rcases completes_decode h hc with ⟨-, hd, -⟩ | ⟨hf, b, hlt, hbad⟩
  · obtain ⟨hin, -⟩ := hd.pixelsDone.before 1 0 0 0 (by decide) (by decide) (by decide) (by decide)
    rw [hnb] at hin
    exact absurd hin (by decide)
  · have hlt2 : b < 2 := hlt
    interval_cases b
    · have hin : 0 < (latchDecode .color sel s).nb.toNat := hnb.symm ▸ by decide
      exact absurd hbad (not_passFault_of_backed hin hb hr)
    · exact ⟨u, hexec, hf, hbad⟩

/-- Settles O25: the pass faults at the first pixel of bank 1, so the pixels done are those of bank 0. -/
theorem colorPassOnOneBankFaults : Obligations.ColorPassOnOneBankFaults := by
  unfold Obligations.ColorPassOnOneBankFaults
  intro s sel hidle hi hnb hbacked hr
  obtain ⟨u, hexec, hf, hbad⟩ := exec_decode_color_one_bank hidle hi hnb hbacked hr
  have hd := hbad.bank_zero_done hnb
  refine ⟨u, hexec, hf, by rw [hbad.frame], ?pixel, hd.after, ?cause⟩
  case pixel =>
    intro t y x ht hy hx
    exact hd.pixel ht hy hx ((tbufIndex_lt_iff ht hy hx 1).mpr one_pos)
  case cause =>
    rcases hbad.cause_at_first_pixel hnb hr with ⟨hlo, hrec⟩ | ⟨hlo, hup, hrec⟩ | ⟨hlo, hup, hrec⟩
    · exact ⟨fun _ => hrec, fun hne => absurd hlo hne, fun hne => absurd hlo hne⟩
    · exact ⟨fun hnone => absurd hnone hlo, fun _ _ => hrec, fun _ hne => absurd hup hne⟩
    · exact ⟨fun hnone => absurd hnone hlo, fun _ hnone => absurd hnone hup, fun _ _ => hrec⟩

end Sys2Proof.Machine
end

section
/-! SUPPORT. What a command leaves as it was: gridline pixels, and for a mono pass bank 1; and that a mono pass reads no
byte of bank 1. From these O30 and O26. -/

namespace Sys2Proof.Machine

/-! Words a command does not write. -/

theorem mosaicWord_congr {s u : State} {my mx : Nat} (hcfg : u.cfg = s.cfg) (hnb : u.nb = s.nb)
    (h : mx < mosaicW s.cfg s.nb → u.mosaicAt (mosaicKey my mx) = s.mosaicAt (mosaicKey my mx)) :
    u.mosaicWord my mx = s.mosaicWord my mx := by
  unfold State.mosaicWord
  rw [hcfg, hnb]
  split
  case isTrue hin => rw [h hin.1]
  case isFalse => rfl

theorem pixelsDone_zero {s u : State} (sel : Byte) (hcfg : u.cfg = s.cfg) (hnb : u.nb = s.nb) (htbuf : u.tbuf = s.tbuf)
    (hmosaic : u.mosaic = s.mosaic) : PixelsDone s sel 0 u where
  cfg := hcfg
  nb := hnb
  before _ _ _ _ _ _ _ hk := absurd hk (Nat.not_lt_zero _)
  after i _ := by rw [State.tbufAt, State.tbufAt, hcfg, htbuf]
  elsewhere j _ := by rw [State.mosaicAt, State.mosaicAt, hcfg, hmosaic]

/-- From every state and however it ends, a `DECODE` does the first pixels of its banks and no others. -/
theorem exec_decode_pixelsDone {s u : State} {mode : Mode} {sel : Byte} (h : exec (.decode mode sel) s = .next u) :
    ∃ k, k ≤ (banksRequested mode).toNat * 24576 ∧ PixelsDone s sel k u := by
  rcases exec_cases h with ⟨-, rfl⟩ | ⟨-, c, info, rfl⟩ | ⟨hidle, -, hc⟩
  · exact ⟨0, Nat.zero_le _, pixelsDone_zero sel rfl rfl rfl rfl⟩
  · exact ⟨0, Nat.zero_le _, pixelsDone_zero sel rfl rfl rfl rfl⟩
  · rcases completes_decode hidle hc with ⟨-, hd, -⟩ | ⟨-, b, hb, hbad⟩
    · exact ⟨_, le_rfl, hd.pixelsDone⟩
    · refine ⟨_, le_of_lt ?_, hbad.pixelsDone⟩
      rw [tbufIndex_lt_iff hbad.range.2 u.pxc.y.isLt u.pxc.x.isLt, hbad.bank_eq]
      exact hb

/-- A mosaic word that is no pixel of the requested banks in the layout is as it was before the pass. -/
theorem PixelsDone.mosaicWord_of_not_pixel {s u : State} {sel : Byte} {k n my mx : Nat} (h : PixelsDone s sel k u)
    (hk : k ≤ n * 24576)
    (hne : mx < mosaicW s.cfg s.nb → ∀ b t y x, b < n → b < s.nb.toNat → t < 384 → y < 8 → x < 8 →
      mosaicKey my mx ≠ pixelKey s.cfg b t y x) : u.mosaicWord my mx = s.mosaicWord my mx := by
  refine mosaicWord_congr h.cfg h.nb fun hmx => h.elsewhere _ fun b t y x ht hy hx hlt => ?_
  obtain ⟨hb, -⟩ := h.before b t y x ht hy hx hlt
  exact hne hmx b t y x ((tbufIndex_lt_iff ht hy hx n).mp (hlt.trans_le hk)) hb ht hy hx

/-! Gridline pixels (rule R175). -/

/-- The effect of an accepted command other than `INIT` leaves a gridline pixel as it was: a `DECODE` and a `SETPIX`
write tile pixels only, the other commands write no pixel. -/
theorem completes_mosaicWord_grid {i : Instr} {s u : State} (hi : ∀ n, i ≠ .init n) (h : exec i s = .next u)
    (hc : completes i s u) {my mx : Nat} (hg : isGrid s.cfg mx my = true) :
    u.mosaicWord my mx = s.mosaicWord my mx := by
  cases i with
  | init n => exact absurd rfl (hi n)
  | decode mode sel =>
    obtain ⟨k, hk, hd⟩ := exec_decode_pixelsDone h
    exact hd.mosaicWord_of_not_pixel hk fun hmx b t y x _ hb ht hy hx =>
      grid_ne_pixelKey s.cfg s.nb hb ht hy hx hmx hg
  | setpix bank tile ly lx =>
    obtain ⟨hx, hy, ht, hb, rfl⟩ := hc
    refine mosaicWord_congr rfl rfl fun hmx => ?_
    rw [mosaicAt_setPixel, if_neg (grid_ne_pixelKey s.cfg s.nb hb ht hy hx hmx hg).symm]
  | msnap => rw [show u = msnapBody s from hc]; rfl
  | tsnap bank tile =>
    obtain ⟨-, -, rfl⟩ := hc
    rfl
  | setbg => rw [show u = setbgBody s from hc]; rfl
  | getbg => rw [show u = getbgBody s from hc]; rfl

/-- Settles O30: a command that is ignored or refused changes no pixel, and an accepted one no gridline pixel. -/
theorem gridlinesSurviveCommands : Obligations.GridlinesSurviveCommands := by
  unfold Obligations.GridlinesSurviveCommands
  intro i s u hi h my mx hg
  rcases exec_cases h with ⟨-, rfl⟩ | ⟨-, c, info, rfl⟩ | ⟨-, -, hc⟩
  · rfl
  · rfl
  · exact completes_mosaicWord_grid hi h hc hg

/-! The bytes a mono pass reads (rule R173). Each operation of the pass, run from two states that differ in tile memory
alone and there not in bank 0, ends in two such states. -/

/-- `s'` is `s` with the tile memory `m` in place of its own, and the two agree on bank 0. -/
structure SameBankZero (m : List Host.Cell) (s s' : State) : Prop where
  eq : s' = { s with tiles := m }
  bytes : ∀ off, off < 8192 → s'.tileByte 0 off = s.tileByte 0 off

section
variable {m : List Host.Cell} {s s' : State}

/-- An operation that neither reads nor writes tile memory, which is shown by `rfl` when it only updates other fields. -/
theorem SameBankZero.update (h : SameBankZero m s s') (f : State → State)
    (hf : ∀ s, f { s with tiles := m } = { f s with tiles := m } := by intro _; rfl)
    (ht : ∀ s, (f s).tiles = s.tiles := by intro _; rfl) : SameBankZero m (f s) (f s') := by
  obtain ⟨rfl, hbytes⟩ := h
  refine ⟨hf s, fun off hoff => ?_⟩
  rw [State.tileByte, State.tileByte, hf, ht]
  exact hbytes off hoff

theorem SameBankZero.ite {t u t' u' : State} {p : Prop} [Decidable p] (ht : SameBankZero m t t')
    (hu : SameBankZero m u u') : SameBankZero m (if p then t else u) (if p then t' else u') := by
  split
  · exact ht
  · exact hu

theorem SameBankZero.elim {α : Type} {o o' : Option α} {f f' : α → State} (ho : o' = o) (hnone : SameBankZero m s s')
    (hsome : ∀ v, SameBankZero m (f v) (f' v)) : SameBankZero m (o.elim s f) (o'.elim s' f') := by
  subst ho
  cases o' with
  | none => exact hnone
  | some v => exact hsome v

theorem SameBankZero.ifOk {f : State → State} (hf : SameBankZero m (f s) (f s')) (h : SameBankZero m s s') :
    SameBankZero m (ifOk f s) (ifOk f s') := by
  obtain rfl := h.eq
  exact .ite h hf

theorem SameBankZero.forEach {α : Type} {f : α → State → State} {as : List α}
    (hf : ∀ a ∈ as, ∀ s s', SameBankZero m s s' → SameBankZero m (f a s) (f a s')) (h : SameBankZero m s s') :
    SameBankZero m (forEach f as s) (forEach f as s') := by
  induction as generalizing s s' with
  | nil => exact h
  | cons a as ih =>
    have ha := hf a (List.mem_cons_self ..) s s' h
    exact (ih (fun b hb => hf b (List.mem_cons_of_mem _ hb)) ha).ifOk ha

theorem SameBankZero.raise (h : SameBankZero m s s') (c : Cause) (info : Word) :
    SameBankZero m (raise c info s) (raise c info s') := by
  obtain rfl := h.eq
  exact .ite h (h.update (faultedFrom c info))

end

/-! The two reads and the resolver call, each a choice between a fault and a latch. -/

theorem readLower_eq_elim (s : State) : readLower s = (s.tileByte s.pxc.b.toNat s.pxc.rowOffset).elim
    (raise .tilememErr (tileInfo s.pxc.b.toNat s.pxc.rowOffset) s) fun v => { s with lo := v } := by
  unfold readLower
  cases s.tileByte s.pxc.b.toNat s.pxc.rowOffset <;> rfl

theorem readUpper_eq_elim (s : State) : readUpper s = (s.tileByte s.pxc.b.toNat (s.pxc.rowOffset + 1)).elim
    (raise .tilememErr (tileInfo s.pxc.b.toNat (s.pxc.rowOffset + 1)) s) fun v => { s with up := v } := by
  unfold readUpper
  cases s.tileByte s.pxc.b.toNat (s.pxc.rowOffset + 1) <;> rfl

theorem resolvePixel_eq_elim (s : State) : resolvePixel s =
    (s.resolve s.selr (colourIndex s.lo s.up s.pxc.x.toNat)).elim
      (raise .badColor s.pxc.info { s with idx := colourIndex s.lo s.up s.pxc.x.toNat })
      fun c => { s with idx := colourIndex s.lo s.up s.pxc.x.toNat, col := opaqueColour c } := by
  unfold resolvePixel State.resolve
  dsimp only
  cases Cells.find (s.selr.toNat * 4 + (colourIndex s.lo s.up s.pxc.x.toNat).toNat) s.palette <;> rfl

theorem readLower_pxc (s : State) : (readLower s).pxc = s.pxc := by
  rw [readLower_eq_elim]
  cases s.tileByte s.pxc.b.toNat s.pxc.rowOffset <;> simp

/-- Every row offset lies in its bank of tile memory, and so does the offset after it. -/
theorem rowOffset_succ_lt (p : Pxc) : p.rowOffset + 1 < 8192 := by
  have ht := p.t.isLt
  have hy := p.y.isLt
  unfold Pxc.rowOffset
  omega

/-! The pass, from the accesses up. -/

section
variable {m : List Host.Cell} {s s' : State}

/-- Standing in bank 0, the engine finds the same byte in both. -/
theorem SameBankZero.tileByte_pxc (h : SameBankZero m s s') (hb : s.pxc.b = 0#1) {off : Nat} (hoff : off < 8192) :
    s'.tileByte s.pxc.b.toNat off = s.tileByte s.pxc.b.toNat off := by
  rw [hb]
  exact h.bytes off hoff

theorem SameBankZero.readLower (h : SameBankZero m s s') (hb : s.pxc.b = 0#1) :
    SameBankZero m (readLower s) (readLower s') := by
  have hbyte := h.tileByte_pxc hb (Nat.lt_of_succ_lt (rowOffset_succ_lt s.pxc))
  obtain rfl := h.eq
  rw [readLower_eq_elim, readLower_eq_elim]
  exact .elim hbyte (h.raise _ _) fun v => h.update fun s => { s with lo := v }

theorem SameBankZero.readUpper (h : SameBankZero m s s') (hb : s.pxc.b = 0#1) :
    SameBankZero m (readUpper s) (readUpper s') := by
  have hbyte := h.tileByte_pxc hb (rowOffset_succ_lt s.pxc)
  obtain rfl := h.eq
  rw [readUpper_eq_elim, readUpper_eq_elim]
  exact .elim hbyte (h.raise _ _) fun v => h.update fun s => { s with up := v }

theorem SameBankZero.resolvePixel (h : SameBankZero m s s') :
    SameBankZero m (resolvePixel s) (resolvePixel s') := by
  have hidx := h.update fun s => { s with idx := colourIndex s.lo s.up s.pxc.x.toNat }
  obtain rfl := h.eq
  rw [resolvePixel_eq_elim, resolvePixel_eq_elim]
  exact .elim rfl (hidx.raise _ _) fun c => hidx.update fun s => { s with col := opaqueColour c }

theorem SameBankZero.checkAtPxc (h : SameBankZero m s s') : SameBankZero m (checkAtPxc s) (checkAtPxc s') := by
  obtain rfl := h.eq
  exact .ite (h.raise _ _) (.ite (h.raise _ _) (.ite (h.raise _ _) (.ite (h.raise _ _) h)))

theorem SameBankZero.decodePixel (h : SameBankZero m s s') (b t y x : Nat) :
    SameBankZero m (decodePixel b t y x s) (decodePixel b t y x s') := by
  have hpxc := h.update fun s => { s with pxc := Pxc.of b t y x }
  have hchecked := hpxc.resolvePixel.checkAtPxc.ifOk hpxc.resolvePixel
  exact .ifOk ((hchecked.update writeTbufAtPxc).update writeMosaicAtPxc
    (ht := fun s => by simp [writeMosaicAtPxc])) hchecked

theorem SameBankZero.decodeRow (h : SameBankZero m s s') (t y : Nat) :
    SameBankZero m (decodeRow 0 t y s) (decodeRow 0 t y s') := by
  have hpxc := h.update fun s => { s with pxc := Pxc.of 0 t y 0 }
  have hlower := hpxc.readLower rfl
  have hfetched := (hlower.readUpper (by rw [readLower_pxc]; rfl)).ifOk hlower
  exact (hfetched.forEach fun x _ _ _ hs => hs.decodePixel 0 t y x).ifOk hfetched

theorem SameBankZero.decodeBody_mono (h : SameBankZero m s s') (sel : Byte) :
    SameBankZero m (decodeBody .mono sel s) (decodeBody .mono sel s') := by
  have hlatched := h.update (latchDecode .mono sel)
  refine hlatched.forEach fun b hb _ _ hs => ?_
  obtain rfl : b = 0 := Nat.lt_one_iff.mp (List.mem_range.mp hb)
  exact hs.forEach fun t _ _ _ hs => hs.forEach fun y _ _ _ hs => hs.decodeRow t y

/-- Acceptance and completion do not look at tile memory. -/
theorem SameBankZero.perform {body : State → State} (w : Word) (needsInit : Bool)
    (hbody : ∀ s s', SameBankZero m s s' → SameBankZero m (body s) (body s')) (h : SameBankZero m s s') :
    SameBankZero m (perform w needsInit body s) (perform w needsInit body s') := by
  have hdone := hbody _ _ (h.update fun s => { s with busy := true })
  have hcompleted : SameBankZero m (complete (body { s with busy := true }))
      (complete (body { s' with busy := true })) := .ifOk (hdone.update fun s => { s with busy := false }) hdone
  obtain rfl := h.eq
  exact .ite h (.ite (h.raise _ _) (.ite (h.raise _ _) hcompleted))

end

/-! Bank 1 (rule R173). -/

/-- The block of bank 1 lies right of every pixel of bank 0 (rules R68, R69). -/
theorem bank_pos_of_bankX_le {c : Cfg} {b t x : Nat} (hx : x < 8) (h : bankX c 1 ≤ pixelMx c b t x) : 1 ≤ b := by
  rw [← pixelMx_div c b t x hx]
  exact (Nat.le_div_iff_mul_le (bankPitch_pos c)).mpr h

/-- Settles O26: the pixels a mono pass does are of bank 0, and so are the bytes it reads. -/
theorem monoPassLeavesBankOne : Obligations.MonoPassLeavesBankOne := by
  unfold Obligations.MonoPassLeavesBankOne
  intro s u sel h
  obtain ⟨k, hk, hd⟩ := exec_decode_pixelsDone h
  refine ⟨?tbuf, ?mosaic, ?tiles⟩
  case tbuf =>
    intro t y x ht hy hx
    have hout : 1 * 24576 ≤ tbufIndex 1 t y x := not_lt.mp fun hlt =>
      absurd ((tbufIndex_lt_iff ht hy hx 1).mp hlt) (lt_irrefl 1)
    rw [State.tbufWord, State.tbufWord, hd.nb, hd.after _ (hk.trans hout)]
  case mosaic =>
    intro my mx hmx
    refine hd.mosaicWord_of_not_pixel hk fun hw b t y x hb0 hb ht hy hx heq => ?_
    have hlt := mosaicW_lt s.cfg s.nb
    obtain ⟨-, rfl⟩ := mosaicKey_inj (hw.trans hlt) ((pixelMx_lt s.cfg s.nb hb hx).trans hlt) heq
    exact absurd (bank_pos_of_bankX_le hx hmx) hb0.not_ge
  case tiles =>
    intro m hm
    have hsame : SameBankZero m s { s with tiles := m } := ⟨rfl, hm⟩
    have hpass := hsame.perform (encode (.decode .mono sel)) true fun _ _ hs => hs.decodeBody_mono sel
    obtain rfl := Host.Outcome.next.inj h
    exact congrArg Host.Outcome.next hpass.eq

end Sys2Proof.Machine
end

section
/-! SUPPORT. Overwriting state that a command neither reads nor writes: an overwriting function that commutes with the
command's rule commutes with the command. What command sequencing needs for that is said once, for every overwriting
function (rules R130, R210, R211). -/

namespace Sys2Proof.Machine

open Function (Commute)

/-- The rule of a command, between its acceptance and its completion (rule R130). -/
def commandBody : Instr → State → State
  | .init n => initBody n
  | .decode mode sel => decodeBody mode sel
  | .setpix bank tile ly lx => fun s => setPixelChecked bank.toNat tile.toNat ly.toNat lx.toNat s.arg s
  | .msnap => msnapBody
  | .tsnap bank tile => fun s => ifOk (showTile bank tile) (checkTile bank.toNat tile.toNat s)
  | .setbg => setbgBody
  | .getbg => getbgBody

/-- Every command is its rule, accepted and completed. -/
theorem exec_eq_perform (i : Instr) (s : State) :
    exec i s = .next (perform (encode i) (needsInit i) (commandBody i) s) := by
  cases i <;> rfl

/-- An accepted command does its rule and nothing else, if the rule raises no fault and leaves `BUSY` alone. -/
theorem exec_of_idle {i : Instr} {s : State} (h : s.idle) (hinit : needsInit i = true → s.inited = true)
    (hfault : ∀ s, (commandBody i s).fault = s.fault)
    (hbusy : Commute (commandBody i) fun s => { s with busy := false }) : exec i s = .next (commandBody i s) := by
  have hok : (commandBody i { s with busy := true }).fault = false := (hfault _).trans h.1
  have hrestored : { commandBody i { s with busy := true } with busy := false } = commandBody i s :=
    (hbusy _).symm.trans (congrArg (commandBody i) (busy_restored h.2))
  rw [exec_eq_perform, perform_of_idle h hinit, complete_of_ok hok, hrestored]

/-- `g` overwrites nothing that acceptance, fault entry and completion read or write, `INITED` aside. -/
structure Unsequenced (g : State → State) : Prop where
  fault : ∀ s, (g s).fault = s.fault
  busy : ∀ s, (g s).busy = s.busy
  faultedFrom : ∀ c info, Commute (faultedFrom c info) g
  setBusy : ∀ b, Commute (fun s => { s with busy := b }) g

/-- A choice commutes with `g` if `g` does not touch what is asked and both answers commute. -/
theorem commute_ite {p : State → Prop} [DecidablePred p] {f f' g : State → State} (hp : ∀ s, p (g s) ↔ p s)
    (hf : Commute f g) (hf' : Commute f' g) : Commute (fun s => if p s then f s else f' s) g := by
  intro s
  simp only [hp, apply_ite g, hf.eq, hf'.eq]

namespace Unsequenced

variable {g : State → State} (hg : Unsequenced g)
include hg

theorem fault_iff (s : State) : (g s).fault = true ↔ s.fault = true := by rw [hg.fault]

theorem busy_iff (s : State) : (g s).busy = true ↔ s.busy = true := by rw [hg.busy]

theorem raise (c : Cause) (info : Word) : Commute (raise c info) g :=
  commute_ite hg.fault_iff .id_left (hg.faultedFrom c info)

theorem ifOk {f : State → State} (hf : Commute f g) : Commute (ifOk f) g :=
  commute_ite hg.fault_iff .id_left hf

theorem forEach {α : Type} {f : α → State → State} (hf : ∀ a, Commute (f a) g) (as : List α) :
    Commute (forEach f as) g := by
  induction as with
  | nil => exact .id_left
  | cons a as ih => exact (hg.ifOk ih).comp_left (hf a)

theorem complete : Commute complete g := hg.ifOk (hg.setBusy false)

theorem perform {body : State → State} {needsInit : Bool}
    (hinited : needsInit = true → ∀ s, (g s).inited = s.inited) (hbody : Commute body g) (w : Word) :
    Commute (perform w needsInit body) g := by
  have hrefused (s : State) : (needsInit && !(g s).inited) = true ↔ (needsInit && !s.inited) = true := by
    cases needsInit with
    | false => exact Iff.rfl
    | true => rw [hinited rfl]
  have haccepted := hg.complete.comp_left (hbody.comp_left (hg.setBusy true))
  exact commute_ite hg.fault_iff .id_left (commute_ite hg.busy_iff (hg.raise .cmdOverlap w)
    (commute_ite hrefused (hg.raise .notInit w) haccepted))

/-- A command whose rule commutes with `g` commutes with `g`. -/
theorem exec {i : Instr} (hinited : needsInit i = true → ∀ s, (g s).inited = s.inited)
    (hbody : Commute (commandBody i) g) {s t : State} (h : exec i s = .next t) :
    exec i (g s) = .next (g t) := by
  rw [exec_eq_perform] at h ⊢
  rw [(hg.perform hinited hbody _).eq, Host.Outcome.next.inj h]

end Unsequenced

end Sys2Proof.Machine
end

section
/-! SUPPORT. The background slot (rules R190 to R192): the other commands commute with overwriting it, its own two
commands commute with overwriting what belongs to the canvas and complete from every idle state; from these O21, O19 and
O20. -/

namespace Sys2Proof.Machine

open Function (Commute)

/-- `s` with `v` and `r` in the background slot. -/
def withSlot (v : Bool) (r : Word) (s : State) : State := { s with bgvalid := v, bgref := r }

theorem withSlot_unsequenced (v : Bool) (r : Word) : Unsequenced (withSlot v r) where
  fault _ := rfl
  busy _ := rfl
  faultedFrom _ _ _ := rfl
  setBusy _ _ := rfl

/-! No rule of the other five commands reads or writes the slot. -/

section
variable (v : Bool) (r : Word)

theorem raise_withSlot (c : Cause) (info : Word) : Commute (raise c info) (withSlot v r) :=
  (withSlot_unsequenced v r).raise c info

theorem ifOk_withSlot {f : State → State} (hf : Commute f (withSlot v r)) : Commute (ifOk f) (withSlot v r) :=
  (withSlot_unsequenced v r).ifOk hf

theorem checkBankcount_withSlot (n : BitVec 2) : Commute (checkBankcount n) (withSlot v r) :=
  commute_ite (fun _ => .rfl) (raise_withSlot v r _ _) .id_left

theorem checkTile_withSlot (b t : Nat) : Commute (checkTile b t) (withSlot v r) :=
  commute_ite (fun _ => .rfl) (raise_withSlot v r _ _) (commute_ite (fun _ => .rfl) (raise_withSlot v r _ _) .id_left)

theorem checkPixel_withSlot (b t y x : Nat) : Commute (checkPixel b t y x) (withSlot v r) := by
  have hraise (c : Cause) := raise_withSlot v r c (coordInfo b t y x)
  exact commute_ite (fun _ => .rfl) (hraise _) (commute_ite (fun _ => .rfl) (hraise _)
    (commute_ite (fun _ => .rfl) (hraise _) (commute_ite (fun _ => .rfl) (hraise _) .id_left)))

theorem setPixelChecked_withSlot (b t y x : Nat) (c : Word) : Commute (setPixelChecked b t y x c) (withSlot v r) :=
  (ifOk_withSlot v r (f := setPixel b t y x c) fun _ => rfl).comp_left (checkPixel_withSlot v r b t y x)

theorem readLower_withSlot : Commute readLower (withSlot v r) := by
  intro s
  rw [readLower_eq_elim, readLower_eq_elim, ← Option.elim_comp (withSlot v r), ← (raise_withSlot v r _ _).eq]
  rfl

theorem readUpper_withSlot : Commute readUpper (withSlot v r) := by
  intro s
  rw [readUpper_eq_elim, readUpper_eq_elim, ← Option.elim_comp (withSlot v r), ← (raise_withSlot v r _ _).eq]
  rfl

theorem resolvePixel_withSlot : Commute resolvePixel (withSlot v r) := by
  intro s
  rw [resolvePixel_eq_elim, resolvePixel_eq_elim, ← Option.elim_comp (withSlot v r), ← (raise_withSlot v r _ _).eq]
  rfl

theorem checkAtPxc_withSlot : Commute checkAtPxc (withSlot v r) :=
  fun s => checkPixel_withSlot v r s.pxc.b.toNat s.pxc.t.toNat s.pxc.y.toNat s.pxc.x.toNat s

theorem decodePixel_withSlot (b t y x : Nat) : Commute (decodePixel b t y x) (withSlot v r) := by
  have hlatch : Commute (fun s => { s with pxc := Pxc.of b t y x }) (withSlot v r) := fun _ => rfl
  have hwrite : Commute (fun s => writeMosaicAtPxc (writeTbufAtPxc s)) (withSlot v r) := fun _ => rfl
  exact (ifOk_withSlot v r hwrite).comp_left ((ifOk_withSlot v r (checkAtPxc_withSlot v r)).comp_left
    ((resolvePixel_withSlot v r).comp_left hlatch))

theorem decodeRow_withSlot (b t y : Nat) : Commute (decodeRow b t y) (withSlot v r) := by
  have hlatch : Commute (fun s => { s with pxc := Pxc.of b t y 0 }) (withSlot v r) := fun _ => rfl
  have hpixels := (withSlot_unsequenced v r).forEach (decodePixel_withSlot v r b t y) (List.range 8)
  exact (ifOk_withSlot v r hpixels).comp_left ((ifOk_withSlot v r (readUpper_withSlot v r)).comp_left
    ((readLower_withSlot v r).comp_left hlatch))

theorem decodeBody_withSlot (mode : Mode) (sel : Byte) : Commute (decodeBody mode sel) (withSlot v r) := by
  have hg := withSlot_unsequenced v r
  have htile (b t : Nat) : Commute (decodeTile b t) (withSlot v r) := hg.forEach (decodeRow_withSlot v r b t) _
  have hbank (b : Nat) : Commute (decodeBank b) (withSlot v r) := hg.forEach (htile b) _
  have hlatch : Commute (latchDecode mode sel) (withSlot v r) := fun _ => rfl
  exact (hg.forEach hbank _).comp_left hlatch

theorem commandBody_withSlot {i : Instr} (hset : i ≠ .setbg) (hget : i ≠ .getbg) :
    Commute (commandBody i) (withSlot v r) := by
  cases i with
  | init n =>
    have heffect : Commute (fun s => finishInit (recreate n s)) (withSlot v r) := fun _ => rfl
    exact (ifOk_withSlot v r heffect).comp_left (checkBankcount_withSlot v r n)
  | decode mode sel => exact decodeBody_withSlot v r mode sel
  | setpix bank tile ly lx =>
    exact fun s => setPixelChecked_withSlot v r bank.toNat tile.toNat ly.toNat lx.toNat s.arg s
  | msnap => exact fun _ => rfl
  | tsnap bank tile =>
    have heffect : Commute (showTile bank tile) (withSlot v r) := fun _ => rfl
    exact (ifOk_withSlot v r heffect).comp_left (checkTile_withSlot v r bank.toNat tile.toNat)
  | setbg => exact absurd rfl hset
  | getbg => exact absurd rfl hget

theorem exec_withSlot {i : Instr} (hset : i ≠ .setbg) (hget : i ≠ .getbg) {s t : State} (h : exec i s = .next t) :
    exec i (withSlot v r s) = .next (withSlot v r t) :=
  (withSlot_unsequenced v r).exec (fun _ _ => rfl) (commandBody_withSlot v r hset hget) h

end

/-- A command that commutes with overwriting the slot leaves it as it was: overwrite it with what it holds. -/
theorem exec_keeps_slot {i : Instr} (hset : i ≠ .setbg) (hget : i ≠ .getbg) {s t : State} (h : exec i s = .next t) :
    t.bgvalid = s.bgvalid ∧ t.bgref = s.bgref := by
  have hsame : t = withSlot s.bgvalid s.bgref t :=
    Host.Outcome.next.inj (h.symm.trans (exec_withSlot s.bgvalid s.bgref hset hget h))
  rw [hsame]
  exact ⟨rfl, rfl⟩

/-! The slot's own two commands. -/

/-- `s` with other pixel memories, `NB`, `INITED` and `WINSEL`. -/
def withCanvas (tbuf mosaic : Cells Word) (nb : BitVec 2) (inited : Bool) (winsel : WinSel) (s : State) : State :=
  { s with tbuf := tbuf, mosaic := mosaic, nb := nb, inited := inited, winsel := winsel }

theorem withCanvas_unsequenced (m n : Cells Word) (k : BitVec 2) (v : Bool) (w : WinSel) :
    Unsequenced (withCanvas m n k v w) where
  fault _ := rfl
  busy _ := rfl
  faultedFrom _ _ _ := rfl
  setBusy _ _ := rfl

/-- Neither command needs `INITED = 1`, so neither reads it (rule R190). -/
theorem exec_withCanvas {i : Instr} (hi : i = .setbg ∨ i = .getbg) (m n : Cells Word) (k : BitVec 2) (v : Bool)
    (w : WinSel) {s t : State} (h : exec i s = .next t) :
    exec i (withCanvas m n k v w s) = .next (withCanvas m n k v w t) := by
  refine (withCanvas_unsequenced m n k v w).exec ?inited ?body h
  case inited => rcases hi with rfl | rfl <;> exact nofun
  case body => rcases hi with rfl | rfl <;> exact fun _ => rfl

theorem exec_keeps_canvas {i : Instr} (hi : i = .setbg ∨ i = .getbg) {s t : State} (h : exec i s = .next t) :
    t.tbuf = s.tbuf ∧ t.mosaic = s.mosaic ∧ t.nb = s.nb ∧ t.inited = s.inited ∧ t.winsel = s.winsel := by
  have hsame : t = withCanvas s.tbuf s.mosaic s.nb s.inited s.winsel t :=
    Host.Outcome.next.inj (h.symm.trans (exec_withCanvas hi s.tbuf s.mosaic s.nb s.inited s.winsel h))
  rw [hsame]
  exact ⟨rfl, rfl, rfl, rfl, rfl⟩

theorem exec_setbg_of_idle {s : State} (h : s.idle) : exec .setbg s = .next (setbgBody s) :=
  exec_of_idle h nofun (fun _ => rfl) fun _ => rfl

theorem exec_getbg_of_idle {s : State} (h : s.idle) : exec .getbg s = .next (getbgBody s) :=
  exec_of_idle h nofun (fun _ => rfl) fun _ => rfl

/-- Settles O21: the commands commute with overwriting what they have no part in, and so leave it as it was. -/
theorem slotIsIndependent : Obligations.SlotIsIndependent := by
  unfold Obligations.SlotIsIndependent
  refine ⟨?others, ?own, ?accepted⟩
  case others =>
    intro i s t v r hset hget h
    obtain ⟨hvalid, href⟩ := exec_keeps_slot hset hget h
    exact ⟨hvalid, href, exec_withSlot v r hset hget h⟩
  case own =>
    intro i s t m n k v w hi h
    obtain ⟨htbuf, hmosaic, hnb, hinited, hwinsel⟩ := exec_keeps_canvas hi h
    exact ⟨htbuf, hmosaic, hnb, hinited, hwinsel, exec_withCanvas hi m n k v w h⟩
  case accepted =>
    rintro i s (rfl | rfl) hidle
    · exact ⟨_, exec_setbg_of_idle hidle, hidle⟩
    · exact ⟨_, exec_getbg_of_idle hidle, hidle⟩

/-- No command empties the slot (rule R191, corner case b): only `SETBG` writes it. -/
theorem exec_keeps_bgvalid {i : Instr} {s t : State} (hv : s.bgvalid = true) (h : exec i s = .next t) :
    t.bgvalid = true := by
  by_cases hi : i = .setbg ∨ i = .getbg
  · rcases exec_cases h with ⟨-, rfl⟩ | ⟨-, c, info, rfl⟩ | ⟨-, -, hc⟩
    · exact hv
    · exact hv
    · rcases hi with rfl | rfl
      · rw [show t = setbgBody s from hc]
        rfl
      · rw [show t = getbgBody s from hc]
        exact hv
  · obtain ⟨hset, hget⟩ := not_or.mp hi
    rw [(exec_keeps_slot hset hget h).1, hv]

/-- Settles O19: an accepted `SETBG` is its rule, and no command empties the slot. -/
theorem setbgStoresArg : Obligations.SetbgStoresArg := by
  unfold Obligations.SetbgStoresArg
  exact ⟨fun s hidle => exec_setbg_of_idle hidle, fun i s t hv h => exec_keeps_bgvalid hv h⟩

/-- The rule of `GETBG` by what the slot holds (rule R192). -/
theorem getbgBody_of_valid {s : State} (h : s.bgvalid = true) : getbgBody s = { s with result := s.bgref } := by
  rw [getbgBody, if_pos h]

theorem getbgBody_of_empty {s : State} (h : s.bgvalid = false) : getbgBody s = { s with result := 0#32 } := by
  rw [getbgBody, if_neg (Bool.eq_false_iff.mp h)]

/-- Settles O20: an accepted `GETBG` is its rule, and after a `SETBG` the slot holds the `ARG` of that command. -/
theorem getbgReturnsTheReference : Obligations.GetbgReturnsTheReference := by
  unfold Obligations.GetbgReturnsTheReference
  refine ⟨?full, ?empty, ?afterSetbg⟩
  case full =>
    intro s hidle hv
    rw [exec_getbg_of_idle hidle, getbgBody_of_valid hv]
  case empty =>
    intro s hidle hv
    rw [exec_getbg_of_idle hidle, getbgBody_of_empty hv]
  case afterSetbg =>
    intro s a hidle
    have hidle' : ({ setbgBody s with arg := a } : State).idle := hidle
    exact ⟨_, _, exec_setbg_of_idle hidle, exec_getbg_of_idle hidle', rfl⟩

end Sys2Proof.Machine
end

section
/-! SUPPORT. The faulted machine (rules R204, R212): fault entry, then one rule for each thing the host or the engine
can do while `FAULT = 1`, and from them O8 and O7. -/

namespace Sys2Proof.Machine

/-- Settles O8: fault entry is `faultedFrom`, and once `BUSY = 0` the engine has stopped. -/
theorem faultEntry : Obligations.FaultEntry := by
  unfold Obligations.FaultEntry
  refine ⟨?entry, by decide⟩
  intro c info s hok
  have hstopped : microStep (raise c info s) = raise c info s := microStep_of_stopped (.inr (raise_fault c info s))
  exact ⟨raise_of_ok hok c info, hstopped⟩

/-! What a step is, by the host's next action (rule R203). -/

theorem step_of_no_action {s : State} (h : s.script = []) : step s = .next (microStep s) := by
  rw [step, turn, h]

theorem step_of_action {s : State} {a : HostAction} {rest : List HostAction} (h : s.script = a :: rest) :
    step s = act a { s with script := rest } := by
  rw [step, turn, h]

section
variable {s : State} (h : s.fault = true)
include h

/-! Commands (rule R130): acceptance ignores every word, legal or not, at either level. -/

theorem accept_of_fault (w : Word) (needsInit : Bool) (start : State → State) : accept w needsInit start s = s :=
  if_pos h

theorem rejectWord_of_fault (w : Word) : rejectWord w s = s := if_pos h

theorem exec_of_fault (i : Instr) : exec i s = .next s := by
  rw [exec_eq_perform, perform, accept_of_fault h]

theorem portWrite_cmd_of_fault (w : Word) : portWrite 0#21 w s = .next s := by
  cases hd : decode w with
  | error e => rw [portWrite_cmd_of_error hd, rejectWord_of_fault h]
  | ok i =>
    show commandWrite w s = _
    rw [commandWrite, hd]
    exact exec_of_fault h i

theorem commandIssue_of_fault (w : Word) : commandIssue w s = .next s := by
  cases hd : decode w with
  | error e => rw [commandIssue_of_error hd, rejectWord_of_fault h]
  | ok i =>
    rw [commandIssue, hd]
    cases i with
    | init n => exact congrArg Host.Outcome.next (accept_of_fault h ..)
    | decode mode sel => exact congrArg Host.Outcome.next (accept_of_fault h ..)
    | _ => exact exec_of_fault h _

/-! The host port (rules R35, R73, R212). -/

theorem portWrite_of_fault {off : BitVec 21} (harg : off ≠ 2#21) (v : Word) : portWrite off v s = .next s := by
  by_cases hcmd : off = 0#21
  · rw [hcmd, portWrite_cmd_of_fault h]
  · by_cases hunmapped : 7 ≤ off.toNat ∧ off.toNat ≤ 0xFFFFF
    · rw [portWrite_unmapped hunmapped.1 hunmapped.2, raise_of_fault h]
    · exact portWrite_ignored hcmd harg (by omega) v s

theorem portRead_of_fault {off : BitVec 21} (hoff : 7 ≤ off.toNat) :
    portRead off s = .next { s with rdata := 0#32 } := by
  by_cases hunmapped : off.toNat ≤ 0xFFFFF
  · rw [portRead_unmapped hoff hunmapped, raise_of_fault h]
  · rw [portRead_window (by omega), windowRead_of_fault h]

end

/-- `t` is `s` but for `ARG`, the host's read latch and the inputs the host owns. -/
def hostSideOnly (s t : State) : Prop :=
  t = { s with arg := t.arg, rdata := t.rdata, tiles := t.tiles, palette := t.palette, script := t.script }

theorem act_of_fault {s : State} (h : s.fault = true) {a : HostAction} (ha : a ≠ .reset) :
    ∃ t, act a s = .next t ∧ hostSideOnly s t := by
  cases a with
  | write off w =>
    by_cases harg : off = 2#21
    · rw [harg]
      exact ⟨_, portWrite_arg w s, rfl⟩
    · exact ⟨s, portWrite_of_fault h harg w, rfl⟩
  | issue w => exact ⟨s, commandIssue_of_fault h w, rfl⟩
  | read off =>
    by_cases hregister : off.toNat < 7
    · exact ⟨_, portRead_register hregister s, rfl⟩
    · exact ⟨_, portRead_of_fault h (by omega), rfl⟩
  | wait =>
    have hstopped := microStep_of_stopped (s := { s with script := .wait :: s.script }) (.inr h)
    refine ⟨_, rfl, ?_⟩
    rw [hstopped]
    split <;> rfl
  | turn => exact ⟨s, congrArg Host.Outcome.next (microStep_of_stopped (.inr h)), rfl⟩
  | tileByte bank off v => exact ⟨_, rfl, rfl⟩
  | resolver sel idx answer => exact ⟨_, rfl, rfl⟩
  | reset => exact absurd rfl ha

theorem step_of_fault {s : State} (h : s.fault = true) (hreset : s.script.head? ≠ some .reset) :
    ∃ t, step s = .next t ∧ hostSideOnly s t := by
  cases hs : s.script with
  | nil =>
    rw [step_of_no_action hs, microStep_of_stopped (.inr h)]
    exact ⟨s, rfl, rfl⟩
  | cons a rest =>
    have ha : a ≠ .reset := by
      rintro rfl
      exact hreset (by rw [hs, List.head?_cons])
    rw [step_of_action hs]
    exact act_of_fault (s := { s with script := rest }) h ha

/-- Settles O7: each clause is the faulted machine's rule for that access, and a reset is the reset event. -/
theorem faultIsSink : Obligations.FaultIsSink := by
  unfold Obligations.FaultIsSink
  intro s h
  refine ⟨step_of_fault h, raise_of_fault h, fun w => ⟨portWrite_cmd_of_fault h w, commandIssue_of_fault h w⟩,
    microStep_of_stopped (.inr h), fun v => portWrite_arg v s, ?write, fun _ hoff => portRead_register hoff s,
    fun _ hoff => portRead_of_fault h hoff, fun _ hs => ⟨_, step_of_action hs, rfl⟩⟩
  case write =>
    intro off v hoff
    have harg : off ≠ 2#21 := by
      rintro rfl
      exact absurd hoff (by decide)
    exact portWrite_of_fault h harg v

end Sys2Proof.Machine
end

section
/-! SUPPORT. The word of a command is the only word that decodes to it (rules R100 to R107): the bits the row fixes and
the operand fields together are the whole word. -/

namespace Sys2Proof.Machine

/-- A field that lies in a row's mask holds what the row asks for. -/
theorem extractLsb'_of_masked {w mask row : Word} {k n : Nat} (h : w &&& mask = row)
    (hmask : mask.extractLsb' k n = BitVec.allOnes n) : w.extractLsb' k n = row.extractLsb' k n := by
  rw [← h, BitVec.extractLsb'_and, hmask, BitVec.and_allOnes]

/-- A row whose mask is all ones is matched by one word only. -/
theorem eq_of_fully_masked {w row : Word} (h : w &&& 0xFFFFFFFF#32 = row) : row = w :=
  h.symm.trans BitVec.and_allOnes

theorem bit_ofBit : ∀ m : BitVec 1, (Mode.ofBit m).bit = m := by decide

/-! One lemma a format with operands (rules R102, R103, R104, R106). -/

theorem encode_init_of_match {w : Word} (h : w &&& 0xFFFFFFFC#32 = 0x10000000#32) :
    encode (.init (w.extractLsb' 0 2)) = w := by
  have hopcode : w.extractLsb' 28 4 = 0x1#4 := extractLsb'_of_masked h (by decide)
  have hreserved : w.extractLsb' 2 26 = 0#26 := extractLsb'_of_masked h (by decide)
  rw [encode, ← hopcode, ← hreserved]
  simp (disch := rfl) only [BitVec.extractLsb'_append_extractLsb'_eq_extractLsb']
  exact BitVec.extractLsb'_eq_self

theorem encode_decode_of_match {w : Word} (h : w &&& 0xFFFFFE00#32 = 0x20000000#32) :
    encode (.decode (Mode.ofBit (w.extractLsb' 8 1)) (w.extractLsb' 0 8)) = w := by
  have hopcode : w.extractLsb' 28 4 = 0x2#4 := extractLsb'_of_masked h (by decide)
  have hreserved : w.extractLsb' 9 19 = 0#19 := extractLsb'_of_masked h (by decide)
  rw [encode, bit_ofBit, ← hopcode, ← hreserved]
  simp (disch := rfl) only [BitVec.extractLsb'_append_extractLsb'_eq_extractLsb']
  exact BitVec.extractLsb'_eq_self

theorem encode_setpix_of_match {w : Word} (h : w &&& 0xFFF00000#32 = 0x30000000#32) :
    encode (.setpix (w.extractLsb' 18 2) (w.extractLsb' 8 10) (w.extractLsb' 4 4) (w.extractLsb' 0 4)) = w := by
  have hopcode : w.extractLsb' 28 4 = 0x3#4 := extractLsb'_of_masked h (by decide)
  have hreserved : w.extractLsb' 20 8 = 0#8 := extractLsb'_of_masked h (by decide)
  rw [encode, ← hopcode, ← hreserved]
  simp (disch := rfl) only [BitVec.extractLsb'_append_extractLsb'_eq_extractLsb']
  exact BitVec.extractLsb'_eq_self

theorem encode_tsnap_of_match {w : Word} (h : w &&& 0xFFF000FF#32 = 0x50000000#32) :
    encode (.tsnap (w.extractLsb' 18 2) (w.extractLsb' 8 10)) = w := by
  have hopcode : w.extractLsb' 28 4 = 0x5#4 := extractLsb'_of_masked h (by decide)
  have hhigh : w.extractLsb' 20 8 = 0#8 := extractLsb'_of_masked h (by decide)
  have hlow : w.extractLsb' 0 8 = 0#8 := extractLsb'_of_masked h (by decide)
  have hfields : w.extractLsb' 28 4 ++ w.extractLsb' 20 8 ++ w.extractLsb' 18 2 ++ w.extractLsb' 8 10 ++
      w.extractLsb' 0 8 = w := by
    simp (disch := rfl) only [BitVec.extractLsb'_append_extractLsb'_eq_extractLsb']
    exact BitVec.extractLsb'_eq_self
  rwa [hopcode, hhigh, hlow] at hfields

/-- A word that decodes is the word of its command: case by case along the rows of the decoder. -/
theorem encode_of_decode {w : Word} {i : Instr} (h : decode w = .ok i) : encode i = w := by
  unfold decode at h
  split_ifs at h with hinit hdecode hsetpix hmsnap htsnap hsetbg hgetbg <;> cases h
  · exact encode_init_of_match hinit
  · exact encode_decode_of_match hdecode
  · exact encode_setpix_of_match hsetpix
  · exact eq_of_fully_masked hmsnap
  · exact encode_tsnap_of_match htsnap
  · exact eq_of_fully_masked hsetbg
  · exact eq_of_fully_masked hgetbg

end Sys2Proof.Machine
end

section
/-! SUPPORT. Commands while `BUSY = 1` (rules R203, R250): acceptance raises `CMD_OVERLAP` with the word for every
command, legal or not, at either level; from this O9. -/

namespace Sys2Proof.Machine

/-- A legal word written to `CMD` is its command (rules R10, R130). -/
theorem portWrite_cmd_of_ok {w : Word} {i : Instr} (h : decode w = .ok i) (s : State) :
    portWrite 0#21 w s = exec i s := by
  show commandWrite w s = _
  rw [commandWrite, h]

/-- A word issued to the engine is refused, or started by acceptance (`INIT` and `DECODE`), or its command (rules R10,
R130). -/
theorem commandIssue_cases (w : Word) (s : State) :
    commandIssue w s = .next (rejectWord w s) ∨
    (∃ n, commandIssue w s = .next (accept w false (startInit n) s)) ∨
    (∃ mode sel, commandIssue w s = .next (accept w true (startDecode mode sel) s)) ∨
    (∃ i, decode w = .ok i ∧ commandIssue w s = exec i s) := by
  unfold commandIssue
  split
  · exact .inr (.inl ⟨_, rfl⟩)
  · exact .inr (.inr (.inl ⟨_, _, rfl⟩))
  · exact .inr (.inr (.inr ⟨_, ‹_›, rfl⟩))
  · exact .inl rfl

section
variable {s : State} (hok : s.fault = false) (hbusy : s.busy = true)
include hok hbusy

theorem accept_of_busy (w : Word) (needsInit : Bool) (start : State → State) :
    accept w needsInit start s = faultedFrom .cmdOverlap w s := by
  rw [accept, if_neg (Bool.eq_false_iff.mp hok), if_pos hbusy, raise_of_ok hok]

theorem rejectWord_of_busy (w : Word) : rejectWord w s = faultedFrom .cmdOverlap w s := by
  rw [rejectWord, if_neg (Bool.eq_false_iff.mp hok), if_pos hbusy, raise_of_ok hok]

theorem exec_of_busy (i : Instr) : exec i s = .next (faultedFrom .cmdOverlap (encode i) s) := by
  rw [exec_eq_perform, perform, accept_of_busy hok hbusy]

theorem portWrite_cmd_of_busy (w : Word) : portWrite 0#21 w s = .next (faultedFrom .cmdOverlap w s) := by
  cases hd : decode w with
  | error e => rw [portWrite_cmd_of_error hd, rejectWord_of_busy hok hbusy]
  | ok i => rw [portWrite_cmd_of_ok hd, exec_of_busy hok hbusy, encode_of_decode hd]

theorem commandIssue_of_busy (w : Word) : commandIssue w s = .next (faultedFrom .cmdOverlap w s) := by
  rcases commandIssue_cases w s with hrejected | ⟨n, hinit⟩ | ⟨mode, sel, hdecode⟩ | ⟨i, hd, hexec⟩
  · rw [hrejected, rejectWord_of_busy hok hbusy]
  · rw [hinit, accept_of_busy hok hbusy]
  · rw [hdecode, accept_of_busy hok hbusy]
  · rw [hexec, exec_of_busy hok hbusy, encode_of_decode hd]

end

/-- Settles O9: the busy port answers every word with `CMD_OVERLAP`, and the faulted engine has stopped. -/
theorem commandWhileBusyOverlaps : Obligations.CommandWhileBusyOverlaps := by
  unfold Obligations.CommandWhileBusyOverlaps
  intro s hok hbusy
  exact ⟨fun w => ⟨portWrite_cmd_of_busy hok hbusy w, commandIssue_of_busy hok hbusy w⟩, exec_of_busy hok hbusy,
    fun w => microStep_of_stopped (.inr rfl)⟩

end Sys2Proof.Machine
end

section
/-! SUPPORT. What a step does to the background slot (rules R191, R240): the engine and the acceptance of its two
commands commute with overwriting the slot, the host port leaves it alone or runs a command; from these and the faulted
machine's step O48. -/

namespace Sys2Proof.Machine

open Function (Commute)

/-! The engine (rules R10, R170). -/

section
variable (v : Bool) (r : Word)

theorem goTo_withSlot {f : State → State} (hf : Commute f (withSlot v r)) (p : Phase) :
    Commute (fun s => goTo p (f s)) (withSlot v r) :=
  (ifOk_withSlot v r (f := fun s => { s with phase := p }) fun _ => rfl).comp_left hf

theorem advance_withSlot : Commute advance (withSlot v r) :=
  commute_ite (fun _ => .rfl) (fun _ => rfl) (commute_ite (fun _ => .rfl) (fun _ => rfl)
    (commute_ite (fun _ => .rfl) (fun _ => rfl) (commute_ite (fun _ => .rfl) (fun _ => rfl) fun _ => rfl)))

/-- No micro-step reads or writes the slot: phase by phase. -/
theorem microStep_withSlot : Commute microStep (withSlot v r) := by
  refine commute_ite (p := fun s => (s.busy && !s.fault) = true) (fun _ => .rfl) ?running .id_left
  intro s
  have hphase : (withSlot v r s).phase = s.phase := rfl
  dsimp only
  rw [hphase]
  cases s.phase with
  | idle => rfl
  | paintTile n i =>
    exact (apply_ite (withSlot v r) (i + 1 < tbufSize n) { paintTileWord i s with phase := .paintTile n (i + 1) }
      { paintTileWord i s with phase := .paintMosaic n 0 }).symm
  | paintMosaic n i =>
    exact (apply_ite (withSlot v r) (i + 1 < mosaicSize s.cfg n)
      { paintMosaicWord n i s with phase := .paintMosaic n (i + 1) } (completeInit n (paintMosaicWord n i s))).symm
  | readLower => exact goTo_withSlot v r (readLower_withSlot v r) .readUpper s
  | readUpper => exact goTo_withSlot v r (readUpper_withSlot v r) .resolve s
  | resolve => exact goTo_withSlot v r (resolvePixel_withSlot v r) .check s
  | check => exact goTo_withSlot v r (checkAtPxc_withSlot v r) .writeTile s
  | writeTile => exact goTo_withSlot v r (f := writeTbufAtPxc) (fun _ => rfl) .writeMosaic s
  | writeMosaic => exact advance_withSlot v r (writeMosaicAtPxc s)

/-! Acceptance of the two commands the engine runs (rule R130). -/

theorem accept_withSlot {start : State → State} (hstart : Commute start (withSlot v r)) (w : Word)
    (needsInit : Bool) : Commute (accept w needsInit start) (withSlot v r) := by
  have haccepted := hstart.comp_left ((withSlot_unsequenced v r).setBusy true)
  exact commute_ite (fun _ => .rfl) .id_left (commute_ite (fun _ => .rfl) (raise_withSlot v r .cmdOverlap w)
    (commute_ite (fun _ => .rfl) (raise_withSlot v r .notInit w) haccepted))

theorem startInit_withSlot (n : BitVec 2) : Commute (startInit n) (withSlot v r) :=
  goTo_withSlot v r (checkBankcount_withSlot v r n) (.paintTile n 0)

end

/-- What commutes with overwriting the slot leaves it as it was: overwrite it with what it holds. -/
theorem bgvalid_of_commute {f : State → State} (hf : ∀ v r, Commute f (withSlot v r)) (s : State) :
    (f s).bgvalid = s.bgvalid := by
  have hsame : f s = withSlot s.bgvalid s.bgref (f s) := hf s.bgvalid s.bgref s
  rw [hsame]
  rfl

theorem microStep_bgvalid (s : State) : (microStep s).bgvalid = s.bgvalid :=
  bgvalid_of_commute microStep_withSlot s

/-! The host port (rules R34, R35, R72, R73). -/

theorem raise_bgvalid (c : Cause) (info : Word) (s : State) : (raise c info s).bgvalid = s.bgvalid := by simp

theorem rejectWord_bgvalid (w : Word) (s : State) : (rejectWord w s).bgvalid = s.bgvalid := by
  unfold rejectWord
  split_ifs <;> simp

theorem answerPixel_bgvalid {v : Option Word} {s t : State} (h : answerPixel v s = .next t) :
    t.bgvalid = s.bgvalid := by
  cases v <;> cases h
  rfl

theorem windowRead_bgvalid {i : Nat} {s t : State} (h : windowRead i s = .next t) : t.bgvalid = s.bgvalid := by
  unfold windowRead at h
  split_ifs at h with hfault houtside hbusy
  · cases h
    rfl
  · cases h
    exact raise_bgvalid ..
  · exact answerPixel_bgvalid (s := { s with picks := s.picks + 1 }) h
  · exact answerPixel_bgvalid h

theorem portRead_bgvalid {off : BitVec 21} {s t : State} (h : portRead off s = .next t) : t.bgvalid = s.bgvalid := by
  unfold portRead at h
  split_ifs at h with hregister hunmapped
  · cases h
    rfl
  · cases h
    exact raise_bgvalid ..
  · exact windowRead_bgvalid h

theorem portWrite_keeps_bgvalid {off : BitVec 21} {w : Word} {s t : State} (hv : s.bgvalid = true)
    (h : portWrite off w s = .next t) : t.bgvalid = true := by
  unfold portWrite commandWrite at h
  split_ifs at h with hcmd harg hunmapped
  · split at h
    · exact exec_keeps_bgvalid hv h
    · cases h
      rw [rejectWord_bgvalid, hv]
  · cases h
    exact hv
  · cases h
    rw [raise_bgvalid, hv]
  · cases h
    exact hv

theorem commandIssue_keeps_bgvalid {w : Word} {s t : State} (hv : s.bgvalid = true)
    (h : commandIssue w s = .next t) : t.bgvalid = true := by
  rcases commandIssue_cases w s with hc | ⟨n, hc⟩ | ⟨mode, sel, hc⟩ | ⟨i, -, hc⟩ <;> rw [hc] at h
  · cases h
    rw [rejectWord_bgvalid, hv]
  · cases h
    rw [bgvalid_of_commute fun v r => accept_withSlot v r (startInit_withSlot v r n) w false, hv]
  · cases h
    have hstart (v : Bool) (r : Word) : Commute (startDecode mode sel) (withSlot v r) := fun _ => rfl
    rw [bgvalid_of_commute fun v r => accept_withSlot v r (hstart v r) w true, hv]
  · exact exec_keeps_bgvalid hv h

/-! One step (rules R203, R240). -/

theorem act_keeps_bgvalid {a : HostAction} (ha : a ≠ .reset) {s t : State} (hv : s.bgvalid = true)
    (h : act a s = .next t) : t.bgvalid = true := by
  cases a with
  | write off w => exact portWrite_keeps_bgvalid hv h
  | issue w => exact commandIssue_keeps_bgvalid hv h
  | read off => exact (portRead_bgvalid h).trans hv
  | wait =>
    cases h
    split
    · exact (microStep_bgvalid _).trans hv
    · exact hv
  | turn =>
    cases h
    exact (microStep_bgvalid s).trans hv
  | tileByte bank off v =>
    cases h
    exact hv
  | resolver sel idx answer =>
    cases h
    exact hv
  | reset => exact absurd rfl ha

theorem step_keeps_bgvalid {s t : State} (hreset : s.script.head? ≠ some .reset) (hv : s.bgvalid = true)
    (h : step s = .next t) : t.bgvalid = true := by
  cases hs : s.script with
  | nil =>
    rw [step_of_no_action hs] at h
    cases h
    exact (microStep_bgvalid s).trans hv
  | cons a rest =>
    have ha : a ≠ .reset := by
      rintro rfl
      exact hreset (by rw [hs, List.head?_cons])
    rw [step_of_action hs] at h
    exact act_keeps_bgvalid (s := { s with script := rest }) ha hv h

/-- `FAULT` is not among what a faulted machine's step can change (rule R204). -/
theorem step_keeps_fault {s t : State} (hreset : s.script.head? ≠ some .reset) (hfault : s.fault = true)
    (h : step s = .next t) : t.fault = true := by
  obtain ⟨u, hu, hside⟩ := step_of_fault hfault hreset
  obtain rfl : u = t := Host.Outcome.next.inj (hu.symm.trans h)
  exact (congrArg State.fault hside).trans hfault

/-- Settles O48: a reset step is the reset event, and every other step keeps `FAULT` and a full slot. The name
`resetEvent` is the model's. -/
theorem resetEventObligation : Obligations.ResetEvent := by
  unfold Obligations.ResetEvent
  refine ⟨fun s rest hs => ⟨_, step_of_action hs, rfl⟩, ?others⟩
  intro s t hreset h
  exact ⟨fun hfault => step_keeps_fault hreset hfault h, fun hv => step_keeps_bgvalid hreset hv h⟩

end Sys2Proof.Machine
end

section
/-! SUPPORT. The encoder is injective (rules R102 to R107): the row of a word tells the command apart, and the operand
fields stand side by side. From this and `encode_of_decode` O1 and O2. -/

namespace Sys2Proof.Machine

/-- Two parts set side by side can be told apart again. -/
theorem append_inj {m n : Nat} {a a' : BitVec m} {b b' : BitVec n} (h : a ++ b = a' ++ b') : a = a' ∧ b = b' := by
  constructor
  · rw [← BitVec.extractLsb'_append_eq_left (a := a) (b := b), h, BitVec.extractLsb'_append_eq_left]
  · rw [← BitVec.extractLsb'_append_eq_right (a := a) (b := b), h, BitVec.extractLsb'_append_eq_right]

open Laws.RowMatch in
/-- Every command's word matches its own row of the opcode table and no other. -/
theorem encode_matches_row (i : Instr) : Statement i := by
  cases i with
  | init n => exact init n
  | decode mode sel => exact Laws.RowMatch.decode mode sel
  | setpix bank tile ly lx => exact setpix bank tile ly lx
  | msnap => exact msnap
  | tsnap bank tile => exact tsnap bank tile
  | setbg => exact setbg
  | getbg => exact getbg

theorem row_eq_of_encode_eq {i j : Instr} (h : encode i = encode j) : Laws.RowMatch.row i = Laws.RowMatch.row j := by
  obtain ⟨hmem, hmatch, -⟩ := encode_matches_row i
  obtain ⟨-, -, hunique⟩ := encode_matches_row j
  exact hunique _ hmem (h ▸ hmatch)

theorem Mode.bit_injective : Function.Injective Mode.bit := by
  intro a b
  cases a <;> cases b <;> decide

/-- No two commands have the same word: the row gives the command's name, the fields its operands. -/
theorem encode_injective : Function.Injective encode := by
  intro i j h
  have hrow := row_eq_of_encode_eq h
  cases i with
  | init n =>
    cases j with
    | init n' => rw [(append_inj h).2]
    | _ => exact absurd hrow (by simp [Laws.RowMatch.row])
  | decode mode sel =>
    cases j with
    | decode mode' sel' =>
      obtain ⟨hmode, hsel⟩ := append_inj h
      rw [Mode.bit_injective (append_inj hmode).2, hsel]
    | _ => exact absurd hrow (by simp [Laws.RowMatch.row])
  | setpix bank tile ly lx =>
    cases j with
    | setpix bank' tile' ly' lx' =>
      obtain ⟨hly, hlx⟩ := append_inj h
      obtain ⟨htile, hly⟩ := append_inj hly
      obtain ⟨hbank, htile⟩ := append_inj htile
      rw [(append_inj hbank).2, htile, hly, hlx]
    | _ => exact absurd hrow (by simp [Laws.RowMatch.row])
  | tsnap bank tile =>
    cases j with
    | tsnap bank' tile' =>
      obtain ⟨htile, -⟩ := append_inj h
      obtain ⟨hbank, htile⟩ := append_inj htile
      rw [(append_inj hbank).2, htile]
    | _ => exact absurd hrow (by simp [Laws.RowMatch.row])
  | msnap => cases j with
    | msnap => rfl
    | _ => exact absurd hrow (by simp [Laws.RowMatch.row])
  | setbg => cases j with
    | setbg => rfl
    | _ => exact absurd hrow (by simp [Laws.RowMatch.row])
  | getbg => cases j with
    | getbg => rfl
    | _ => exact absurd hrow (by simp [Laws.RowMatch.row])

/-- Settles O1: the word of a command matches a row, so it decodes, and to the only command with that word. -/
theorem decodeInvertsEncode : Obligations.DecodeInvertsEncode := by
  unfold Obligations.DecodeInvertsEncode
  intro i
  obtain ⟨hmem, hmatch, -⟩ := encode_matches_row i
  obtain ⟨j, hj⟩ := (decode_ok_iff_row (encode i)).mpr ⟨_, hmem, hmatch⟩
  rw [hj, encode_injective (encode_of_decode hj)]

/-- Settles O2: the fields a row leaves open and the bits it fixes are the whole word. -/
theorem encodeInvertsDecode : Obligations.EncodeInvertsDecode := by
  unfold Obligations.EncodeInvertsDecode
  exact fun _ _ h => encode_of_decode h

end Sys2Proof.Machine
end

section
/-! SUPPORT. What one micro-step of a pass can do, phase by phase (rules R10, R170): the access succeeds and the
sequencer goes on, or its check fails and the pass has ended. -/

namespace Sys2Proof.Machine

theorem goTo_of_ok {s : State} (h : s.fault = false) (p : Phase) : goTo p s = { s with phase := p } :=
  ifOk_of_ok h _

theorem goTo_of_fault {s : State} (h : s.fault = true) (p : Phase) : goTo p s = s := ifOk_of_fault h _

section
variable {s : State} (hb : s.busy = true) (hf : s.fault = false)
include hb hf

/-- The engine runs while `BUSY = 1` and `FAULT = 0`. -/
theorem running : (s.busy && !s.fault) = true := by simp [hb, hf]

theorem microStep_readLower (hp : s.phase = .readLower) :
    (∃ v, s.tileByte s.pxc.b.toNat s.pxc.rowOffset = some v ∧ microStep s = { s with lo := v, phase := .readUpper }) ∨
    (s.tileByte s.pxc.b.toNat s.pxc.rowOffset = none ∧
      microStep s = faultedFrom .tilememErr (tileInfo s.pxc.b.toNat s.pxc.rowOffset) s) := by
  have hstep : microStep s = goTo .readUpper (readLower s) := by rw [microStep, if_pos (running hb hf), hp]
  rcases readLower_cases hf with ⟨v, hv, e⟩ | ⟨hv, e⟩
  · exact .inl ⟨v, hv, by rw [hstep, e, goTo_of_ok (by exact hf)]⟩
  · exact .inr ⟨hv, by rw [hstep, e, goTo_of_fault rfl]⟩

theorem microStep_readUpper (hp : s.phase = .readUpper) :
    (∃ v, s.tileByte s.pxc.b.toNat (s.pxc.rowOffset + 1) = some v ∧
      microStep s = { s with up := v, phase := .resolve }) ∨
    (s.tileByte s.pxc.b.toNat (s.pxc.rowOffset + 1) = none ∧
      microStep s = faultedFrom .tilememErr (tileInfo s.pxc.b.toNat (s.pxc.rowOffset + 1)) s) := by
  have hstep : microStep s = goTo .resolve (readUpper s) := by rw [microStep, if_pos (running hb hf), hp]
  rcases readUpper_cases hf with ⟨v, hv, e⟩ | ⟨hv, e⟩
  · exact .inl ⟨v, hv, by rw [hstep, e, goTo_of_ok (by exact hf)]⟩
  · exact .inr ⟨hv, by rw [hstep, e, goTo_of_fault rfl]⟩

theorem microStep_resolve (hp : s.phase = .resolve) :
    let i := colourIndex s.lo s.up s.pxc.x.toNat
    (∃ c, s.resolve s.selr i = some c ∧
      microStep s = { s with idx := i, col := opaqueColour c, phase := .check }) ∨
    (s.resolve s.selr i = none ∧ microStep s = faultedFrom .badColor s.pxc.info { s with idx := i }) := by
  have hstep : microStep s = goTo .check (resolvePixel s) := by rw [microStep, if_pos (running hb hf), hp]
  rcases resolvePixel_cases hf with ⟨c, hc, e⟩ | ⟨hc, e⟩
  · exact .inl ⟨c, hc, by rw [hstep, e, goTo_of_ok (by exact hf)]⟩
  · exact .inr ⟨hc, by rw [hstep, e, goTo_of_fault rfl]⟩

/-- At a pixel of the 384 tiles the only check that can fail is the bank's (rule R168). -/
theorem microStep_check (hp : s.phase = .check) (ht : s.pxc.t.toNat < 384) :
    (s.pxc.b.toNat < s.nb.toNat ∧ microStep s = { s with phase := .writeTile }) ∨
    (s.nb.toNat ≤ s.pxc.b.toNat ∧ microStep s = faultedFrom .badBank s.pxc.info s) := by
  have hstep : microStep s = goTo .writeTile (checkAtPxc s) := by rw [microStep, if_pos (running hb hf), hp]
  have hy := s.pxc.y.isLt
  have hx := s.pxc.x.isLt
  unfold checkAtPxc at hstep
  rcases checkPixel_cases s.pxc.b.toNat s.pxc.t.toNat s.pxc.y.toNat s.pxc.x.toNat hf with
    ⟨-, -, -, hn, e⟩ | ⟨hx', -⟩ | ⟨-, hy', -⟩ | ⟨-, -, ht', -⟩ | ⟨-, -, -, hn, e⟩
  · exact .inl ⟨hn, by rw [hstep, e, goTo_of_ok hf]⟩
  · omega
  · omega
  · omega
  · exact .inr ⟨hn, by rw [hstep, e, goTo_of_fault rfl]; rfl⟩

theorem microStep_writeTile (hp : s.phase = .writeTile) :
    microStep s = { writeTbufAtPxc s with phase := .writeMosaic } := by
  have hstep : microStep s = goTo .writeMosaic (writeTbufAtPxc s) := by rw [microStep, if_pos (running hb hf), hp]
  exact hstep.trans (goTo_of_ok (s := writeTbufAtPxc s) hf _)

theorem microStep_writeMosaic (hp : s.phase = .writeMosaic) :
    microStep s = advance (writeMosaicAtPxc s) := by
  rw [microStep, if_pos (running hb hf), hp]

end

/-! The pixel counter (rule R26). -/

/-- The number of the pixel `PXC` names, in the order of a pass. -/
def Pxc.index (p : Pxc) : Nat := tbufIndex p.b.toNat p.t.toNat p.y.toNat p.x.toNat

theorem index_of {b t y x : Nat} (hb : b < 2) (ht : t < 384) (hy : y < 8) (hx : x < 8) :
    (Pxc.of b t y x).index = tbufIndex b t y x := by
  obtain ⟨eb, et, ey, ex⟩ := pxc_of hb ht hy hx
  rw [Pxc.index, eb, et, ey, ex]

/-- A pixel of the first `n` banks (rule R160). -/
structure Pxc.Within (n : Nat) (p : Pxc) : Prop where
  bank : p.b.toNat < n
  tile : p.t.toNat < 384

theorem within_of {n b t y x : Nat} (hn : n ≤ 2) (hb : b < n) (ht : t < 384) (hy : y < 8) (hx : x < 8) :
    (Pxc.of b t y x).Within n := by
  obtain ⟨eb, et, -, -⟩ := pxc_of (by omega : b < 2) ht hy hx
  exact ⟨by rw [eb]; exact hb, by rw [et]; exact ht⟩

/-- `PXC` goes to the next pixel, or the pass has done its last one. -/
theorem advance_cases {s : State} (hq : s.nbreq.toNat ≤ 2) (hin : s.pxc.Within s.nbreq.toNat) :
    (∃ p ph, advance s = { s with pxc := p, phase := ph } ∧ (ph = .resolve ∨ ph = .readLower) ∧
      p.Within s.nbreq.toNat ∧ p.index = s.pxc.index + 1) ∨
    advance s = finish s := by
  obtain ⟨hb, ht⟩ := hin
  have hy := s.pxc.y.isLt
  have hx := s.pxc.x.isLt
  unfold advance
  dsimp only
  split_ifs with hx' hy' ht' hb'
  · refine .inl ⟨_, _, rfl, .inl rfl, within_of hq hb ht hy (by omega), ?_⟩
    rw [index_of (by omega) ht hy (by omega)]
    rfl
  · refine .inl ⟨_, _, rfl, .inr rfl, within_of hq hb ht (by omega) (by omega), ?_⟩
    rw [index_of (by omega) ht (by omega) (by omega), Pxc.index]
    unfold tbufIndex
    omega
  · refine .inl ⟨_, _, rfl, .inr rfl, within_of hq hb (by omega) (by omega) (by omega), ?_⟩
    rw [index_of (by omega) (by omega) (by omega) (by omega), Pxc.index]
    unfold tbufIndex
    omega
  · refine .inl ⟨_, _, rfl, .inr rfl, within_of hq hb' (by omega) (by omega) (by omega), ?_⟩
    rw [index_of (by omega) (by omega) (by omega) (by omega), Pxc.index]
    unfold tbufIndex
    omega
  · exact .inr rfl

/-! What a micro-step leaves alone. -/

/-- `t` is `s` but for what a running command's sequencing, its latches and fault entry write. -/
def sequencedFrom (s t : State) : Prop :=
  t = { s with
    busy := t.busy, fault := t.fault, fcause := t.fcause, finfo := t.finfo, phase := t.phase
    pxc := t.pxc, lo := t.lo, up := t.up, idx := t.idx, col := t.col }

section
variable {s u : State}

theorem sequencedFrom.refl (s : State) : sequencedFrom s s := rfl

theorem sequencedFrom.raise (h : sequencedFrom s u) (c : Cause) (info : Word) : sequencedFrom s (raise c info u) := by
  unfold Machine.raise
  split
  · exact h
  · rw [h]
    rfl

theorem sequencedFrom.goTo (h : sequencedFrom s u) (p : Phase) : sequencedFrom s (goTo p u) := by
  unfold Machine.goTo ifOk
  split
  · exact h
  · rw [h]
    rfl

theorem sequencedFrom.advance (h : sequencedFrom s u) : sequencedFrom s (advance u) := by
  unfold Machine.advance
  dsimp only
  split_ifs <;> (rw [h]; rfl)

end

theorem sequencedFrom_readLower (s : State) : sequencedFrom s (readLower s) := by
  rw [readLower_eq_elim]
  cases s.tileByte s.pxc.b.toNat s.pxc.rowOffset with
  | none => exact (sequencedFrom.refl s).raise _ _
  | some v => rfl

theorem sequencedFrom_readUpper (s : State) : sequencedFrom s (readUpper s) := by
  rw [readUpper_eq_elim]
  cases s.tileByte s.pxc.b.toNat (s.pxc.rowOffset + 1) with
  | none => exact (sequencedFrom.refl s).raise _ _
  | some v => rfl

theorem sequencedFrom_resolvePixel (s : State) : sequencedFrom s (resolvePixel s) := by
  rw [resolvePixel_eq_elim]
  have hidx : sequencedFrom s { s with idx := colourIndex s.lo s.up s.pxc.x.toNat } := rfl
  cases s.resolve s.selr (colourIndex s.lo s.up s.pxc.x.toNat) with
  | none => exact hidx.raise _ _
  | some c => rfl

theorem sequencedFrom_checkAtPxc (s : State) : sequencedFrom s (checkAtPxc s) := by
  have hraise (c : Cause) := (sequencedFrom.refl s).raise c s.pxc.info
  unfold checkAtPxc checkPixel
  split_ifs
  · exact hraise .badX
  · exact hraise .badY
  · exact hraise .badTile
  · exact hraise .badBank
  · rfl

/-- While no `INIT` paints, a micro-step is its pending pixel write and sequencing. -/
theorem microStep_sequenced {s : State} (hb : s.busy = true) (hf : s.fault = false)
    (hpaint : s.phase.painting = false) : sequencedFrom (pendingWrite s) (microStep s) := by
  rw [microStep, if_pos (running hb hf), pendingWrite]
  cases hp : s.phase with
  | idle => exact .refl s
  | paintTile n i => simp [hp, Phase.painting] at hpaint
  | paintMosaic n i => simp [hp, Phase.painting] at hpaint
  | readLower => exact (sequencedFrom_readLower s).goTo .readUpper
  | readUpper => exact (sequencedFrom_readUpper s).goTo .resolve
  | resolve => exact (sequencedFrom_resolvePixel s).goTo .check
  | check => exact (sequencedFrom_checkAtPxc s).goTo .writeTile
  | writeTile => exact (sequencedFrom.refl (writeTbufAtPxc s)).goTo .writeMosaic
  | writeMosaic => exact (sequencedFrom.refl (writeMosaicAtPxc s)).advance

/-- A micro-step is its pending pixel write and sequencing, except that the last one of `INIT` changes the layout. -/
theorem microStep_cases (s : State) :
    microStep s = s ∨ sequencedFrom (pendingWrite s) (microStep s) ∨
    (∃ n i, s.busy = true ∧ s.fault = false ∧ s.phase = .paintMosaic n i ∧ mosaicSize s.cfg n ≤ i + 1 ∧
      microStep s = completeInit n (paintMosaicWord n i s)) := by
  cases hb : s.busy with
  | false => exact .inl (microStep_of_stopped (.inl hb))
  | true =>
    cases hf : s.fault with
    | true => exact .inl (microStep_of_stopped (.inr hf))
    | false =>
      cases hp : s.phase with
      | paintTile n i =>
        refine .inr (.inl ?_)
        rw [microStep_paintTile hb hf hp, pendingWrite, hp]
        rfl
      | paintMosaic n i =>
        by_cases hi : i + 1 < mosaicSize s.cfg n
        · refine .inr (.inl ?_)
          rw [microStep_paintMosaic hb hf hp hi, pendingWrite, hp]
          rfl
        · exact .inr (.inr ⟨n, i, rfl, rfl, rfl, not_lt.mp hi, microStep_completes_init hb hf hp hi⟩)
      | _ => exact .inr (.inl (microStep_sequenced hb hf (by rw [hp]; rfl)))

end Sys2Proof.Machine
end

section
/-! SUPPORT. What a step can do, said once (rules R203, R112): the host's access, or one micro-step. From these O5 and
O6. -/

namespace Sys2Proof.Machine

/-! Acceptance (rule R130). -/

/-- Everything acceptance can do, whatever it would start: ignore the word, fault with it, or start the command. -/
theorem accept_cases (w : Word) (needsInit : Bool) (s : State) :
    (s.fault = true ∧ ∀ start, accept w needsInit start s = s) ∨
    (¬ (s.idle ∧ (needsInit = true → s.inited = true)) ∧ s.fault = false ∧
      ∃ c, ∀ start, accept w needsInit start s = faultedFrom c w s) ∨
    (s.idle ∧ (needsInit = true → s.inited = true) ∧
      ∀ start, accept w needsInit start s = start { s with busy := true }) := by
  rcases Bool.eq_false_or_eq_true s.fault with hf | hf
  · exact .inl ⟨hf, fun start => accept_of_fault hf ..⟩
  · rcases Bool.eq_false_or_eq_true s.busy with hb | hb
    · refine .inr (.inl ⟨fun hacc => ?_, hf, .cmdOverlap, fun start => accept_of_busy hf hb ..⟩)
      rw [hacc.1.2] at hb
      cases hb
    · have haccept (start : State → State) : accept w needsInit start s =
          if (needsInit && !s.inited) = true then faultedFrom .notInit w s else start { s with busy := true } := by
        rw [accept, if_neg (Bool.eq_false_iff.mp hf), if_neg (Bool.eq_false_iff.mp hb), raise_of_ok hf]
      by_cases hi : needsInit = true → s.inited = true
      · exact .inr (.inr ⟨⟨hf, hb⟩, hi, fun start => (haccept start).trans (if_neg (by simpa using hi))⟩)
      · exact .inr (.inl ⟨fun hacc => hi hacc.2, hf, .notInit,
          fun start => (haccept start).trans (if_pos (by simpa using hi))⟩)

theorem rejectWord_cases (w : Word) (s : State) :
    (s.fault = true ∧ rejectWord w s = s) ∨ (s.fault = false ∧ ∃ c, rejectWord w s = faultedFrom c w s) := by
  cases hf : s.fault with
  | true => exact .inl ⟨rfl, rejectWord_of_fault hf w⟩
  | false =>
    cases hb : s.busy with
    | true => exact .inr ⟨rfl, .cmdOverlap, rejectWord_of_busy hf hb w⟩
    | false => exact .inr ⟨rfl, .illegalCmd, rejectWord_of_idle ⟨hf, hb⟩ w⟩

/-- An accepted `INIT` starts painting, or its check faults first (rule R131). -/
theorem startInit_cases (n : BitVec 2) {s : State} (h : s.fault = false) :
    ((n = 1#2 ∨ n = 2#2) ∧ startInit n s = { s with phase := .paintTile n 0 }) ∨
    (¬ (n = 1#2 ∨ n = 2#2) ∧ startInit n s = faultedFrom .badBankcount (encode (.init n)) s) := by
  unfold startInit
  rcases checkBankcount_cases n h with ⟨hn, e⟩ | ⟨hn1, hn2, e⟩
  · exact .inl ⟨hn, by rw [e, ifOk_of_ok h]⟩
  · exact .inr ⟨not_or.mpr ⟨hn1, hn2⟩, by rw [e, ifOk_of_fault rfl]⟩

/-! Issued words (rules R10, R130). -/

section
variable {w : Word}

theorem commandIssue_init {n : BitVec 2} (h : decode w = .ok (.init n)) (s : State) :
    commandIssue w s = .next (accept w false (startInit n) s) := by
  rw [commandIssue, h]

theorem commandIssue_decode {mode : Mode} {sel : Byte} (h : decode w = .ok (.decode mode sel)) (s : State) :
    commandIssue w s = .next (accept w true (startDecode mode sel) s) := by
  rw [commandIssue, h]

/-- The other five commands complete in the transition that accepts them. -/
theorem commandIssue_other {i : Instr} (h : decode w = .ok i) (hinit : ∀ n, i ≠ .init n)
    (hdecode : ∀ mode sel, i ≠ .decode mode sel) (s : State) : commandIssue w s = exec i s := by
  rw [commandIssue, h]
  cases i with
  | init n => exact absurd rfl (hinit n)
  | decode mode sel => exact absurd rfl (hdecode mode sel)
  | _ => rfl

end

/-! One step. -/

/-- What a step whose host action is `a` does; `s` is the state with the action taken off, where the host made one. -/
inductive Effect (a : Option HostAction) (s : State) : State → Prop where
  /-- A legal word written to `CMD`. -/
  | command {w : Word} {i : Instr} {t : State} : a = some (.write 0#21 w) → decode w = .ok i → exec i s = .next t →
      Effect a s t
  /-- A command other than `INIT` that completes in the transition that accepts its issued word. -/
  | issued {i : Instr} {t : State} : (∀ n, i ≠ .init n) → exec i s = .next t → Effect a s t
  | startInit {n : BitVec 2} : s.idle → n = 1#2 ∨ n = 2#2 → Effect a s { s with busy := true, phase := .paintTile n 0 }
  | startDecode {mode : Mode} {sel : Byte} : s.idle → s.inited = true →
      Effect a s (startDecode mode sel { s with busy := true })
  | engine : Effect a s (microStep s)
  | fault {c : Cause} {info rdata : Word} : s.fault = false → Effect a s { faultedFrom c info s with rdata := rdata }
  /-- Fields of the host's side alone: `ARG`, the read latch, the counter of free values. -/
  | host (arg rdata : Word) (picks : Nat) : Effect a s { s with arg := arg, rdata := rdata, picks := picks }
  | tileByte {b : BitVec 1} {off : BitVec 13} {v : Byte} : a = some (.tileByte b off v) →
      Effect a s (storeTileByte b off v s)
  | resolver {sel : Byte} {i : BitVec 2} {answer : Option Rgb} : a = some (.resolver sel i answer) →
      Effect a s (setResolver sel i answer s)
  | reset : a = some .reset → Effect a s (resetEvent s)

namespace Effect

variable {a : Option HostAction} {s : State}

theorem unchanged : Effect a s s := .host s.arg s.rdata s.picks

theorem raised (c : Cause) (info : Word) : Effect a s (raise c info s) := by
  cases hf : s.fault with
  | true => rw [raise_of_fault hf]; exact .unchanged
  | false => rw [raise_of_ok hf]; exact .fault (rdata := s.rdata) hf

theorem raised_answer (c : Cause) (info v : Word) : Effect a s (answer v (raise c info s)) := by
  cases hf : s.fault with
  | true => rw [raise_of_fault hf]; exact .host s.arg v s.picks
  | false => rw [raise_of_ok hf]; exact .fault hf

theorem rejected (w : Word) : Effect a s (rejectWord w s) := by
  rcases rejectWord_cases w s with ⟨-, e⟩ | ⟨hf, c, e⟩ <;> rw [e]
  · exact .unchanged
  · exact .fault (rdata := s.rdata) hf

theorem accepted {w : Word} {needsInit : Bool} {start : State → State}
    (h : s.idle → (needsInit = true → s.inited = true) → Effect a s (start { s with busy := true })) :
    Effect a s (accept w needsInit start s) := by
  rcases accept_cases w needsInit s with ⟨-, e⟩ | ⟨-, hf, c, e⟩ | ⟨hidle, hinit, e⟩ <;> rw [e]
  · exact .unchanged
  · exact .fault (rdata := s.rdata) hf
  · exact h hidle hinit

theorem of_portWrite {off : BitVec 21} {w : Word} {t : State} (h : portWrite off w s = .next t) :
    Effect (some (.write off w)) s t := by
  by_cases hcmd : off = 0#21
  · subst hcmd
    cases hd : decode w with
    | error e =>
      rw [portWrite_cmd_of_error hd] at h
      cases h
      exact .rejected w
    | ok i => exact .command rfl hd ((portWrite_cmd_of_ok hd s).symm.trans h)
  · have hcmd' : off.toNat ≠ 0 := fun h => hcmd (BitVec.eq_of_toNat_eq h)
    rw [portWrite, if_neg hcmd'] at h
    split_ifs at h <;> cases h
    · exact .host w s.rdata s.picks
    · exact .raised _ _
    · exact .unchanged

theorem of_commandIssue {w : Word} {t : State} (h : commandIssue w s = .next t) : Effect a s t := by
  cases hd : decode w with
  | error e =>
    rw [commandIssue_of_error hd] at h
    cases h
    exact .rejected w
  | ok i =>
    cases i with
    | init n =>
      rw [commandIssue_init hd] at h
      cases h
      refine .accepted fun hidle _ => ?_
      rcases startInit_cases n (s := { s with busy := true }) hidle.1 with ⟨hn, e⟩ | ⟨-, e⟩ <;> rw [e]
      · exact .startInit hidle hn
      · exact .fault (c := .badBankcount) (info := encode (.init n)) (rdata := s.rdata) hidle.1
    | decode mode sel =>
      rw [commandIssue_decode hd] at h
      cases h
      exact .accepted fun hidle hinit => .startDecode hidle (hinit rfl)
    | _ => exact .issued (by simp) ((commandIssue_other hd (by simp) (by simp) s).symm.trans h)

theorem of_answerPixel {v : Option Word} {picks : Nat} {t : State}
    (h : answerPixel v { s with picks := picks } = .next t) : Effect a s t := by
  cases v with
  | none => cases h
  | some w =>
    cases h
    exact .host s.arg w picks

theorem of_portRead {off : BitVec 21} {t : State} (h : portRead off s = .next t) : Effect a s t := by
  unfold portRead windowRead at h
  split_ifs at h
  · cases h
    exact .host s.arg _ s.picks
  · cases h
    exact .raised_answer _ _ _
  · cases h
    exact .host s.arg _ s.picks
  · cases h
    exact .raised_answer _ _ _
  · exact of_answerPixel h
  · exact of_answerPixel (picks := s.picks) h

end Effect

theorem act_effect {a : HostAction} {s t : State} (h : act a s = .next t) :
    ∃ script, Effect (some a) { s with script := script } t := by
  cases a with
  | write off w => exact ⟨s.script, .of_portWrite h⟩
  | issue w => exact ⟨s.script, .of_commandIssue h⟩
  | read off => exact ⟨s.script, .of_portRead h⟩
  | wait =>
    cases h
    split
    · exact ⟨.wait :: s.script, .engine⟩
    · exact ⟨s.script, .unchanged⟩
  | turn =>
    cases h
    exact ⟨s.script, .engine⟩
  | tileByte bank off v =>
    cases h
    exact ⟨s.script, .tileByte rfl⟩
  | resolver sel idx answer =>
    cases h
    exact ⟨s.script, .resolver rfl⟩
  | reset =>
    cases h
    exact ⟨s.script, .reset rfl⟩

/-- Every step is one of the effects, on the state with some script of the host's. -/
theorem step_effect {s t : State} (h : step s = .next t) :
    ∃ script, Effect s.script.head? { s with script := script } t := by
  cases hs : s.script with
  | nil =>
    rw [step_of_no_action hs] at h
    cases h
    exact ⟨s.script, .engine⟩
  | cons a rest =>
    rw [step_of_action hs] at h
    exact act_effect (s := { s with script := rest }) h

/-! The statements about the step itself. -/

theorem decode_of_decodeTableWord {nbits w : Nat} {i : Instr} (h : decodeTableWord nbits w = some i) :
    decode (BitVec.ofNat 32 (w % 2 ^ nbits)) = .ok i := by
  unfold decodeTableWord at h
  cases hd : decode (BitVec.ofNat 32 (w % 2 ^ nbits)) with
  | error e => rw [hd] at h; cases h
  | ok j => rw [hd] at h; cases h; rfl

theorem step_of_cmd_write {s : State} {w : Word} {rest : List HostAction} {i : Instr}
    (hs : s.script = .write 0#21 w :: rest) (hd : decode w = .ok i) : step s = exec i { s with script := rest } := by
  rw [step_of_action hs]
  exact portWrite_cmd_of_ok hd _

/-- Settles O5: a step takes the host's action off and performs it. -/
theorem stepRunsTheDecodedCommand : Obligations.StepRunsTheDecodedCommand := by
  unfold Obligations.StepRunsTheDecodedCommand
  exact ⟨fun s w rest i hs hd => step_of_cmd_write hs hd,
    fun s nbits w i hd => step_of_cmd_write (s := s.withFetchWord nbits w) rfl (decode_of_decodeTableWord hd),
    fun s off w rest hs => step_of_action hs, fun s off rest hs => step_of_action hs,
    fun s w rest hs => step_of_action hs, fun s w i hd hinit hdecode => commandIssue_other hd hinit hdecode s⟩

/-- Settles O6: without an access a step is one micro-step, and an idle engine's micro-step does nothing. -/
theorem engineMovesBetweenAccesses : Obligations.EngineMovesBetweenAccesses := by
  unfold Obligations.EngineMovesBetweenAccesses
  refine ⟨?idle, fun s hs => step_of_no_action hs, fun s rest hs => step_of_action hs, ?waits, ?waited⟩
  case idle =>
    intro s hs hb
    rw [step_of_no_action hs, microStep_of_stopped (.inl hb)]
  case waits =>
    intro s rest hs hb
    rw [step_of_action hs, act, if_pos hb, ← hs]
  case waited =>
    intro s rest hs hb
    rw [step_of_action hs, act, if_neg (Bool.eq_false_iff.mp hb)]

end Sys2Proof.Machine
end

section
/-! SUPPORT. What a command and a step leave alone: the inputs, and the layout unless an `INIT` completes. From these
O10, O11, O35 (its first part), O50, O51 and O52. -/

namespace Sys2Proof.Machine

/-! Commands that fault (rules R130, R211). -/

/-- Settles O10: acceptance faults before the command's rule is begun. -/
theorem useBeforeInitFaults : Obligations.UseBeforeInitFaults := by
  unfold Obligations.UseBeforeInitFaults
  intro i s hneeds hidle hinited
  rw [exec_eq_perform]
  rcases perform_cases (encode i) (needsInit i) (commandBody i) s with
    ⟨hf, -⟩ | ⟨-, hb, -⟩ | ⟨-, -, -, e⟩ | ⟨-, hi, -⟩
  · rw [hidle.1] at hf
    cases hf
  · rw [hidle.2] at hb
    cases hb
  · rw [e]
  · rw [hi hneeds] at hinited
    cases hinited

/-- The effect of an accepted command other than `DECODE` raises no fault. -/
theorem completes_fault {i : Instr} {s t : State} (hi : ∀ mode sel, i ≠ .decode mode sel) (h : completes i s t) :
    t.fault = s.fault := by
  cases i with
  | decode mode sel => exact absurd rfl (hi mode sel)
  | init n => obtain ⟨-, rfl⟩ := h; rfl
  | setpix bank tile ly lx => obtain ⟨-, -, -, -, rfl⟩ := h; rfl
  | tsnap bank tile => obtain ⟨-, -, rfl⟩ := h; rfl
  | msnap => rw [show t = msnapBody s from h]; rfl
  | setbg => rw [show t = setbgBody s from h]; rfl
  | getbg => rw [show t = getbgBody s from h]; rfl

/-- Settles O11: the effect of such a command raises no fault, so its faults come from acceptance and from its checks. -/
theorem faultsBeforeAnyChange : Obligations.FaultsBeforeAnyChange := by
  unfold Obligations.FaultsBeforeAnyChange
  intro i s t hi hf h ht
  rcases exec_cases h with ⟨hs, -⟩ | ⟨-, hfault⟩ | ⟨-, -, hc⟩
  · rw [hf] at hs
    cases hs
  · exact hfault
  · rw [completes_fault hi hc, hf] at ht
    cases ht

/-! A pass, however it ends. -/

/-- `t` is `s` but for the pixel memories and what sequencing, the latches and fault entry write. -/
def passFrom (s t : State) : Prop :=
  t = { s with
    fault := t.fault, fcause := t.fcause, finfo := t.finfo, busy := t.busy, phase := t.phase, tbuf := t.tbuf
    mosaic := t.mosaic, selr := t.selr, nbreq := t.nbreq, pxc := t.pxc, lo := t.lo, up := t.up, idx := t.idx
    col := t.col }

theorem completes_decode_frame {mode : Mode} {sel : Byte} {s t : State} (h : s.idle)
    (hc : completes (.decode mode sel) s t) : passFrom s t := by
  rcases completes_decode h hc with ⟨-, hd, -⟩ | ⟨-, b, -, hd⟩
  · unfold passFrom
    rw [hd.frame]
    rfl
  · unfold passFrom
    rw [hd.frame]
    rfl

/-! The inputs (rules R61, R78, R242). -/

/-- `t` has the inputs of `s`. -/
structure SameInputs (s t : State) : Prop where
  cfg : t.cfg = s.cfg
  tiles : t.tiles = s.tiles
  palette : t.palette = s.palette

theorem SameInputs.trans {s t u : State} (h : SameInputs s t) (h' : SameInputs t u) : SameInputs s u :=
  ⟨h'.cfg.trans h.cfg, h'.tiles.trans h.tiles, h'.palette.trans h.palette⟩

theorem passFrom.sameInputs {s t : State} (h : passFrom s t) : SameInputs s t :=
  ⟨by rw [h], by rw [h], by rw [h]⟩

theorem sequencedFrom.sameInputs {s t : State} (h : sequencedFrom s t) : SameInputs s t :=
  ⟨by rw [h], by rw [h], by rw [h]⟩

theorem completes_sameInputs {i : Instr} {s t : State} (h : s.idle) (hc : completes i s t) : SameInputs s t := by
  cases i with
  | decode mode sel => exact (completes_decode_frame h hc).sameInputs
  | init n => obtain ⟨-, rfl⟩ := hc; exact ⟨rfl, rfl, rfl⟩
  | setpix bank tile ly lx => obtain ⟨-, -, -, -, rfl⟩ := hc; exact ⟨rfl, rfl, rfl⟩
  | tsnap bank tile => obtain ⟨-, -, rfl⟩ := hc; exact ⟨rfl, rfl, rfl⟩
  | msnap => rw [show t = msnapBody s from hc]; exact ⟨rfl, rfl, rfl⟩
  | setbg => rw [show t = setbgBody s from hc]; exact ⟨rfl, rfl, rfl⟩
  | getbg => rw [show t = getbgBody s from hc]; exact ⟨rfl, rfl, rfl⟩

theorem exec_sameInputs {i : Instr} {s t : State} (h : exec i s = .next t) : SameInputs s t := by
  rcases exec_cases h with ⟨-, rfl⟩ | ⟨-, c, info, rfl⟩ | ⟨hidle, -, hc⟩
  · exact ⟨rfl, rfl, rfl⟩
  · exact ⟨rfl, rfl, rfl⟩
  · exact completes_sameInputs hidle hc

theorem pendingWrite_sameInputs (s : State) : SameInputs s (pendingWrite s) := by
  rw [pendingWrite_frame]
  exact ⟨rfl, rfl, rfl⟩

theorem microStep_sameInputs (s : State) : SameInputs s (microStep s) := by
  rcases microStep_cases s with e | h | ⟨n, i, -, -, -, -, e⟩
  · rw [e]
    exact ⟨rfl, rfl, rfl⟩
  · exact (pendingWrite_sameInputs s).trans h.sameInputs
  · rw [e]
    exact ⟨rfl, rfl, rfl⟩

/-- Of the effects of a step only the host's own changes of an input change one. -/
theorem Effect.sameInputs {a : Option HostAction} {s t : State} (h : Effect a s t) :
    SameInputs s t ∨ (∃ b off v, a = some (.tileByte b off v) ∧ t = storeTileByte b off v s) ∨
      (∃ sel i v, a = some (.resolver sel i v) ∧ t = setResolver sel i v s) := by
  cases h with
  | command _ _ h => exact .inl (exec_sameInputs h)
  | issued _ h => exact .inl (exec_sameInputs h)
  | engine => exact .inl (microStep_sameInputs s)
  | tileByte ha => exact .inr (.inl ⟨_, _, _, ha, rfl⟩)
  | resolver ha => exact .inr (.inr ⟨_, _, _, ha, rfl⟩)
  | _ => exact .inl ⟨rfl, rfl, rfl⟩

/-- Settles O50: commands and micro-steps keep the inputs, and of a step's effects only the two host actions do not. -/
theorem inputsBelongToTheHost : Obligations.InputsBelongToTheHost := by
  unfold Obligations.InputsBelongToTheHost
  refine ⟨?exec, ?engine, ?step⟩
  case exec =>
    intro i s t h
    obtain ⟨hcfg, htiles, hpalette⟩ := exec_sameInputs h
    exact ⟨hcfg, htiles, hpalette⟩
  case engine =>
    intro s
    obtain ⟨hcfg, htiles, hpalette⟩ := microStep_sameInputs s
    exact ⟨hcfg, htiles, hpalette⟩
  case step =>
    intro s t h
    obtain ⟨script, heffect⟩ := step_effect h
    rcases heffect.sameInputs with hsame | ⟨b, off, v, ha, rfl⟩ | ⟨sel, i, v, ha, rfl⟩
    · exact ⟨hsame.cfg, fun hne => absurd hsame.tiles hne, fun hne => absurd hsame.palette hne⟩
    · exact ⟨rfl, fun _ => ⟨b, off, v, ha⟩, fun hne => absurd rfl hne⟩
    · exact ⟨rfl, fun hne => absurd rfl hne, fun _ => ⟨sel, i, v, ha⟩⟩

/-! Reading back what the host changed (rules R8, R61, R112). -/

/-- A byte of tile memory has one address. -/
theorem tileKey_eq_iff {b b' : BitVec 1} {off off' : BitVec 13} :
    tileKey b.toNat off.toNat = tileKey b'.toNat off'.toNat ↔ b' = b ∧ off' = off := by
  unfold tileKey
  bv_omega

/-- An answer of the resolver has one key. -/
theorem paletteKey_eq_iff {sel sel' : Byte} {i i' : BitVec 2} :
    sel.toNat * 4 + i.toNat = sel'.toNat * 4 + i'.toNat ↔ sel' = sel ∧ i' = i := by
  bv_omega

theorem tileByte_storeTileByte (b : BitVec 1) (off : BitVec 13) (v : Byte) (s : State) (b' : BitVec 1)
    (off' : BitVec 13) : (storeTileByte b off v s).tileByte b'.toNat off'.toNat =
      if b' = b ∧ off' = off then some v else s.tileByte b'.toNat off'.toNat := by
  unfold State.tileByte
  simp only [storeTileByte_fields, Cells.find_insert, tileKey_eq_iff]

theorem resolve_setResolver (sel : Byte) (i : BitVec 2) (a : Option Rgb) (s : State) (sel' : Byte) (i' : BitVec 2) :
    (setResolver sel i a s).resolve sel' i' = if sel' = sel ∧ i' = i then a else s.resolve sel' i' := by
  unfold State.resolve
  simp only [setResolver_fields, Cells.find_set, paletteKey_eq_iff]

/-- Settles O51: the two host actions are writes of the sparse memories, whose laws are read after write and frame. -/
theorem hostInputsReadBack : Obligations.HostInputsReadBack := by
  unfold Obligations.HostInputsReadBack
  constructor
  · intro s b off v rest hs
    exact ⟨_, step_of_action hs, rfl, tileByte_storeTileByte b off v _⟩
  · intro s sel i a rest hs
    exact ⟨_, step_of_action hs, rfl, resolve_setResolver sel i a _⟩

/-! The layout (rule R21). -/

theorem passFrom.layout {s t : State} (h : passFrom s t) : t.nb = s.nb ∧ t.inited = s.inited :=
  ⟨by rw [h], by rw [h]⟩

theorem exec_layout {i : Instr} {s t : State} (hi : ∀ n, i ≠ .init n) (h : exec i s = .next t) :
    t.nb = s.nb ∧ t.inited = s.inited := by
  rcases exec_cases h with ⟨-, rfl⟩ | ⟨-, c, info, rfl⟩ | ⟨hidle, -, hc⟩
  · exact ⟨rfl, rfl⟩
  · exact ⟨rfl, rfl⟩
  · cases i with
    | init n => exact absurd rfl (hi n)
    | decode mode sel => exact (completes_decode_frame hidle hc).layout
    | setpix bank tile ly lx => obtain ⟨-, -, -, -, rfl⟩ := hc; exact ⟨rfl, rfl⟩
    | tsnap bank tile => obtain ⟨-, -, rfl⟩ := hc; exact ⟨rfl, rfl⟩
    | msnap => rw [show t = msnapBody s from hc]; exact ⟨rfl, rfl⟩
    | setbg => rw [show t = setbgBody s from hc]; exact ⟨rfl, rfl⟩
    | getbg => rw [show t = getbgBody s from hc]; exact ⟨rfl, rfl⟩

/-- Settles O52: no effect of the six other commands writes either. -/
theorem onlyInitWritesTheLayout : Obligations.OnlyInitWritesTheLayout := by
  unfold Obligations.OnlyInitWritesTheLayout
  exact fun i s t hi h => exec_layout hi h

/-- An `INIT` issued as one transition that changes the layout has completed. -/
theorem exec_init_layout {n : BitVec 2} {s t : State} (h : exec (.init n) s = .next t) :
    (t.nb = s.nb ∧ t.inited = s.inited) ∨ (s.idle ∧ (n = 1#2 ∨ n = 2#2) ∧ t = finishInit (recreate n s)) := by
  rcases exec_cases h with ⟨-, rfl⟩ | ⟨-, c, info, rfl⟩ | ⟨hidle, -, hn, rfl⟩
  · exact .inl ⟨rfl, rfl⟩
  · exact .inl ⟨rfl, rfl⟩
  · exact .inr ⟨hidle, hn, rfl⟩

theorem microStep_layout (s : State) : ((microStep s).nb = s.nb ∧ (microStep s).inited = s.inited) ∨
    ∃ n i, s.busy = true ∧ s.fault = false ∧ s.phase = .paintMosaic n i ∧ mosaicSize s.cfg n ≤ i + 1 ∧
      microStep s = completeInit n (paintMosaicWord n i s) := by
  rcases microStep_cases s with e | h | hlast
  · rw [e]
    exact .inl ⟨rfl, rfl⟩
  · rw [pendingWrite_frame] at h
    exact .inl ⟨by rw [h], by rw [h]⟩
  · exact .inr hlast

/-- A step other than a reset that changes `NB` or `INITED` completes an `INIT`. -/
theorem Effect.layout {a : Option HostAction} {s t : State} (ha : a ≠ some .reset) (h : Effect a s t) :
    (t.nb = s.nb ∧ t.inited = s.inited) ∨
    (s.fault = false ∧ t.fault = false ∧ t.busy = false ∧ t.inited = true ∧ t.winsel = .none ∧
      ((∃ i, s.phase = .paintMosaic t.nb i ∧ mosaicSize s.cfg t.nb ≤ i + 1) ∨
       (∃ w, a = some (.write 0#21 w) ∧ decode w = .ok (.init t.nb) ∧ (t.nb = 1#2 ∨ t.nb = 2#2)))) := by
  cases h with
  | command hw hd hexec =>
    rename_i w i
    by_cases hinit : ∃ n, i = .init n
    · obtain ⟨n, rfl⟩ := hinit
      rcases exec_init_layout hexec with hsame | ⟨⟨hf, hb⟩, hn, rfl⟩
      · exact .inl hsame
      · exact .inr ⟨hf, hf, hb, rfl, rfl, .inr ⟨w, hw, hd, hn⟩⟩
    · exact .inl (exec_layout (not_exists.mp hinit) hexec)
  | issued hi hexec => exact .inl (exec_layout hi hexec)
  | engine =>
    rcases microStep_layout s with hsame | ⟨n, i, -, hf, hp, hi, e⟩
    · exact .inl hsame
    · rw [e]
      exact .inr ⟨hf, hf, rfl, rfl, rfl, .inl ⟨i, hp, hi⟩⟩
  | reset hreset => exact absurd hreset ha
  | _ => exact .inl ⟨rfl, rfl⟩

end Sys2Proof.Machine
end

section
/-! SUPPORT. Every effect of a step keeps the invariant `State.Inv`: fault entry, the commands, the micro-steps of
`INIT` and of a pass, and the host's actions. From these O38, and with it O35 and O37. -/

namespace Sys2Proof.Machine

/-- The invariant at reset (rule R36). -/
theorem reset_inv : State.reset.Inv where
  memWf := ⟨⟨.nil, nofun⟩, ⟨.nil, nofun⟩, ⟨.nil, nofun⟩, ⟨.nil, nofun⟩⟩
  busy_iff := by decide
  not_both := by decide
  no_fault := fun _ => ⟨rfl, rfl⟩
  cause := nofun
  nb_le := by decide
  nb_pos := nofun
  nb_zero := fun _ => rfl
  win_inited := by decide
  win_tile := nofun
  slot := fun _ => rfl
  pass := nofun
  pixel := nofun
  paint := trivial

/-! The clauses about the sequencer are empty while it does not do what they speak of. -/

theorem painted_of_not_painting {s : State} (h : s.phase.painting = false) : s.painted := by
  unfold State.painted
  cases hp : s.phase with
  | paintTile n i => rw [hp] at h; cases h
  | paintMosaic n i => rw [hp] at h; cases h
  | _ => trivial

theorem not_painting_of_decoding {p : Phase} (h : p.decoding = true) : p.painting = false := by
  cases p with
  | paintTile n i => cases h
  | paintMosaic n i => cases h
  | _ => rfl

theorem not_idle_of_decoding {p : Phase} (h : p.decoding = true) : p ≠ .idle := by
  rintro rfl
  cases h

/-- The two bank counts `INIT` takes (rule R131). -/
theorem bankCount_bounds {n : BitVec 2} (hn : n = 1#2 ∨ n = 2#2) : n ≠ 0#2 ∧ 0 < n.toNat ∧ n.toNat ≤ 2 := by
  rcases hn with rfl | rfl <;> decide

section
variable {s : State} (h : s.Inv)
include h

theorem State.Inv.phase_idle (hb : s.busy = false) : s.phase = .idle := by
  by_contra hp
  rw [h.busy_iff.mpr hp] at hb
  cases hb

theorem State.Inv.no_fault_of_busy (hb : s.busy = true) : s.fault = false :=
  Bool.eq_false_iff.mpr fun hf => h.not_both ⟨hb, hf⟩

/-- Fault entry (rule R210). -/
theorem State.Inv.faultedFrom (c : Cause) (info : Word) : (faultedFrom c info s).Inv :=
  { h with
    busy_iff := by simp
    not_both := by simp
    no_fault := nofun
    cause := fun _ => ⟨c, rfl⟩
    pass := nofun
    pixel := nofun
    paint := trivial }

/-! Commands (rule R130). -/

/-- An idle machine's memories, layout and window may be replaced by ones that keep their own rules. -/
theorem State.Inv.complete_init (hb : s.busy = false) {n : BitVec 2} (hn : n = 1#2 ∨ n = 2#2) :
    (finishInit (recreate n s)).Inv := by
  have hp : (finishInit (recreate n s)).phase = .idle := h.phase_idle hb
  obtain ⟨htiles, hpalette, -, -⟩ := h.memWf
  obtain ⟨hn0, -, hn2⟩ := bankCount_bounds hn
  exact { h with
    memWf := ⟨htiles, hpalette, ⟨.nil, nofun⟩, ⟨.nil, nofun⟩⟩
    nb_le := hn2
    nb_pos := fun _ => hn0
    nb_zero := nofun
    win_inited := fun _ => rfl
    win_tile := nofun
    pass := by rw [hp]; nofun
    pixel := by rw [hp]; nofun
    paint := painted_of_not_painting (by rw [hp]; rfl) }

/-- A pixel write inside the layout keeps the memories canonical. -/
theorem memWf_setPixel {b t y x : Nat} (c : Word) (hb : b < s.nb.toNat) (ht : t < 384) (hy : y < 8) (hx : x < 8) :
    (setPixel b t y x c s).memWf := by
  obtain ⟨htiles, hpalette, htbuf, hmosaic⟩ := h.memWf
  exact ⟨htiles, hpalette, tbufWf_writeTbuf htbuf (tbufIndex_lt hb ht hy hx),
    mosaicWf_writeMosaic (s := writeTbuf (tbufIndex b t y x) c s) hmosaic (pixelKey_in s.cfg s.nb hb ht hy hx)⟩

theorem State.Inv.setPixel (hb : s.busy = false) {b t y x : Nat} (c : Word) (hbank : b < s.nb.toNat) (ht : t < 384)
    (hy : y < 8) (hx : x < 8) : (setPixel b t y x c s).Inv :=
  { h with
    memWf := memWf_setPixel h c hbank ht hy hx
    paint := painted_of_not_painting (by rw [setPixel_frame, h.phase_idle hb]; rfl) }

theorem State.Inv.showTile {bank : BitVec 2} {tile : BitVec 10} (hi : s.inited = true)
    (hb : bank.toNat < s.nb.toNat) (ht : tile.toNat < 384) : (showTile bank tile s).Inv := by
  have hnb := h.nb_le
  exact { h with
    win_inited := fun _ => hi
    win_tile := fun _ => by
      simp only [showTile_fields, BitVec.toNat_setWidth]
      omega }

end

theorem memWf_congr {s t : State} (h : SameInputs s t) (hnb : t.nb = s.nb) (htbuf : t.tbuf = s.tbuf)
    (hmosaic : t.mosaic = s.mosaic) (hs : s.memWf) : t.memWf := by
  unfold State.memWf State.tbufWf State.mosaicWf at hs ⊢
  rwa [h.cfg, h.tiles, h.palette, hnb, htbuf, hmosaic]

theorem PassDone.memWf {s0 s : State} {k : Nat} (h : PassDone s0 k s) (hs : s0.memWf) : s.memWf := by
  obtain ⟨htiles, hpalette, htbuf, hmosaic⟩ := hs
  exact ⟨by rw [h.frame]; exact htiles, by rw [h.frame]; exact hpalette, h.canonical.1 htbuf, h.canonical.2 hmosaic⟩

theorem PassFault.memWf {s0 u : State} {b : Nat} (h : PassFault s0 b u) (hs : s0.memWf) : u.memWf := by
  obtain ⟨v, hv, htbuf, hmosaic⟩ := h.done
  have hframe : passFrom v u := by
    unfold passFrom
    rw [h.frame, hv.frame]
  exact memWf_congr hframe.sameInputs hframe.layout.1 htbuf hmosaic (hv.memWf hs)

/-- The causes a pass can record (rule R201). -/
theorem PassFault.cause_code {s0 u : State} {b : Nat} (h : PassFault s0 b u) : ∃ c : Cause, u.fcause = c.code := by
  rcases h.cause with ⟨-, -, hc, -⟩ | ⟨-, -, -, hc, -⟩ | ⟨-, -, -, -, -, hc, -⟩ | ⟨-, -, hc, -⟩
  · exact ⟨.tilememErr, hc⟩
  · exact ⟨.tilememErr, hc⟩
  · exact ⟨.badColor, hc⟩
  · exact ⟨.badBank, hc⟩

theorem State.Inv.decode {s t : State} {mode : Mode} {sel : Byte} (h : s.Inv) (hidle : s.idle)
    (hc : completes (.decode mode sel) s t) : t.Inv := by
  have hp : (latchDecode mode sel s).phase = .idle := h.phase_idle hidle.2
  rcases completes_decode hidle hc with ⟨-, hd, -⟩ | ⟨-, b, -, hd⟩
  · have hmem := hd.memWf h.memWf
    rw [hd.frame] at hmem ⊢
    exact { h with
      memWf := hmem
      pass := by rw [hp]; nofun
      pixel := by rw [hp]; nofun
      paint := painted_of_not_painting (by rw [hp]; rfl) }
  · have hmem := hd.memWf h.memWf
    have hcause := hd.cause_code
    rw [hd.frame] at hmem hcause ⊢
    exact { h.faultedFrom .badColor 0#32 with
      memWf := hmem
      cause := fun _ => hcause
      no_fault := nofun
      pass := nofun
      pixel := nofun
      paint := trivial }

/-- A command keeps the invariant. -/
theorem State.Inv.exec {i : Instr} {s t : State} (h : s.Inv) (he : exec i s = .next t) : t.Inv := by
  rcases exec_cases he with ⟨-, rfl⟩ | ⟨-, c, info, rfl⟩ | ⟨hidle, hi, hc⟩
  · exact h
  · exact h.faultedFrom c info
  · cases i with
    | init n =>
      obtain ⟨hn, rfl⟩ := hc
      exact h.complete_init hidle.2 hn
    | decode mode sel => exact h.decode hidle hc
    | setpix bank tile ly lx =>
      obtain ⟨hx, hy, ht, hb, rfl⟩ := hc
      exact h.setPixel hidle.2 s.arg hb ht hy hx
    | msnap =>
      rw [show t = msnapBody s from hc]
      exact { h with win_inited := fun _ => hi rfl, win_tile := nofun }
    | tsnap bank tile =>
      obtain ⟨ht, hb, rfl⟩ := hc
      exact h.showTile (hi rfl) hb ht
    | setbg =>
      rw [show t = setbgBody s from hc]
      exact { h with slot := nofun }
    | getbg =>
      rw [show t = getbgBody s from hc]
      exact { h with }

/-! `INIT`, word by word (rule R131). -/

@[simp] theorem tbufAt_paintMosaicWord (n : BitVec 2) (i k : Nat) (s : State) :
    (paintMosaicWord n i s).tbufAt k = s.tbufAt k := tbufAt_writeMosaic _ _ _ _

/-- Only the mosaic is written. -/
theorem paintMosaicWord_frame (n : BitVec 2) (i : Nat) (s : State) :
    ∃ mosaic, paintMosaicWord n i s = { s with mosaic := mosaic } := ⟨_, rfl⟩

theorem paintMosaicWord_cfg (n : BitVec 2) (i : Nat) (s : State) : (paintMosaicWord n i s).cfg = s.cfg := by
  simp [paintMosaicWord]

theorem paintMosaicWord_nb (n : BitVec 2) (i : Nat) (s : State) : (paintMosaicWord n i s).nb = s.nb := by
  simp [paintMosaicWord]

theorem memWf_writeMosaic {s : State} (h : s.memWf) {k : Nat} {c : Word} (hmosaic : (writeMosaic k c s).mosaicWf) :
    (writeMosaic k c s).memWf := by
  obtain ⟨htiles, hpalette, htbuf, -⟩ := h
  exact ⟨htiles, hpalette, htbuf, hmosaic⟩

theorem memWf_paintTileWord {s : State} (h : s.memWf) (i : Nat) : (paintTileWord i s).memWf := by
  obtain ⟨htiles, hpalette, ⟨hsorted, hin⟩, hmosaic⟩ := h
  exact ⟨htiles, hpalette, ⟨Cells.sorted_put hsorted, fun c hc => hin c (paintTileWord_mem hc).1⟩, hmosaic⟩

theorem memWf_paintMosaicWord {s : State} (h : s.memWf) {n : BitVec 2} (hn : n = 1#2 ∨ n = 2#2) (i : Nat) :
    (paintMosaicWord n i s).memWf := by
  obtain ⟨hn0, -⟩ := bankCount_bounds hn
  obtain ⟨htiles, hpalette, htbuf, hsorted, hin⟩ := h
  have hsorted' : Cells.sorted (paintMosaicWord n i s).mosaic := Cells.sorted_put hsorted
  have hsub : ∀ c ∈ (paintMosaicWord n i s).mosaic, c ∈ s.mosaic := fun c hc => (paintMosaicWord_mem hc hn0).1
  obtain ⟨mosaic, hframe⟩ := paintMosaicWord_frame n i s
  rw [hframe] at hsorted' hsub ⊢
  exact ⟨htiles, hpalette, htbuf, hsorted', fun c hc => hin c (hsub c hc)⟩

theorem mosaicSize_pos (c : Cfg) {n : BitVec 2} (hn : n = 1#2 ∨ n = 2#2) : 0 < mosaicSize c n := by
  obtain ⟨-, hn0, -⟩ := bankCount_bounds hn
  exact Nat.mul_pos (Nat.mul_pos hn0 (bankPitch_pos c)) (by unfold mosaicH; omega)

section
variable {s : State} {n : BitVec 2} {i : Nat} (h : s.Inv)
include h

/-- What an `INIT` that stands at tile-buffer word `i` has done. -/
theorem State.Inv.painted_tile (hp : s.phase = .paintTile n i) :
    (n = 1#2 ∨ n = 2#2) ∧ i < tbufSize n ∧ ∀ k, k < i → s.tbufAt k = s.cfg.blank := by
  have hpaint := h.paint
  rwa [State.painted, hp] at hpaint

/-- What an `INIT` that stands at mosaic word `i` has done. -/
theorem State.Inv.painted_mosaic (hp : s.phase = .paintMosaic n i) :
    (n = 1#2 ∨ n = 2#2) ∧ i < mosaicSize s.cfg n ∧ (∀ k, k < tbufSize n → s.tbufAt k = s.cfg.blank) ∧
      ∀ my mx, mx < mosaicW s.cfg n → mosaicIndex s.cfg n my mx < i →
        s.mosaicAt (mosaicKey my mx) = Machine.paint s.cfg mx my := by
  have hpaint := h.paint
  rwa [State.painted, hp] at hpaint

theorem State.Inv.busy_of_phase {p : Phase} (hp : s.phase = p) (hne : p ≠ .idle) : s.busy = true :=
  h.busy_iff.mpr (hp ▸ hne)

theorem State.Inv.paintTile (hp : s.phase = .paintTile n i) : (microStep s).Inv := by
  have hb := h.busy_of_phase hp (by simp)
  obtain ⟨hn, hi, hdone⟩ := h.painted_tile hp
  have hword (k : Nat) (hk : k < i + 1) : (paintTileWord i s).tbufAt k = s.cfg.blank := by
    rw [tbufAt_paintTileWord]
    split
    · rfl
    · exact hdone k (by omega)
  rw [microStep_paintTile hb (h.no_fault_of_busy hb) hp]
  split
  case isTrue hlt =>
    exact { h with
      memWf := memWf_paintTileWord h.memWf i
      busy_iff := by simp [paintTileWord, hb]
      pass := nofun
      pixel := nofun
      paint := ⟨hn, hlt, hword⟩ }
  case isFalse hge =>
    exact { h with
      memWf := memWf_paintTileWord h.memWf i
      busy_iff := by simp [paintTileWord, hb]
      pass := nofun
      pixel := nofun
      paint := ⟨hn, mosaicSize_pos s.cfg hn, fun k hk => hword k (by omega), fun _ _ _ => nofun⟩ }

/-- Every mosaic word up to the one `INIT` writes now is painted afterwards. -/
theorem State.Inv.painted_mosaic_succ (hp : s.phase = .paintMosaic n i) {my mx : Nat} (hx : mx < mosaicW s.cfg n)
    (hle : mosaicIndex s.cfg n my mx < i + 1) :
    (paintMosaicWord n i s).mosaicAt (mosaicKey my mx) = Machine.paint s.cfg mx my := by
  obtain ⟨-, hi, -, hdone⟩ := h.painted_mosaic hp
  rw [mosaicAt_paintMosaicWord_coord n i s hi (hx.trans (mosaicW_lt s.cfg n))]
  split
  case isTrue => rfl
  case isFalse hne =>
    have hlt : mosaicIndex s.cfg n my mx ≠ i := by
      rintro rfl
      exact hne ⟨(mosaicIndex_div s.cfg n hx).symm, (mosaicIndex_mod s.cfg n hx).symm⟩
    exact hdone my mx hx (by omega)

theorem State.Inv.paintMosaic (hp : s.phase = .paintMosaic n i) : (microStep s).Inv := by
  have hb := h.busy_of_phase hp (by simp)
  have hf := h.no_fault_of_busy hb
  obtain ⟨hn, hi, htbuf, -⟩ := h.painted_mosaic hp
  obtain ⟨hn0, -, hn2⟩ := bankCount_bounds hn
  have hmem := memWf_paintMosaicWord h.memWf hn i
  have hpainted : ∀ my mx, mx < mosaicW s.cfg n → mosaicIndex s.cfg n my mx < i + 1 →
      (paintMosaicWord n i s).mosaicAt (mosaicKey my mx) = Machine.paint s.cfg mx my :=
    fun _ _ hx hle => h.painted_mosaic_succ hp hx hle
  obtain ⟨mosaic, hframe⟩ := paintMosaicWord_frame n i s
  by_cases hlt : i + 1 < mosaicSize s.cfg n
  · rw [microStep_paintMosaic hb hf hp hlt]
    rw [hframe] at hmem hpainted ⊢
    exact { h with
      memWf := hmem
      busy_iff := by simp [hb]
      pass := nofun
      pixel := nofun
      paint := ⟨hn, hlt, htbuf, hpainted⟩ }
  · rw [microStep_completes_init hb hf hp hlt]
    rw [hframe] at hmem ⊢
    exact { h with
      memWf := memWf_relayout n hmem
      busy_iff := by simp [completeInit]
      not_both := by simp [completeInit]
      nb_le := hn2
      nb_pos := fun _ => hn0
      nb_zero := nofun
      win_inited := fun _ => rfl
      win_tile := nofun
      pass := nofun
      pixel := nofun
      paint := trivial }

end

/-! A pass, access by access (rule R170). -/

theorem writeTbufAtPxc_frame (s : State) : ∃ tbuf, writeTbufAtPxc s = { s with tbuf := tbuf } := ⟨_, rfl⟩

theorem writeMosaicAtPxc_frame (s : State) : ∃ mosaic, writeMosaicAtPxc s = { s with mosaic := mosaic } := ⟨_, rfl⟩

section
variable {s : State} (h : s.Inv)
include h

/-- A running pass may go to another of its phases; to one that writes only in a bank of the layout. -/
theorem State.Inv.goTo (hd : s.phase.decoding = true) {p : Phase} (hp : p.decoding = true)
    (hw : p.writing = true → s.pxc.b.toNat < s.nb.toNat) : ({ s with phase := p } : State).Inv := by
  have hb : s.busy = true := h.busy_iff.mpr (not_idle_of_decoding hd)
  exact { h with
    busy_iff := by simp [hb, not_idle_of_decoding hp]
    pass := fun _ => h.pass hd
    pixel := hw
    paint := painted_of_not_painting (not_painting_of_decoding hp) }

theorem State.Inv.within (hd : s.phase.decoding = true) : s.pxc.Within s.nbreq.toNat ∧ s.nbreq.toNat ≤ 2 := by
  obtain ⟨-, ht, hb, hq⟩ := h.pass hd
  exact ⟨⟨hb, ht⟩, hq⟩

theorem State.Inv.advance (hd : s.phase.decoding = true) : (advance s).Inv := by
  obtain ⟨hin, hq⟩ := h.within hd
  rcases advance_cases hq hin with ⟨p, ph, e, hph, hin', -⟩ | e
  · have hph' : ph.decoding = true ∧ ph.writing = false := by rcases hph with rfl | rfl <;> exact ⟨rfl, rfl⟩
    have hgo := h.goTo hd hph'.1 (by rw [hph'.2]; nofun)
    obtain ⟨hinit, -, -, -⟩ := h.pass hd
    rw [e]
    exact { hgo with
      pass := fun _ => ⟨hinit, hin'.tile, hin'.bank, hq⟩
      pixel := by rw [hph'.2]; nofun
      paint := painted_of_not_painting (not_painting_of_decoding hph'.1) }
  · rw [e]
    exact { h with
      busy_iff := by simp
      not_both := by simp
      pass := nofun
      pixel := nofun
      paint := trivial }

theorem State.Inv.writeTbufAtPxc (hd : s.phase.decoding = true) (hw : s.phase.writing = true) :
    (writeTbufAtPxc s).Inv := by
  obtain ⟨htiles, hpalette, htbuf, hmosaic⟩ := h.memWf
  obtain ⟨hin, -⟩ := h.within hd
  exact { h with
    memWf := ⟨htiles, hpalette, tbufWf_writeTbuf htbuf (tbufIndex_lt (h.pixel hw) hin.tile s.pxc.y.isLt s.pxc.x.isLt),
      hmosaic⟩
    paint := painted_of_not_painting (not_painting_of_decoding hd) }

theorem State.Inv.writeMosaicAtPxc (hd : s.phase.decoding = true) (hw : s.phase.writing = true) :
    (writeMosaicAtPxc s).Inv := by
  obtain ⟨-, -, -, hmosaic⟩ := h.memWf
  have hkey := pixelKey_in s.cfg s.nb (h.pixel hw) (h.within hd).1.tile s.pxc.y.isLt s.pxc.x.isLt
  have hmem : (Machine.writeMosaicAtPxc s).memWf := memWf_writeMosaic h.memWf (mosaicWf_writeMosaic hmosaic hkey)
  obtain ⟨mosaic, hframe⟩ := writeMosaicAtPxc_frame s
  rw [hframe] at hmem ⊢
  exact { h with
    memWf := hmem
    paint := painted_of_not_painting (not_painting_of_decoding hd) }

/-- A micro-step keeps the invariant. -/
theorem State.Inv.microStep : (microStep s).Inv := by
  cases hb : s.busy with
  | false =>
    rw [microStep_of_stopped (.inl hb)]
    exact h
  | true =>
    have hf := h.no_fault_of_busy hb
    cases hp : s.phase with
    | idle => exact absurd hp (h.busy_iff.mp hb)
    | paintTile n i => exact h.paintTile hp
    | paintMosaic n i => exact h.paintMosaic hp
    | readLower =>
      have hgo := h.goTo (p := .readUpper) (by rw [hp]; rfl) rfl nofun
      rcases microStep_readLower hb hf hp with ⟨v, -, e⟩ | ⟨-, e⟩ <;> rw [e]
      · exact { hgo with }
      · exact h.faultedFrom _ _
    | readUpper =>
      have hgo := h.goTo (p := .resolve) (by rw [hp]; rfl) rfl nofun
      rcases microStep_readUpper hb hf hp with ⟨v, -, e⟩ | ⟨-, e⟩ <;> rw [e]
      · exact { hgo with }
      · exact h.faultedFrom _ _
    | resolve =>
      have hgo := h.goTo (p := .check) (by rw [hp]; rfl) rfl nofun
      rcases microStep_resolve hb hf hp with ⟨c, -, e⟩ | ⟨-, e⟩ <;> rw [e]
      · exact { hgo with }
      · exact { h.faultedFrom .badColor s.pxc.info with }
    | check =>
      have hd : s.phase.decoding = true := by rw [hp]; rfl
      rcases microStep_check hb hf hp (h.within hd).1.tile with ⟨hn, e⟩ | ⟨-, e⟩ <;> rw [e]
      · exact h.goTo hd rfl fun _ => hn
      · exact h.faultedFrom _ _
    | writeTile =>
      have hd : s.phase.decoding = true := by rw [hp]; rfl
      have hw : s.phase.writing = true := by rw [hp]; rfl
      rw [microStep_writeTile hb hf hp]
      have hwritten := h.writeTbufAtPxc hd hw
      obtain ⟨tbuf, hframe⟩ := writeTbufAtPxc_frame s
      rw [hframe] at hwritten ⊢
      exact hwritten.goTo hd rfl fun _ => h.pixel hw
    | writeMosaic =>
      have hd : s.phase.decoding = true := by rw [hp]; rfl
      have hw : s.phase.writing = true := by rw [hp]; rfl
      rw [microStep_writeMosaic hb hf hp]
      have hwritten := h.writeMosaicAtPxc hd hw
      obtain ⟨mosaic, hframe⟩ := writeMosaicAtPxc_frame s
      rw [hframe] at hwritten ⊢
      exact hwritten.advance hd

/-! Commands accepted by the engine, and the host's actions. -/

theorem State.Inv.startInit (hidle : s.idle) {n : BitVec 2} (hn : n = 1#2 ∨ n = 2#2) :
    ({ s with busy := true, phase := .paintTile n 0 } : State).Inv :=
  { h with
    busy_iff := by simp
    not_both := by simp [hidle.1]
    pass := nofun
    pixel := nofun
    paint := ⟨hn, by rcases hn with rfl | rfl <;> decide, nofun⟩ }

theorem State.Inv.startDecode (hidle : s.idle) (hi : s.inited = true) (mode : Mode) (sel : Byte) :
    (startDecode mode sel { s with busy := true }).Inv := by
  have hstart : (Pxc.of 0 0 0 0).t.toNat < 384 := by decide
  have hbank : (Pxc.of 0 0 0 0).b.toNat < (banksRequested mode).toNat ∧ (banksRequested mode).toNat ≤ 2 := by
    cases mode <;> decide
  exact { h with
    busy_iff := by simp [Machine.startDecode]
    not_both := by simp [Machine.startDecode, hidle.1]
    pass := fun _ => ⟨hi, hstart, hbank⟩
    pixel := nofun
    paint := trivial }

/-- After a reset the invariant holds of everything but the inputs already because it holds at reset. -/
theorem State.Inv.resetEvent : (resetEvent s).Inv := by
  obtain ⟨htiles, hpalette, -, -⟩ := h.memWf
  exact { reset_inv with memWf := ⟨htiles, hpalette, ⟨.nil, nofun⟩, ⟨.nil, nofun⟩⟩ }

theorem Effect.inv {a : Option HostAction} {t : State} (he : Effect a s t) : t.Inv := by
  cases he with
  | command _ _ he => exact h.exec he
  | issued _ he => exact h.exec he
  | startInit hidle hn => exact h.startInit hidle hn
  | startDecode hidle hi => exact h.startDecode hidle hi _ _
  | engine => exact h.microStep
  | fault _ => exact { h.faultedFrom _ _ with }
  | host arg rdata picks => exact { h with }
  | tileByte _ =>
    obtain ⟨htiles, hrest⟩ := h.memWf
    exact { h with memWf := ⟨tilesWf_storeTileByte htiles _ _ _, hrest⟩ }
  | resolver _ =>
    obtain ⟨htiles, hpalette, hrest⟩ := h.memWf
    exact { h with memWf := ⟨htiles, paletteWf_set hpalette _ _ _, hrest⟩ }
  | reset _ => exact h.resetEvent

/-- The script is no part of the invariant. -/
theorem State.Inv.withScript (script : List HostAction) : ({ s with script := script } : State).Inv := { h with }

theorem State.Inv.step {t : State} (hs : step s = .next t) : t.Inv := by
  obtain ⟨script, he⟩ := step_effect hs
  exact he.inv (h.withScript script)

end

/-- With no bank in the layout there is no word, so nothing is asked of the memories. -/
theorem gridOk_of_no_bank {s : State} (h : s.nb = 0#2) : s.gridOk := by
  intro my mx _ hx
  rw [mosaicW, h] at hx
  simp at hx

theorem dualInv_of_no_bank {s : State} (h : s.nb = 0#2) : s.dualInv := by
  intro _ _ b t y x hb
  rw [h] at hb
  exact absurd hb (Nat.not_lt_zero b)

/-- Settles O37. -/
theorem resetMeetsTheInvariant : Obligations.ResetMeetsTheInvariant := by
  unfold Obligations.ResetMeetsTheInvariant
  exact ⟨reset_inv, gridOk_of_no_bank rfl, dualInv_of_no_bank rfl⟩

/-- Settles O38: every effect of a step keeps the invariant. -/
theorem stepKeepsTheInvariant : Obligations.StepKeepsTheInvariant := by
  unfold Obligations.StepKeepsTheInvariant
  exact fun s t h hs => h.step hs

/-- Settles O35: of a step's effects only those that complete an `INIT` change the layout; the second part is the
invariant's rule about `NB`, kept by the step. -/
theorem layoutChangesWhenInitCompletes : Obligations.LayoutChangesWhenInitCompletes := by
  unfold Obligations.LayoutChangesWhenInitCompletes
  constructor
  · intro s t hreset hs hchange
    obtain ⟨script, he⟩ := step_effect hs
    rcases he.layout hreset with ⟨hnb, hinited⟩ | ⟨hf, hf', hb, hi, hw, hmosaic | ⟨w, hw', hd, hn⟩⟩
    · exact absurd hchange (not_or.mpr ⟨not_not.mpr hnb, not_not.mpr hinited⟩)
    · exact ⟨hf, hf', hb, hi, hw, .inl hmosaic⟩
    · obtain ⟨rest, hrest⟩ := List.head?_eq_some_iff.mp hw'
      exact ⟨hf, hf', hb, hi, hw, .inr ⟨w, rest, hrest, hd, hn⟩⟩
  · exact fun s t h hs => (h.step hs).nb_zero

end Sys2Proof.Machine
end

section
/-! SUPPORT. Window reads from a state of the invariant: inside the window the word exists, and while `BUSY = 1` a read
answers the word before or after the pending write. From these O39, O46 and O47. -/

namespace Sys2Proof.Machine

/-- A word inside the window exists (rules R31, R32, R144). -/
theorem windowWord_exists {s : State} {i : Nat} (hi : i < s.winlen)
    (htile : s.winsel = .tile → s.winbank.toNat < s.nb.toNat ∧ s.wintile.toNat < 384) :
    ∃ v, windowWord i s = some v := by
  cases hw : s.winsel with
  | none =>
    rw [State.winlen, hw] at hi
    exact absurd hi (Nat.not_lt_zero i)
  | mosaic => exact ⟨_, windowWord_mosaic hw hi⟩
  | tile =>
    obtain ⟨hb, ht⟩ := htile hw
    exact ⟨_, windowWord_tile hw (hi.trans_eq (winlen_tile hw)) hb ht⟩

section
variable {s : State} (h : s.Inv)
include h

/-- Inside the window a read while `BUSY = 1` raises nothing and answers one of the two words (rule R253). -/
theorem State.Inv.windowRead_busy (hb : s.busy = true) {i : Nat} (hsel : s.winsel ≠ .none) (hi : i < s.winlen) :
    ∃ v, windowRead i s = .next { s with rdata := v, picks := s.picks + 1 } ∧
      (windowWord i s = some v ∨ windowWord i (pendingWrite s) = some v) := by
  have hread : windowRead i s = tornRead i s := by
    rw [windowRead, if_neg (Bool.eq_false_iff.mp (h.no_fault_of_busy hb)), if_neg (not_or.mpr ⟨hsel, hi.not_ge⟩),
      if_pos hb]
  obtain ⟨v, hv⟩ := windowWord_exists hi h.win_tile
  obtain ⟨v', hv'⟩ := windowWord_exists (s := pendingWrite s) (by rw [pendingWrite_frame]; exact hi)
    (by rw [pendingWrite_frame]; exact h.win_tile)
  rw [hread, tornRead]
  split
  case isTrue => exact ⟨v, by rw [hv]; rfl, .inl hv⟩
  case isFalse => exact ⟨v', by rw [hv']; rfl, .inr hv'⟩

theorem State.Inv.windowRead_next (i : Nat) : ∃ t, windowRead i s = .next t := by
  by_cases hin : s.fault = true ∨ s.winsel = .none ∨ s.winlen ≤ i
  · unfold windowRead
    rcases hin with hf | hout
    · exact ⟨_, if_pos hf⟩
    · rw [if_pos hout]
      split <;> exact ⟨_, rfl⟩
  · obtain ⟨hf, hsel, hi⟩ : s.fault = false ∧ s.winsel ≠ .none ∧ i < s.winlen := by simpa using hin
    cases hb : s.busy with
    | true =>
      obtain ⟨v, hv, -⟩ := h.windowRead_busy hb hsel hi
      exact ⟨_, hv⟩
    | false =>
      obtain ⟨v, hv⟩ := windowWord_exists hi h.win_tile
      exact ⟨_, windowRead_inside ⟨hf, hb⟩ hi hv⟩

theorem State.Inv.portRead_next (off : BitVec 21) : ∃ t, portRead off s = .next t := by
  unfold portRead
  split_ifs
  · exact ⟨_, rfl⟩
  · exact ⟨_, rfl⟩
  · exact h.windowRead_next _

end

theorem commandWrite_next (w : Word) (s : State) : ∃ t, commandWrite w s = .next t := by
  unfold commandWrite
  split
  · exact exec_next _ s
  · exact ⟨_, rfl⟩

theorem portWrite_next (off : BitVec 21) (w : Word) (s : State) : ∃ t, portWrite off w s = .next t := by
  unfold portWrite
  split_ifs
  · exact commandWrite_next w s
  all_goals exact ⟨_, rfl⟩

theorem commandIssue_next (w : Word) (s : State) : ∃ t, commandIssue w s = .next t := by
  rcases commandIssue_cases w s with e | ⟨n, e⟩ | ⟨mode, sel, e⟩ | ⟨i, -, e⟩
  · exact ⟨_, e⟩
  · exact ⟨_, e⟩
  · exact ⟨_, e⟩
  · rw [e]
    exact exec_next i s

/-- Settles O39: of the host's actions only a window read could stop, and inside the window the word exists. -/
theorem noStepStops : Obligations.NoStepStops := by
  unfold Obligations.NoStepStops
  intro s h
  cases hs : s.script with
  | nil => exact ⟨_, step_of_no_action hs⟩
  | cons a rest =>
    rw [step_of_action hs]
    cases a with
    | write off w => exact portWrite_next off w _
    | issue w => exact commandIssue_next w _
    | read off => exact (h.withScript rest).portRead_next off
    | _ => exact ⟨_, rfl⟩

theorem portRead_of_index {off : BitVec 21} {i : Nat} (h : off.toNat = 0x100000 + i) (s : State) :
    portRead off s = windowRead i s := by
  rw [portRead_window (by omega), h, Nat.add_sub_cancel_left]

/-- Sequencing changes nothing the window shows. -/
theorem sequencedFrom.windowWord {s t : State} (h : sequencedFrom s t) (i : Nat) : windowWord i t = windowWord i s := by
  rw [h]
  rfl

/-- Settles O46: during a pass the word after the pending write is the word after the pending micro-step. -/
theorem windowReadDuringPass : Obligations.WindowReadDuringPass := by
  unfold Obligations.WindowReadDuringPass
  intro s i h hd hsel hi
  have hb : s.busy = true := h.busy_iff.mpr (not_idle_of_decoding hd)
  have hstep := microStep_sequenced hb (h.no_fault_of_busy hb) (not_painting_of_decoding hd)
  obtain ⟨v, hread, hword⟩ := h.windowRead_busy hb hsel hi
  rw [← hstep.windowWord] at hword
  exact ⟨v, hread, fun off hoff => (portRead_of_index hoff s).trans hread, hword⟩

/-! The word the pending write of an `INIT` leaves in the window. -/

section
variable {s : State} {n : BitVec 2} {i j : Nat} (h : s.Inv)
include h

/-- A write to the tile buffer shows in the window only at the word it writes. -/
theorem State.Inv.windowWord_paintTile (hi : i < s.winlen) (j : Nat) :
    windowWord i (paintTileWord j s) = windowWord i s ∨
    (s.winsel = .tile ∧ j = tbufIndex s.winbank.toNat s.wintile.toNat (i / 8) (i % 8) ∧
      windowWord i (paintTileWord j s) = some s.cfg.blank) := by
  cases hw : s.winsel with
  | none =>
    rw [State.winlen, hw] at hi
    exact absurd hi (Nat.not_lt_zero i)
  | mosaic =>
    rw [windowWord_mosaic hw hi, windowWord_mosaic (s := paintTileWord j s) hw hi]
    exact .inl rfl
  | tile =>
    obtain ⟨hb, ht⟩ := h.win_tile hw
    rw [winlen_tile hw] at hi
    rw [windowWord_tile hw hi hb ht, windowWord_tile (s := paintTileWord j s) hw hi hb ht, tbufAt_paintTileWord]
    by_cases hj : j = tbufIndex s.winbank.toNat s.wintile.toNat (i / 8) (i % 8)
    · exact .inr ⟨rfl, hj, congrArg some (if_pos hj)⟩
    · exact .inl (congrArg some (if_neg hj))

/-- A write to the mosaic likewise. -/
theorem State.Inv.windowWord_paintMosaic (hi : i < s.winlen) (hp : s.phase = .paintMosaic n j) :
    windowWord i (paintMosaicWord n j s) = windowWord i s ∨
    (s.winsel = .mosaic ∧ i / mosaicW s.cfg s.nb = j / mosaicW s.cfg n ∧
      i % mosaicW s.cfg s.nb = j % mosaicW s.cfg n ∧
      windowWord i (paintMosaicWord n j s) =
        some (Machine.paint s.cfg (i % mosaicW s.cfg s.nb) (i / mosaicW s.cfg s.nb))) := by
  obtain ⟨-, hj, -, -⟩ := h.painted_mosaic hp
  cases hw : s.winsel with
  | none =>
    rw [State.winlen, hw] at hi
    exact absurd hi (Nat.not_lt_zero i)
  | mosaic =>
    have hx := (index_in_mosaic (hi.trans_eq (winlen_mosaic hw))).2.trans (mosaicW_lt s.cfg s.nb)
    rw [windowWord_mosaic hw hi, windowWord_mosaic (s := paintMosaicWord n j s) hw hi]
    have hword := mosaicAt_paintMosaicWord_coord n j (my := i / mosaicW s.cfg s.nb) s hj hx
    by_cases he : i / mosaicW s.cfg s.nb = j / mosaicW s.cfg n ∧ i % mosaicW s.cfg s.nb = j % mosaicW s.cfg n
    · exact .inr ⟨rfl, he.1, he.2, congrArg some (hword.trans (if_pos he))⟩
    · exact .inl (congrArg some (hword.trans (if_neg he)))
  | tile =>
    obtain ⟨hb, ht⟩ := h.win_tile hw
    rw [winlen_tile hw] at hi
    rw [windowWord_tile hw hi hb ht, windowWord_tile (s := paintMosaicWord n j s) hw hi hb ht]
    exact .inl rfl

end

/-- Settles O47: while an `INIT` paints the pending write is one word of one memory, which the window shows or not. -/
theorem windowReadDuringInit : Obligations.WindowReadDuringInit := by
  unfold Obligations.WindowReadDuringInit
  intro s i h hpaint hsel hi
  have hb : s.busy = true := h.busy_iff.mpr fun hidle => by rw [hidle] at hpaint; cases hpaint
  obtain ⟨v, hread, hword⟩ := h.windowRead_busy hb hsel hi
  refine ⟨v, hread, fun off hoff => (portRead_of_index hoff s).trans hread, ?_⟩
  rcases hword with hbefore | hafter
  · exact .inl hbefore
  · cases hp : s.phase with
    | paintTile n j =>
      rw [pendingWrite, hp] at hafter
      rcases h.windowWord_paintTile hi j with e | ⟨hw, hj, e⟩
      · exact .inl (e.symm.trans hafter)
      · exact .inr (.inr ⟨n, hw, by rw [hj], Option.some.inj (hafter.symm.trans e)⟩)
    | paintMosaic n j =>
      rw [pendingWrite, hp] at hafter
      rcases h.windowWord_paintMosaic hi hp with e | ⟨hw, hrow, hcolumn, e⟩
      · exact .inl (e.symm.trans hafter)
      · exact .inr (.inl ⟨n, j, hw, rfl, hrow, hcolumn, Option.some.inj (hafter.symm.trans e)⟩)
    | _ =>
      rw [hp] at hpaint
      cases hpaint

end Sys2Proof.Machine
end

section
/-! SUPPORT. Gridlines and the dual write, over commands, micro-steps and steps (rules R140, R175): from these O31, O40
and O41. -/

namespace Sys2Proof.Machine

/-! Gridlines (rules R132, R175). -/

/-- Inside the mosaic every word exists, so gridlines are a matter of the words alone. -/
theorem gridOk_iff {s : State} : s.gridOk ↔ ∀ my mx, my < mosaicH s.cfg → mx < mosaicW s.cfg s.nb →
    isGrid s.cfg mx my = true → s.mosaicAt (mosaicKey my mx) = s.cfg.grid := by
  have hword {my mx : Nat} (hy : my < mosaicH s.cfg) (hx : mx < mosaicW s.cfg s.nb) :
      s.mosaicWord my mx = some (s.mosaicAt (mosaicKey my mx)) := if_pos ⟨hx, hy⟩
  constructor
  · intro h my mx hy hx hg
    exact Option.some.inj ((hword hy hx).symm.trans (h my mx hy hx hg))
  · intro h my mx hy hx hg
    rw [hword hy hx, h my mx hy hx hg]

theorem paint_of_grid {c : Cfg} {mx my : Nat} (h : isGrid c mx my = true) : paint c mx my = c.grid := if_pos h

theorem paint_pixel (c : Cfg) (b : Nat) {t y x : Nat} (ht : t < 384) (hy : y < 8) (hx : x < 8) :
    paint c (pixelMx c b t x) (pixelMy c t y) = c.blank := by
  rw [paint, pixel_not_grid c b ht hy hx]
  rfl

theorem gridOk_recreate (n : BitVec 2) (s : State) : (finishInit (recreate n s)).gridOk := by
  intro my mx hy hx hg
  have hword := mosaicWord_recreate (n := n) (s := s) hy hx
  rw [mosaicWord_finishInit, hword]
  exact congrArg some (paint_of_grid hg)

theorem exec_gridOk {i : Instr} {s t : State} (h : s.gridOk) (he : exec i s = .next t) : t.gridOk := by
  by_cases hinit : ∃ n, i = .init n
  · obtain ⟨n, rfl⟩ := hinit
    rcases exec_cases he with ⟨-, rfl⟩ | ⟨-, c, info, rfl⟩ | ⟨-, -, -, rfl⟩
    · exact h
    · exact h
    · exact gridOk_recreate n s
  · have hkeep := gridlinesSurviveCommands i s t (not_exists.mp hinit) he
    intro my mx hy hx hg
    rw [(exec_sameInputs he).cfg] at hy hx hg ⊢
    rw [(exec_layout (not_exists.mp hinit) he).1] at hx
    rw [hkeep my mx hg, h my mx hy hx hg]

theorem gridOk_writeTbuf {s : State} (i : Nat) (c : Word) (h : s.gridOk) : (writeTbuf i c s).gridOk := h

theorem gridOk_writeMosaic {s : State} (h : s.gridOk) {k : Nat} (c : Word)
    (hk : ∀ my mx, mx < mosaicW s.cfg s.nb → isGrid s.cfg mx my = true → mosaicKey my mx ≠ k) :
    (writeMosaic k c s).gridOk := by
  refine gridOk_iff.mpr fun my mx hy hx hg => ?_
  rw [mosaicAt_writeMosaic, if_neg (hk my mx hx hg).symm]
  exact gridOk_iff.mp h my mx hy hx hg

theorem sequencedFrom.gridOk {s t : State} (h : sequencedFrom s t) (hs : s.gridOk) : t.gridOk := by
  rw [h]
  exact hs

/-! The layout an `INIT` has painted (rule R131). -/

/-- Every word of the layout for `n` banks holds what `INIT` paints there. -/
structure FullyPainted (n : BitVec 2) (s : State) : Prop where
  tbuf : ∀ k, k < tbufSize n → s.tbufAt k = s.cfg.blank
  mosaic : ∀ my mx, my < mosaicH s.cfg → mx < mosaicW s.cfg n → s.mosaicAt (mosaicKey my mx) = paint s.cfg mx my

/-- So it is once the last word has been written. -/
theorem State.Inv.fullyPainted {s : State} (h : s.Inv) {n : BitVec 2} {i : Nat} (hp : s.phase = .paintMosaic n i)
    (hlast : mosaicSize s.cfg n ≤ i + 1) : FullyPainted n (paintMosaicWord n i s) := by
  obtain ⟨-, -, htbuf, -⟩ := h.painted_mosaic hp
  constructor
  · intro k hk
    rw [tbufAt_paintMosaicWord, paintMosaicWord_cfg, htbuf k hk]
  · intro my mx hy hx
    rw [paintMosaicWord_cfg] at hy hx ⊢
    exact h.painted_mosaic_succ hp hx ((mosaicIndex_lt s.cfg n hx hy).trans_le hlast)

section
variable {n : BitVec 2} {s : State} (h : FullyPainted n s)
include h

theorem FullyPainted.gridOk : (completeInit n s).gridOk := by
  refine gridOk_iff.mpr fun my mx hy hx hg => ?_
  have hword := mosaicAt_relayout n s (inMosaic_mosaicKey s.cfg n hx hy)
  exact hword.trans ((h.mosaic my mx hy hx).trans (paint_of_grid hg))

theorem FullyPainted.dual : (completeInit n s).dual := by
  intro b t y x hb ht hy hx
  have htbuf := tbufAt_relayout n s (tbufIndex_lt hb ht hy hx)
  have hmosaic := mosaicAt_relayout n s (pixelKey_in s.cfg n hb ht hy hx)
  have hpaint := h.mosaic _ _ (pixelMy_lt s.cfg ht hy) (pixelMx_lt s.cfg n (t := t) hb hx)
  rw [paint_pixel s.cfg b ht hy hx] at hpaint
  exact (htbuf.trans (h.tbuf _ (tbufIndex_lt hb ht hy hx))).trans (hmosaic.trans hpaint).symm

end

section
variable {s : State} (h : s.Inv) (hg : s.gridOk)
include h hg

/-- A pending write to a gridline pixel is `INIT`'s, and writes it `GRID_RGBA`. -/
theorem pendingWrite_gridOk : (pendingWrite s).gridOk := by
  have hgrid := gridOk_iff.mp hg
  cases hp : s.phase with
  | paintMosaic n i =>
    obtain ⟨-, hi, -⟩ := h.painted_mosaic hp
    rw [pendingWrite, hp]
    refine gridOk_iff.mpr fun my mx hy hx hline => ?_
    rw [paintMosaicWord_cfg] at hy hx hline ⊢
    rw [paintMosaicWord_nb] at hx
    rw [mosaicAt_paintMosaicWord_coord n i s hi (hx.trans (mosaicW_lt s.cfg _))]
    split
    · exact paint_of_grid hline
    · exact hgrid my mx hy hx hline
  | writeMosaic =>
    have hd : s.phase.decoding = true := by rw [hp]; rfl
    have hw : s.phase.writing = true := by rw [hp]; rfl
    rw [pendingWrite, hp]
    exact gridOk_writeMosaic hg s.col fun my mx hx hline =>
      grid_ne_pixelKey s.cfg s.nb (h.pixel hw) (h.within hd).1.tile s.pxc.y.isLt s.pxc.x.isLt hx hline
  | paintTile n i =>
    rw [pendingWrite, hp]
    exact gridOk_writeTbuf i s.cfg.blank hg
  | writeTile =>
    rw [pendingWrite, hp]
    exact gridOk_writeTbuf _ s.col hg
  | _ =>
    rw [pendingWrite, hp]
    exact hg

theorem microStep_gridOk : (microStep s).gridOk := by
  rcases microStep_cases s with e | hseq | ⟨n, i, -, -, hp, hlast, e⟩
  · rw [e]
    exact hg
  · exact hseq.gridOk (pendingWrite_gridOk h hg)
  · rw [e]
    exact (h.fullyPainted hp hlast).gridOk

theorem Effect.gridOk {a : Option HostAction} {t : State} (he : Effect a s t) : t.gridOk := by
  cases he with
  | command _ _ he => exact exec_gridOk hg he
  | issued _ he => exact exec_gridOk hg he
  | engine => exact microStep_gridOk h hg
  | reset _ => exact gridOk_of_no_bank rfl
  | _ => exact hg

end

/-- Settles O40: of a step's effects only pixel writes and a completed `INIT` touch a gridline pixel. -/
theorem stepKeepsGridlines : Obligations.StepKeepsGridlines := by
  unfold Obligations.StepKeepsGridlines
  intro s t h hg hs
  obtain ⟨script, he⟩ := step_effect hs
  exact he.gridOk (h.withScript script) hg

/-! The dual write (rule R140). -/

theorem dual_recreate (n : BitVec 2) (s : State) : (finishInit (recreate n s)).dual := by
  intro b t y x hb ht hy hx
  have htbuf (i : Nat) : (finishInit (recreate n s)).tbufAt i = s.cfg.blank := rfl
  have hmosaic (k : Nat) : (finishInit (recreate n s)).mosaicAt k = paintAt s.cfg k := rfl
  exact (htbuf _).trans ((hmosaic _).trans (paintAt_pixelKey s.cfg n hb ht hy hx)).symm

theorem dual_setPixel {s : State} (h : s.dual) {b t y x : Nat} (c : Word) (hb : b < s.nb.toNat) (ht : t < 384)
    (hy : y < 8) (hx : x < 8) : (setPixel b t y x c s).dual := by
  intro b' t' y' x' hb' ht' hy' hx'
  have htbuf := tbufAt_setPixel b t y x (tbufIndex b' t' y' x') c s
  have hmosaic := mosaicAt_setPixel b t y x (pixelKey s.cfg b' t' y' x') c s
  refine htbuf.trans (Eq.trans ?_ hmosaic.symm)
  by_cases hi : tbufIndex b t y x = tbufIndex b' t' y' x'
  · obtain ⟨rfl, rfl, rfl, rfl⟩ := tbufIndex_inj ht hy hx ht' hy' hx' hi
    rw [if_pos rfl, if_pos rfl]
  · have hk : pixelKey s.cfg b t y x ≠ pixelKey s.cfg b' t' y' x' := fun hk => hi (by
      obtain ⟨rfl, rfl, rfl, rfl⟩ := pixelKey_inj s.cfg s.nb hb hb' ht hy hx ht' hy' hx' hk
      rfl)
    rw [if_neg hi, if_neg hk]
    exact h b' t' y' x' hb' ht' hy' hx'

/-- The pixels a pass has done are dual, the others are as they were. -/
theorem PixelsDone.dual {s u : State} {sel : Byte} {k : Nat} (hd : PixelsDone s sel k u) (h : s.dual) : u.dual := by
  intro b t y x hb ht hy hx
  rw [hd.nb] at hb
  by_cases hk : tbufIndex b t y x < k
  · exact (hd.before b t y x ht hy hx hk).2.2
  · have hne : ∀ b' t' y' x', t' < 384 → y' < 8 → x' < 8 → tbufIndex b' t' y' x' < k →
        pixelKey s.cfg b t y x ≠ pixelKey s.cfg b' t' y' x' := by
      intro b' t' y' x' ht' hy' hx' hk' he
      have hb' := (hd.before b' t' y' x' ht' hy' hx' hk').1
      obtain ⟨rfl, rfl, rfl, rfl⟩ := pixelKey_inj s.cfg s.nb hb hb' ht hy hx ht' hy' hx' he
      exact hk hk'
    rw [State.dualAt, hd.cfg, hd.after _ (not_lt.mp hk), hd.elsewhere _ hne]
    exact h b t y x hb ht hy hx

theorem exec_dual {i : Instr} {s u : State} (h : s.dual) (he : exec i s = .next u) : u.dual := by
  rcases exec_cases he with ⟨-, rfl⟩ | ⟨-, c, info, rfl⟩ | ⟨-, -, hc⟩
  · exact h
  · exact h
  · cases i with
    | init n => obtain ⟨-, rfl⟩ := hc; exact dual_recreate n s
    | decode mode sel =>
      obtain ⟨k, -, hd⟩ := exec_decode_pixelsDone he
      exact hd.dual h
    | setpix bank tile ly lx => obtain ⟨hx, hy, ht, hb, rfl⟩ := hc; exact dual_setPixel h s.arg hb ht hy hx
    | tsnap bank tile => obtain ⟨-, -, rfl⟩ := hc; exact h
    | msnap => rw [show u = msnapBody s from hc]; exact h
    | setbg => rw [show u = setbgBody s from hc]; exact h
    | getbg => rw [show u = getbgBody s from hc]; exact h

/-- Settles O31. -/
theorem commandsKeepMemoriesDual : Obligations.CommandsKeepMemoriesDual := by
  unfold Obligations.CommandsKeepMemoriesDual
  exact fun i s u h he => exec_dual h he

/-! Outside a pass's two writes `State.dualInv` is `State.dual`. -/

theorem dualInv_of_dual {s : State} (h : s.dual) (hp : s.phase ≠ .writeMosaic) : s.dualInv :=
  fun _ _ b t y x hb ht hy hx => ⟨fun hwrite => absurd hwrite.1 hp, fun _ => h b t y x hb ht hy hx⟩

theorem dual_of_dualInv {s : State} (h : s.dualInv) (hf : s.fault = false) (hp : s.phase.painting = false)
    (hp' : s.phase ≠ .writeMosaic) : s.dual :=
  fun b t y x hb ht hy hx => (h hf hp b t y x hb ht hy hx).2 fun hwrite => hp' hwrite.1

theorem dualInv_of_fault {s : State} (h : s.fault = true) : s.dualInv := by
  intro hf
  rw [h] at hf
  cases hf

theorem dualInv_of_painting {s : State} (h : s.phase.painting = true) : s.dualInv := by
  intro _ hp
  rw [h] at hp
  cases hp

/-- A command ends with the sequencer where it was, or idle after a fault. -/
theorem exec_phase_idle {i : Instr} {s t : State} (hp : s.phase = .idle) (he : exec i s = .next t) :
    t.phase = .idle := by
  rcases exec_cases he with ⟨-, rfl⟩ | ⟨-, c, info, rfl⟩ | ⟨hidle, -, hc⟩
  · exact hp
  · rfl
  · cases i with
    | init n => obtain ⟨-, rfl⟩ := hc; exact hp
    | decode mode sel =>
      rcases completes_decode hidle hc with ⟨-, hd, -⟩ | ⟨-, b, -, hd⟩
      · rw [hd.frame]
        exact hp
      · rw [hd.frame]
    | setpix bank tile ly lx => obtain ⟨-, -, -, -, rfl⟩ := hc; exact hp
    | tsnap bank tile => obtain ⟨-, -, rfl⟩ := hc; exact hp
    | msnap => rw [show t = msnapBody s from hc]; exact hp
    | setbg => rw [show t = setbgBody s from hc]; exact hp
    | getbg => rw [show t = getbgBody s from hc]; exact hp

section
variable {s : State} (h : s.Inv) (hdual : s.dualInv)
include h hdual

theorem exec_dualInv {i : Instr} {t : State} (he : exec i s = .next t) : t.dualInv := by
  rcases exec_cases he with ⟨-, rfl⟩ | ⟨-, c, info, rfl⟩ | ⟨⟨hf, hb⟩, -, -⟩
  · exact hdual
  · exact dualInv_of_fault rfl
  · have hp := h.phase_idle hb
    have hs : s.dual := dual_of_dualInv hdual hf (by rw [hp]; rfl) (by rw [hp]; nofun)
    exact dualInv_of_dual (exec_dual hs he) (by rw [exec_phase_idle hp he]; nofun)

/-- The write to the tile buffer leaves one pixel to be written to the mosaic. -/
theorem dualInv_writeTile (hf : s.fault = false) (hp : s.phase = .writeTile) :
    ({ writeTbufAtPxc s with phase := .writeMosaic } : State).dualInv := by
  have hs : s.dual := dual_of_dualInv hdual hf (by rw [hp]; rfl) (by rw [hp]; nofun)
  intro _ _ b t y x hb ht hy hx
  have hword := tbufAt_writeTbuf (tbufIndex s.pxc.b.toNat s.pxc.t.toNat s.pxc.y.toNat s.pxc.x.toNat)
    (tbufIndex b t y x) s.col s
  constructor
  · rintro ⟨-, rfl, rfl, rfl, rfl⟩
    exact hword.trans (if_pos rfl)
  · intro hother
    have hne : tbufIndex s.pxc.b.toNat s.pxc.t.toNat s.pxc.y.toNat s.pxc.x.toNat ≠ tbufIndex b t y x := by
      intro he
      have htile := (h.within (by rw [hp]; rfl)).1.tile
      obtain ⟨rfl, rfl, rfl, rfl⟩ := tbufIndex_inj htile s.pxc.y.isLt s.pxc.x.isLt ht hy hx he
      exact hother ⟨rfl, rfl, rfl, rfl, rfl⟩
    exact (hword.trans (if_neg hne)).trans (hs b t y x hb ht hy hx)

/-- The write to the mosaic makes that pixel dual as well. -/
theorem dual_writeMosaic (hf : s.fault = false) (hp : s.phase = .writeMosaic) {k : Nat}
    (hk : pixelKey s.cfg s.pxc.b.toNat s.pxc.t.toNat s.pxc.y.toNat s.pxc.x.toNat = k) :
    (writeMosaic k s.col s).dual := by
  have hw : s.phase.writing = true := by rw [hp]; rfl
  have hd : s.phase.decoding = true := by rw [hp]; rfl
  intro b t y x hb ht hy hx
  obtain ⟨hpending, hothers⟩ := hdual hf (by rw [hp]; rfl) b t y x hb ht hy hx
  have hword := mosaicAt_writeMosaic k (pixelKey s.cfg b t y x) s.col s
  refine Eq.trans ?_ hword.symm
  by_cases hkey : k = pixelKey s.cfg b t y x
  · obtain ⟨rfl, rfl, rfl, rfl⟩ := pixelKey_inj s.cfg s.nb (h.pixel hw) hb (h.within hd).1.tile s.pxc.y.isLt
      s.pxc.x.isLt ht hy hx (hk.trans hkey)
    rw [if_pos hkey]
    exact hpending ⟨hp, rfl, rfl, rfl, rfl⟩
  · rw [if_neg hkey]
    refine hothers fun hwrite => hkey ?_
    obtain ⟨-, rfl, rfl, rfl, rfl⟩ := hwrite
    exact hk.symm

theorem microStep_dualInv : (microStep s).dualInv := by
  cases hb : s.busy with
  | false =>
    rw [microStep_of_stopped (.inl hb)]
    exact hdual
  | true =>
    have hf := h.no_fault_of_busy hb
    have hs (hp : s.phase.painting = false) (hp' : s.phase ≠ .writeMosaic) : s.dual := dual_of_dualInv hdual hf hp hp'
    cases hp : s.phase with
    | idle => exact absurd hp (h.busy_iff.mp hb)
    | paintTile n i =>
      rw [microStep_paintTile hb hf hp]
      refine dualInv_of_painting ?_
      dsimp only
      split <;> rfl
    | paintMosaic n i =>
      by_cases hlast : i + 1 < mosaicSize s.cfg n
      · rw [microStep_paintMosaic hb hf hp hlast]
        exact dualInv_of_painting rfl
      · rw [microStep_completes_init hb hf hp hlast]
        exact dualInv_of_dual (h.fullyPainted hp (not_lt.mp hlast)).dual nofun
    | readLower =>
      have hs := hs (by rw [hp]; rfl) (by rw [hp]; nofun)
      rcases microStep_readLower hb hf hp with ⟨v, -, e⟩ | ⟨-, e⟩ <;> rw [e]
      · exact dualInv_of_dual hs nofun
      · exact dualInv_of_fault rfl
    | readUpper =>
      have hs := hs (by rw [hp]; rfl) (by rw [hp]; nofun)
      rcases microStep_readUpper hb hf hp with ⟨v, -, e⟩ | ⟨-, e⟩ <;> rw [e]
      · exact dualInv_of_dual hs nofun
      · exact dualInv_of_fault rfl
    | resolve =>
      have hs := hs (by rw [hp]; rfl) (by rw [hp]; nofun)
      rcases microStep_resolve hb hf hp with ⟨c, -, e⟩ | ⟨-, e⟩ <;> rw [e]
      · exact dualInv_of_dual hs nofun
      · exact dualInv_of_fault rfl
    | check =>
      have hs := hs (by rw [hp]; rfl) (by rw [hp]; nofun)
      rcases microStep_check hb hf hp (h.within (by rw [hp]; rfl)).1.tile with ⟨-, e⟩ | ⟨-, e⟩ <;> rw [e]
      · exact dualInv_of_dual hs nofun
      · exact dualInv_of_fault rfl
    | writeTile =>
      rw [microStep_writeTile hb hf hp]
      exact dualInv_writeTile h hdual hf hp
    | writeMosaic =>
      have hwritten : (writeMosaicAtPxc s).dual := dual_writeMosaic h hdual hf hp rfl
      obtain ⟨hin, hq⟩ := h.within (by rw [hp]; rfl)
      rw [microStep_writeMosaic hb hf hp]
      obtain ⟨mosaic, hframe⟩ := writeMosaicAtPxc_frame s
      rw [hframe] at hwritten ⊢
      rcases advance_cases (s := { s with mosaic := mosaic }) hq hin with ⟨p, ph, e, hph, -⟩ | e <;> rw [e]
      · exact dualInv_of_dual hwritten (by rcases hph with rfl | rfl <;> nofun)
      · exact dualInv_of_dual hwritten nofun

theorem Effect.dualInv {a : Option HostAction} {t : State} (he : Effect a s t) : t.dualInv := by
  cases he with
  | command _ _ he => exact exec_dualInv h hdual he
  | issued _ he => exact exec_dualInv h hdual he
  | startInit _ _ => exact dualInv_of_painting rfl
  | startDecode hidle _ =>
    have hp := h.phase_idle hidle.2
    have hs : s.dual := dual_of_dualInv hdual hidle.1 (by rw [hp]; rfl) (by rw [hp]; nofun)
    exact dualInv_of_dual hs nofun
  | engine => exact microStep_dualInv h hdual
  | fault _ => exact dualInv_of_fault rfl
  | reset _ => exact dualInv_of_no_bank rfl
  | _ => exact hdual

end

/-- Settles O41: the two writes of a pixel follow each other, and every other effect keeps both memories or paints them
anew. -/
theorem stepKeepsMemoriesDual : Obligations.StepKeepsMemoriesDual := by
  unfold Obligations.StepKeepsMemoriesDual
  intro s t h hdual hs
  obtain ⟨script, he⟩ := step_effect hs
  exact he.dualInv (h.withScript script) hdual

end Sys2Proof.Machine
end

section
/-! SUPPORT. What a pass does is a function of its inputs: the failure it records, the pixels it writes, and the latches
it ends with (rules R167, R170, R172). From these O24, O27, O28 and O29. -/

namespace Sys2Proof.Machine

/-! A pass that faulted, as what it had done before (rules R202, R211). -/

/-- Fault entry leaves the words of the pixel memories as the pass had written them. -/
theorem PassFault.words {s0 u : State} {bank : Nat} (h : PassFault s0 bank u) :
    ∃ v k, PassDone s0 k v ∧ ∀ i, u.tbufAt i = v.tbufAt i ∧ u.mosaicAt i = v.mosaicAt i := by
  obtain ⟨v, hv, htbuf, hmosaic⟩ := h.done
  have hcfg : u.cfg = v.cfg := by rw [h.frame, hv.frame]
  refine ⟨v, _, hv, fun i => ⟨?_, ?_⟩⟩
  · rw [State.tbufAt, State.tbufAt, htbuf, hcfg]
  · rw [State.mosaicAt, State.mosaicAt, hmosaic, hcfg]

/-- Settles O29: what a pass changes it has assembled as an opaque colour, whether or not it faults later. -/
theorem decodedWordsAreOpaque : Obligations.DecodedWordsAreOpaque := by
  unfold Obligations.DecodedWordsAreOpaque
  intro s u mode sel h i
  rcases exec_cases h with ⟨-, rfl⟩ | ⟨-, c, info, rfl⟩ | ⟨hidle, -, hc⟩
  · exact ⟨fun hne => absurd rfl hne, fun hne => absurd rfl hne⟩
  · exact ⟨fun hne => absurd rfl hne, fun hne => absurd rfl hne⟩
  · rcases completes_decode hidle hc with ⟨-, hd, -⟩ | ⟨-, b, -, hd⟩
    · exact hd.alpha i
    · obtain ⟨v, k, hv, hwords⟩ := hd.words
      rw [(hwords i).1, (hwords i).2]
      exact hv.alpha i

/-- An accepted `DECODE` that faults has faulted inside its pass. -/
theorem passFault_of_exec {s u : State} {mode : Mode} {sel : Byte} (h : s.idle) (hi : s.inited = true)
    (he : exec (.decode mode sel) s = .next u) (hf : u.fault = true) :
    ∃ b, b < (banksRequested mode).toNat ∧ PassFault (latchDecode mode sel s) b u := by
  obtain ⟨v, he', hc⟩ := exec_decode_of_idle h hi mode sel
  obtain rfl : v = u := Host.Outcome.next.inj (he'.symm.trans he)
  rcases completes_decode h hc with ⟨hok, -⟩ | ⟨-, hfault⟩
  · rw [hok] at hf
    cases hf
  · exact hfault

/-- Settles O24: the laws of a pass say where it stood, what it had done and which check failed. -/
theorem passFaultsArePrecise : Obligations.PassFaultsArePrecise := by
  unfold Obligations.PassFaultsArePrecise
  intro s u mode sel hidle hi he hf
  obtain ⟨b, hb, hd⟩ := passFault_of_exec hidle hi he hf
  have hpixels := hd.pixelsDone
  exact ⟨hd.bank_eq ▸ hb, hd.range.2, hd.frame, hpixels.before, hpixels.after, hpixels.elsewhere, hd.cause⟩

/-! The failure a pixel gives, as a function of the inputs (rules R62, R166, R168, R203). -/

/-- What a pass that faults at pixel (`b`, `t`, `y`, `x`) records: `FCAUSE` and `FINFO`. -/
def failureAt (s : State) (sel : Byte) (b t y x : Nat) : Byte × Word :=
  match s.tileByte b (16 * t + 2 * y), s.tileByte b (16 * t + 2 * y + 1) with
  | none, _ => (9#8, tileInfo b (16 * t + 2 * y))
  | some _, none => (9#8, tileInfo b (16 * t + 2 * y + 1))
  | some lo, some up =>
    match s.resolve sel (colourIndex lo up x) with
    | none => (10#8, coordInfo b t y x)
    | some _ => (8#8, coordInfo b t y x)

theorem PassFault.record {s0 u : State} {bank : Nat} (h : PassFault s0 bank u) :
    (u.fcause, u.finfo) = failureAt s0 s0.selr u.pxc.b.toNat u.pxc.t.toNat u.pxc.y.toNat u.pxc.x.toNat := by
  unfold failureAt
  rcases h.cause with ⟨-, hlo, hc, hi⟩ | ⟨-, hlo, hup, hc, hi⟩ | ⟨lo, up, hlo, hup, hr, hc, hi⟩ | ⟨hdec, -, hc, hi⟩
  · rw [hlo, hc, hi]
  · obtain ⟨lo, hlo⟩ := Option.ne_none_iff_exists'.mp hlo
    rw [hlo, hup, hc, hi]
  · rw [hlo, hup, hc, hi]
    dsimp only
    rw [hr]
  · obtain ⟨hlo, hup⟩ := tileBytes_of_decoded hdec
    obtain ⟨lo, hlo⟩ := Option.ne_none_iff_exists'.mp hlo
    obtain ⟨up, hup⟩ := Option.ne_none_iff_exists'.mp hup
    simp only [State.decoded, hlo, hup, ne_eq, Option.map_eq_none_iff] at hdec
    obtain ⟨c, hr⟩ := Option.ne_none_iff_exists'.mp hdec
    rw [hlo, hup, hc, hi]
    dsimp only
    rw [hr]

/-- A pixel that can be done is not the one a pass faults at. -/
theorem PassFault.not_doable {s0 u : State} {bank : Nat} (h : PassFault s0 bank u)
    (hb : u.pxc.b.toNat < s0.nb.toNat) :
    s0.decoded s0.selr u.pxc.b.toNat u.pxc.t.toNat u.pxc.y.toNat u.pxc.x.toNat = none := by
  by_contra hdec
  obtain ⟨hlo, hup⟩ := tileBytes_of_decoded hdec
  rcases h.cause with ⟨-, hnone, -⟩ | ⟨-, -, hnone, -⟩ | ⟨lo, up, hlo', hup', hr, -⟩ | ⟨-, hbad, -⟩
  · exact hlo hnone
  · exact hup hnone
  · simp [State.decoded, hlo', hup', hr] at hdec
  · exact absurd hb hbad.not_gt

/-! Two passes with the same inputs (rule R172). -/

section
variable {s s' : State} (h : SameInputs s s')
include h

theorem SameInputs.tileByte (b off : Nat) : s'.tileByte b off = s.tileByte b off := by
  rw [State.tileByte, State.tileByte, h.tiles]

theorem SameInputs.resolve (sel : Byte) (i : BitVec 2) : s'.resolve sel i = s.resolve sel i := by
  rw [State.resolve, State.resolve, h.palette]

theorem SameInputs.decoded (sel : Byte) (b t y x : Nat) : s'.decoded sel b t y x = s.decoded sel b t y x := by
  simp only [State.decoded, h.tileByte, h.resolve]

theorem SameInputs.failureAt (sel : Byte) (b t y x : Nat) :
    failureAt s' sel b t y x = failureAt s sel b t y x := by
  simp only [Machine.failureAt, h.tileByte, h.resolve]

/-- Where one pass has done a pixel, another with the same layout does not fault. -/
theorem PixelsDone.not_passFault {u u' : State} {mode : Mode} {sel : Byte} {k bank : Nat} (hnb : s'.nb = s.nb)
    (hd : PixelsDone s sel k u) (hf : PassFault (latchDecode mode sel s') bank u')
    (hk : tbufIndex u'.pxc.b.toNat u'.pxc.t.toNat u'.pxc.y.toNat u'.pxc.x.toNat < k) : False := by
  obtain ⟨hb, hdec, -⟩ := hd.before _ _ _ _ hf.range.2 u'.pxc.y.isLt u'.pxc.x.isLt hk
  have hnone : s'.decoded sel _ _ _ _ = none := hf.not_doable (hb.trans_eq (congrArg BitVec.toNat hnb.symm))
  rw [h.decoded, hdec] at hnone
  cases hnone

end

/-- A fault in a requested bank is at a pixel of the pass. -/
theorem PassFault.index_lt {s0 u : State} {bank n : Nat} (h : PassFault s0 bank u) (hb : bank < n) :
    tbufIndex u.pxc.b.toNat u.pxc.t.toNat u.pxc.y.toNat u.pxc.x.toNat < n * 24576 :=
  (tbufIndex_lt_iff h.range.2 u.pxc.y.isLt u.pxc.x.isLt n).mpr (h.bank_eq ▸ hb)

/-- Two passes with the same inputs that fault do so at the same pixel with the same record. -/
theorem PassFault.record_eq {s s' u u' : State} {mode : Mode} {sel : Byte} {bank bank' : Nat} (h : SameInputs s s')
    (hnb : s'.nb = s.nb) (hf : PassFault (latchDecode mode sel s) bank u)
    (hf' : PassFault (latchDecode mode sel s') bank' u') : u'.fcause = u.fcause ∧ u'.finfo = u.finfo := by
  have hsymm : SameInputs s' s := ⟨h.cfg.symm, h.tiles.symm, h.palette.symm⟩
  have hnot := fun hlt => PixelsDone.not_passFault h hnb hf.pixelsDone hf' hlt
  have hnot' := fun hlt => PixelsDone.not_passFault hsymm hnb.symm hf'.pixelsDone hf hlt
  obtain ⟨hb, ht, hy, hx⟩ := tbufIndex_inj hf'.range.2 u'.pxc.y.isLt u'.pxc.x.isLt hf.range.2 u.pxc.y.isLt
    u.pxc.x.isLt (Nat.le_antisymm (not_lt.mp hnot') (not_lt.mp hnot))
  have hlatched : SameInputs (latchDecode mode sel s) (latchDecode mode sel s') := ⟨h.cfg, h.tiles, h.palette⟩
  have hrecord := hf'.record
  rw [hb, ht, hy, hx, hlatched.failureAt] at hrecord
  exact Prod.mk.inj (hrecord.trans hf.record.symm)

/-- Two passes with the same inputs that have done a pixel have written the same words there. -/
theorem PixelsDone.words_eq {s s' u u' : State} {sel : Byte} {k : Nat} (h : SameInputs s s') (hd : PixelsDone s sel k u)
    (hd' : PixelsDone s' sel k u') {b t y x : Nat} (ht : t < 384) (hy : y < 8) (hx : x < 8)
    (hk : tbufIndex b t y x < k) : u'.tbufAt (tbufIndex b t y x) = u.tbufAt (tbufIndex b t y x) ∧
      u'.mosaicAt (pixelKey s.cfg b t y x) = u.mosaicAt (pixelKey s.cfg b t y x) := by
  obtain ⟨-, hdec, hdual⟩ := hd.before b t y x ht hy hx hk
  obtain ⟨-, hdec', hdual'⟩ := hd'.before b t y x ht hy hx hk
  have htbuf : u'.tbufAt (tbufIndex b t y x) = u.tbufAt (tbufIndex b t y x) := by
    rw [h.decoded, hdec] at hdec'
    exact (Option.some.inj hdec').symm
  rw [State.dualAt, hd.cfg] at hdual
  rw [State.dualAt, hd'.cfg, h.cfg] at hdual'
  exact ⟨htbuf, hdual'.symm.trans (htbuf.trans hdual)⟩

/-- Settles O28: two passes with the same inputs fault at the same pixel or do the same pixels. -/
theorem decodeIsPure : Obligations.DecodeIsPure := by
  unfold Obligations.DecodeIsPure
  intro s s' u u' mode sel hidle hidle' hi hi' hcfg hnb htiles hpalette he he'
  have hsame : SameInputs s s' := ⟨hcfg, htiles, hpalette⟩
  have hsame' : SameInputs s' s := ⟨hcfg.symm, htiles.symm, hpalette.symm⟩
  cases hf : u.fault with
  | true =>
    obtain ⟨b, hb, hd⟩ := passFault_of_exec hidle hi he hf
    cases hf' : u'.fault with
    | true =>
      obtain ⟨b', -, hd'⟩ := passFault_of_exec hidle' hi' he' hf'
      exact ⟨rfl, fun _ => hd.record_eq hsame hnb hd', nofun⟩
    | false =>
      have hdone := pixelsDone_of_no_fault he' hf'
      exact absurd (hd.index_lt hb) fun hlt => hdone.not_passFault hsame' hnb.symm hd hlt
  | false =>
    have hdone := pixelsDone_of_no_fault he hf
    cases hf' : u'.fault with
    | true =>
      obtain ⟨b', hb', hd'⟩ := passFault_of_exec hidle' hi' he' hf'
      exact absurd (hd'.index_lt hb') fun hlt => hdone.not_passFault hsame hnb hd' hlt
    | false =>
      have hdone' := pixelsDone_of_no_fault he' hf'
      exact ⟨rfl, nofun, fun _ b t y x hb ht hy hx =>
        hdone.words_eq hsame hdone' ht hy hx ((tbufIndex_lt_iff ht hy hx _).mpr hb)⟩

/-! The latches a completed pass ends with (rule R27). -/

/-- `IDX` and `COL` are those of the pixel `PXC` names, from the row latches. -/
def ColourLatched (u : State) : Prop :=
  u.idx = colourIndex u.lo u.up u.pxc.x.toNat ∧ ∃ c, u.resolve u.selr u.idx = some c ∧ u.col = opaqueColour c

/-- What every turn of a loop ends with, a loop that does not fault ends with. -/
theorem forEach_ends_with {Q : State → Prop} {f : Nat → State → State} {n : Nat} (hn : n ≠ 0)
    (hturn : ∀ k s, k < n → s.fault = false → (f k s).fault = false → Q (f k s)) {s : State} (hs : s.fault = false)
    (hok : (forEach f (List.range n) s).fault = false) : Q (forEach f (List.range n) s) := by
  rcases forEach_range (I := fun k u => k ≠ 0 → Q u) (Q := fun _ => True) n (fun k u hk hu _ => by
      cases hf : (f k u).fault with
      | true => exact .inr ⟨rfl, trivial⟩
      | false => exact .inl ⟨rfl, fun _ => hturn k u hk hu hf⟩) hs (fun h => absurd rfl h) with ⟨-, h⟩ | ⟨hf, -⟩
  · exact h hn
  · rw [hok] at hf
    cases hf

theorem decodePixel_latched {b t y x : Nat} (hb : b < 2) (ht : t < 384) (hy : y < 8) (hx : x < 8) {s : State}
    (h : s.fault = false) (hok : (decodePixel b t y x s).fault = false) : ColourLatched (decodePixel b t y x s) := by
  rcases decodePixel_cases hb ht hy hx h with ⟨c, hc, -, e⟩ | ⟨-, e⟩ | ⟨c, -, -, e⟩
  · have hcolumn := (pxc_of hb ht hy hx).2.2.2
    rw [e, setPixel_frame]
    exact ⟨by rw [hcolumn], c, hc, rfl⟩
  · rw [e] at hok
    cases hok
  · rw [e] at hok
    cases hok

theorem decodeRow_latched {b t y : Nat} (hb : b < 2) (ht : t < 384) (hy : y < 8) {s : State}
    (hok : (decodeRow b t y s).fault = false) : ColourLatched (decodeRow b t y s) := by
  unfold decodeRow at hok ⊢
  generalize ifOk readUpper (readLower { s with pxc := Pxc.of b t y 0 }) = fetched at hok ⊢
  cases hf : fetched.fault with
  | true =>
    rw [ifOk_of_fault hf, hf] at hok
    cases hok
  | false =>
    rw [ifOk_of_ok hf] at hok ⊢
    exact forEach_ends_with (by decide) (fun x u hx hu hux => decodePixel_latched hb ht hy hx hu hux) hf hok

theorem decodeBody_latched {mode : Mode} {sel : Byte} {s : State} (h : s.fault = false)
    (hok : (decodeBody mode sel s).fault = false) : ColourLatched (decodeBody mode sel s) := by
  have hn := banksRequested_toNat mode
  have htile {b t : Nat} (hb : b < 2) (ht : t < 384) (u : State) (hu : u.fault = false)
      (hok : (decodeTile b t u).fault = false) : ColourLatched (decodeTile b t u) :=
    forEach_ends_with (by decide) (fun y v hy _ hv => decodeRow_latched hb ht hy hv) hu hok
  have hbank {b : Nat} (hb : b < 2) (u : State) (hu : u.fault = false) (hok : (decodeBank b u).fault = false) :
      ColourLatched (decodeBank b u) :=
    forEach_ends_with (by decide) (fun t v ht hv hok => htile hb ht v hv hok) hu hok
  exact forEach_ends_with (by omega) (fun b v hb hv hok => hbank (by omega) v hv hok)
    (s := latchDecode mode sel s) h hok

theorem completes_decode_latched {mode : Mode} {sel : Byte} {s t : State} (h : s.idle)
    (hc : completes (.decode mode sel) s t) (hok : t.fault = false) : ColourLatched t := by
  have hc : t = complete (decodeBody mode sel { s with busy := true }) := hc
  rw [complete_eq] at hc
  rw [hc] at hok ⊢
  exact decodeBody_latched (s := { s with busy := true }) h.1 hok

/-! A pass done twice (rule R172). -/

/-- Canonical memories with defaults that read the same are the same list. -/
theorem Cells.eq_of_get {α : Type} (d : Nat → α) {m n : Cells α} (hm : Cells.sorted m) (hn : Cells.sorted n)
    (hm' : ∀ c ∈ m, c.2 ≠ d c.1) (hn' : ∀ c ∈ n, c.2 ≠ d c.1)
    (h : ∀ a, Cells.get (d a) a m = Cells.get (d a) a n) : m = n := by
  refine Cells.ext_find hm hn fun a => ?_
  have ha := h a
  unfold Cells.get at ha
  cases hfm : Cells.find a m with
  | none =>
    cases hfn : Cells.find a n with
    | none => rfl
    | some v =>
      rw [hfm, hfn] at ha
      exact absurd ha.symm (hn' _ (Cells.mem_of_find hfn))
  | some v =>
    cases hfn : Cells.find a n with
    | none =>
      rw [hfm, hfn] at ha
      exact absurd ha (hm' _ (Cells.mem_of_find hfm))
    | some w =>
      rw [hfm, hfn] at ha
      exact congrArg some ha

/-- Every tile-buffer index is that of a coordinate (rule R65). -/
theorem tbufIndex_surjective (i : Nat) : ∃ b t y x, t < 384 ∧ y < 8 ∧ x < 8 ∧ i = tbufIndex b t y x := by
  refine ⟨i / 24576, i / 64 % 384, i / 8 % 8, i % 8, ?_, ?_, ?_, ?_⟩
  · omega
  · omega
  · omega
  · unfold tbufIndex
    omega

/-- A pass done again from where it ended changes no word. -/
theorem PixelsDone.again {s u v : State} {sel : Byte} {k : Nat} (h : SameInputs s u) (hd : PixelsDone s sel k u)
    (hd' : PixelsDone u sel k v) (i : Nat) : v.tbufAt i = u.tbufAt i ∧ v.mosaicAt i = u.mosaicAt i := by
  constructor
  · obtain ⟨b, t, y, x, ht, hy, hx, rfl⟩ := tbufIndex_surjective i
    by_cases hk : tbufIndex b t y x < k
    · exact (hd.words_eq h hd' ht hy hx hk).1
    · exact hd'.after _ (not_lt.mp hk)
  · by_cases hpixel : ∃ b t y x, t < 384 ∧ y < 8 ∧ x < 8 ∧ tbufIndex b t y x < k ∧ i = pixelKey s.cfg b t y x
    · obtain ⟨b, t, y, x, ht, hy, hx, hk, rfl⟩ := hpixel
      exact (hd.words_eq h hd' ht hy hx hk).2
    · refine hd'.elsewhere i fun b t y x ht hy hx hk he => hpixel ⟨b, t, y, x, ht, hy, hx, hk, ?_⟩
      rwa [h.cfg] at he

/-- Two canonical states whose words read the same have the same pixel memories. -/
theorem memories_eq {u v : State} (hcfg : v.cfg = u.cfg) (hu : u.tbufWf) (hu' : u.mosaicWf) (hv : v.tbufWf)
    (hv' : v.mosaicWf) (h : ∀ i, v.tbufAt i = u.tbufAt i ∧ v.mosaicAt i = u.mosaicAt i) :
    v.tbuf = u.tbuf ∧ v.mosaic = u.mosaic := by
  unfold State.tbufWf at hv
  unfold State.mosaicWf at hv'
  unfold State.tbufAt State.mosaicAt at h
  rw [hcfg] at hv hv' h
  exact ⟨Cells.eq_of_get (fun _ => u.cfg.blank) hv.1 hu.1 (fun c hc => (hv.2 c hc).2) (fun c hc => (hu.2 c hc).2)
      fun i => (h i).1,
    Cells.eq_of_get (paintAt u.cfg) hv'.1 hu'.1 (fun c hc => (hv'.2 c hc).2) (fun c hc => (hu'.2 c hc).2)
      fun i => (h i).2⟩

/-- The latches at the end of a pass are a function of the inputs. -/
theorem latches_eq {s0 s1 u v : State} {b t y : Nat} (h : SameInputs s0 s1) (hu : EndsAt s0 b t y u)
    (hv : EndsAt s1 b t y v) (huv : SameInputs u v) (hsel : v.selr = u.selr) (hcu : ColourLatched u)
    (hcv : ColourLatched v) : v.pxc = u.pxc ∧ v.lo = u.lo ∧ v.up = u.up ∧ v.idx = u.idx ∧ v.col = u.col := by
  obtain ⟨⟨hlo, hup⟩, hpxc⟩ := hu
  obtain ⟨⟨hlo', hup'⟩, hpxc'⟩ := hv
  obtain ⟨hidx, c, hc, hcol⟩ := hcu
  obtain ⟨hidx', c', hc', hcol'⟩ := hcv
  have epxc : v.pxc = u.pxc := hpxc'.trans hpxc.symm
  have elo : v.lo = u.lo := Option.some.inj (hlo'.symm.trans ((h.tileByte _ _).trans hlo))
  have eup : v.up = u.up := Option.some.inj (hup'.symm.trans ((h.tileByte _ _).trans hup))
  have eidx : v.idx = u.idx := by rw [hidx', hidx, epxc, elo, eup]
  rw [huv.resolve, hsel, eidx, hc] at hc'
  exact ⟨epxc, elo, eup, eidx, by rw [hcol', hcol, Option.some.inj hc']⟩

/-- What a `DECODE` that ends without fault was and did. -/
theorem exec_decode_ended {s u : State} {mode : Mode} {sel : Byte} (h : exec (.decode mode sel) s = .next u)
    (hf : u.fault = false) : s.idle ∧ s.inited = true ∧
      PassDone (latchDecode mode sel s) ((banksRequested mode).toNat * 24576) u ∧
      EndsAt (latchDecode mode sel s) ((banksRequested mode).toNat - 1) 383 7 u ∧ ColourLatched u := by
  rcases exec_cases h with ⟨hfault, rfl⟩ | ⟨-, c, info, rfl⟩ | ⟨hidle, hi, hc⟩
  · rw [hfault] at hf
    cases hf
  · cases hf
  · rcases completes_decode hidle hc with ⟨-, hd, he⟩ | ⟨hfault, -⟩
    · exact ⟨hidle, hi rfl, hd, he, completes_decode_latched hidle hc hf⟩
    · rw [hfault] at hf
      cases hf

/-- Settles O27: the second pass cannot fault, writes the words that are there and ends with the same latches. -/
theorem decodeTwiceIsDecodeOnce : Obligations.DecodeTwiceIsDecodeOnce := by
  unfold Obligations.DecodeTwiceIsDecodeOnce
  intro s u mode sel htbuf hmosaic h hf
  obtain ⟨hidle, hi, hd, he, hc⟩ := exec_decode_ended h hf
  have hsame : SameInputs s u := exec_sameInputs h
  have hlayout : u.nb = s.nb ∧ u.inited = s.inited := exec_layout (by simp) h
  have hidle' : u.idle := ⟨hf, by rw [hd.frame]; exact hidle.2⟩
  obtain ⟨v, h'⟩ := exec_next (.decode mode sel) u
  have hf' : v.fault = false := by
    by_contra hfault
    obtain ⟨b, hb, hbad⟩ := passFault_of_exec hidle' (hlayout.2.trans hi) h' (by simpa using hfault)
    exact hd.pixelsDone.not_passFault hsame hlayout.1 hbad (hbad.index_lt hb)
  obtain ⟨-, -, hd', he', hc'⟩ := exec_decode_ended h' hf'
  have hsame' : SameInputs u v := exec_sameInputs h'
  have hsel : u.selr = sel := by rw [hd.frame]; rfl
  have hsel' : v.selr = sel := by rw [hd'.frame]; rfl
  have hu := hd.canonical.1 htbuf
  have hu' := hd.canonical.2 hmosaic
  obtain ⟨etbuf, emosaic⟩ := memories_eq hsame'.cfg hu hu' (hd'.canonical.1 hu) (hd'.canonical.2 hu')
    (hd.pixelsDone.again hsame hd'.pixelsDone)
  obtain ⟨epxc, elo, eup, eidx, ecol⟩ :=
    latches_eq (s0 := latchDecode mode sel s) (s1 := latchDecode mode sel u) ⟨hsame.cfg, hsame.tiles, hsame.palette⟩ he
      he' hsame' (hsel'.trans hsel.symm) hc hc'
  have hsecond : v = latchDecode mode sel u := by
    rw [hd'.frame, etbuf, emosaic, epxc, elo, eup, eidx, ecol]
    rfl
  have hfirst : latchDecode mode sel u = u := by
    rw [hd.frame]
    rfl
  rw [h', hsecond, hfirst]

end Sys2Proof.Machine
end

section
/-! SUPPORT. `INIT` at the micro-step level (rules R10, R76, R131): one word a micro-step, and run to its end the result
of the command level. From these O34 and O33. -/

namespace Sys2Proof.Machine

/-! Runs of the engine. -/

theorem microSteps_of_stopped {s : State} (h : s.busy = false ∨ s.fault = true) (n : Nat) : microSteps n s = s := by
  induction n with
  | zero => rfl
  | succ n ih => rw [microSteps, microStep_of_stopped h, ih]

theorem microSteps_add (m n : Nat) (s : State) : microSteps (m + n) s = microSteps n (microSteps m s) := by
  induction m generalizing s with
  | zero => rw [Nat.zero_add]; rfl
  | succ m ih => rw [Nat.succ_add, microSteps, ih, microSteps]

theorem microSteps_succ (n : Nat) (s : State) : microSteps (n + 1) s = microStep (microSteps n s) :=
  microSteps_add n 1 s

/-! One word (rule R131). -/

theorem tbufAt_withPhase (p : Phase) (k : Nat) (s : State) : ({ s with phase := p } : State).tbufAt k = s.tbufAt k :=
  rfl

theorem mosaicAt_withPhase (p : Phase) (k : Nat) (s : State) :
    ({ s with phase := p } : State).mosaicAt k = s.mosaicAt k := rfl

theorem tbufAt_completeInit {n : BitVec 2} {k : Nat} (s : State) (hk : k < tbufSize n) :
    (completeInit n s).tbufAt k = s.tbufAt k := tbufAt_relayout n s hk

theorem mosaicAt_completeInit {n : BitVec 2} {k : Nat} (s : State) (hk : inMosaic s.cfg n k = true) :
    (completeInit n s).mosaicAt k = s.mosaicAt k := mosaicAt_relayout n s hk

section
variable {s : State} {n : BitVec 2} {i : Nat} (hb : s.busy = true) (hf : s.fault = false)
  (hp : s.phase = .paintMosaic n i)
include hb hf hp

/-- Of the mosaic words of the new layout a micro-step changes the one `INIT` writes; the last one drops others. -/
theorem mosaicAt_microStep_paintMosaic {k : Nat} (hk : inMosaic s.cfg n k = true) :
    (microStep s).mosaicAt k = (paintMosaicWord n i s).mosaicAt k := by
  by_cases hi : i + 1 < mosaicSize s.cfg n
  · rw [microStep_paintMosaic hb hf hp hi, mosaicAt_withPhase]
  · rw [← paintMosaicWord_cfg n i s] at hk
    rw [microStep_completes_init hb hf hp hi, mosaicAt_completeInit _ hk]

/-- It changes no tile-buffer word of the new layout. -/
theorem tbufAt_microStep_paintMosaic {k : Nat} (hk : k < tbufSize n) : (microStep s).tbufAt k = s.tbufAt k := by
  rw [← tbufAt_paintMosaicWord n i k s]
  by_cases hi : i + 1 < mosaicSize s.cfg n
  · rw [microStep_paintMosaic hb hf hp hi, tbufAt_withPhase]
  · rw [microStep_completes_init hb hf hp hi, tbufAt_completeInit _ hk]

end

/-- Settles O34: the equations of a micro-step of `INIT`, read word by word. -/
theorem initPaintsWordByWord : Obligations.InitPaintsWordByWord := by
  unfold Obligations.InitPaintsWordByWord
  intro s n i hb hf hn
  constructor
  · intro hp
    rw [microStep_paintTile hb hf hp]
    refine ⟨rfl, fun k => ?_, rfl⟩
    have hword := tbufAt_paintTileWord i k s
    rwa [if_congr (eq_comm (a := i)) rfl rfl] at hword
  · intro hp hi my mx
    refine ⟨?word, fun k hk => tbufAt_microStep_paintMosaic hb hf hp hk, ?next, ?last⟩
    case word =>
      intro my' mx' hy hx
      rw [mosaicAt_microStep_paintMosaic hb hf hp (inMosaic_mosaicKey s.cfg n hx hy),
        mosaicAt_paintMosaicWord_coord n i s hi (hx.trans (mosaicW_lt s.cfg n))]
      refine if_ctx_congr Iff.rfl (fun he => ?_) fun _ => rfl
      rw [he.1, he.2]
    case next =>
      intro hlt
      have hword (k : Nat) (hk : k ≠ mosaicKey my mx) : (paintMosaicWord n i s).mosaicAt k = s.mosaicAt k :=
        (mosaicAt_paintMosaicWord n i k s).trans (if_neg hk.symm)
      obtain ⟨mosaic, hframe⟩ := paintMosaicWord_frame n i s
      rw [hframe] at hword
      rw [microStep_paintMosaic hb hf hp hlt, hframe]
      exact ⟨rfl, hword⟩
    case last =>
      intro hge
      obtain ⟨mosaic, hframe⟩ := paintMosaicWord_frame n i s
      rw [microStep_completes_init hb hf hp hge.not_gt, hframe]
      rfl

/-! All words (rule R131). -/

/-- Where an `INIT` accepted in state `a` stands after `i` writes to `TBUF`: no word below `i` is listed any more. -/
theorem microSteps_paintTile {a : State} {n : BitVec 2} (hb : a.busy = true) (hf : a.fault = false)
    (hp : a.phase = .paintTile n 0) (hn : 0 < tbufSize n) {i : Nat} (hi : i ≤ tbufSize n) :
    ∃ tbuf, (∀ c ∈ tbuf, ¬ c.1 < i) ∧ microSteps i a =
      { a with tbuf := tbuf, phase := if i < tbufSize n then .paintTile n i else .paintMosaic n 0 } := by
  induction i with
  | zero =>
    refine ⟨a.tbuf, fun _ _ => Nat.not_lt_zero _, ?_⟩
    rw [if_pos hn, ← hp]
    rfl
  | succ i ih =>
    obtain ⟨tbuf, hlisted, hrun⟩ := ih (Nat.le_of_succ_le hi)
    rw [if_pos (Nat.lt_of_succ_le hi)] at hrun
    generalize hs : ({ a with tbuf := tbuf, phase := .paintTile n i } : State) = s at hrun
    have hb' : s.busy = true := by rw [← hs]; exact hb
    have hf' : s.fault = false := by rw [← hs]; exact hf
    refine ⟨(paintTileWord i s).tbuf, fun c hc => ?_, ?_⟩
    · obtain ⟨hc', hne⟩ := paintTileWord_mem hc
      have hge := hlisted c (by rw [← hs] at hc'; exact hc')
      omega
    · rw [microSteps_succ, hrun, microStep_paintTile hb' hf' (by rw [← hs]), ← hs]
      rfl

/-- No word of the layout for `n` banks with a linear index below `i` is listed. -/
def MosaicCleared (c : Cfg) (n : BitVec 2) (i : Nat) (m : Cells Word) : Prop :=
  ∀ e ∈ m, ∀ my mx, mx < mosaicW c n → mosaicIndex c n my mx < i → e.1 ≠ mosaicKey my mx

theorem mosaicCleared_succ {s : State} {n : BitVec 2} {i : Nat} (hn : n ≠ 0#2)
    (h : MosaicCleared s.cfg n i s.mosaic) : MosaicCleared s.cfg n (i + 1) (paintMosaicWord n i s).mosaic := by
  intro e he my mx hx hlt
  obtain ⟨he', hne⟩ := paintMosaicWord_mem he hn
  by_cases hindex : mosaicIndex s.cfg n my mx = i
  · rwa [← hindex, mosaicIndex_div s.cfg n hx, mosaicIndex_mod s.cfg n hx] at hne
  · exact h e he' my mx hx (by omega)

theorem MosaicCleared.not_in {c : Cfg} {n : BitVec 2} {m : Cells Word} (h : MosaicCleared c n (mosaicSize c n) m) :
    ∀ e ∈ m, inMosaic c n e.1 = false := by
  intro e he
  by_contra hin
  obtain ⟨my, mx, hy, hx, hkey⟩ := mosaicKey_of_in (Bool.eq_true_of_not_eq_false hin)
  exact h e he my mx hx (mosaicIndex_lt c n hx hy) hkey

/-- Where it stands after `i` writes to `MOSAIC`, but for the last. -/
theorem microSteps_paintMosaic {a : State} {n : BitVec 2} (hb : a.busy = true) (hf : a.fault = false)
    (hp : a.phase = .paintMosaic n 0) (hn : n ≠ 0#2) {i : Nat} (hi : i < mosaicSize a.cfg n) :
    ∃ mosaic, MosaicCleared a.cfg n i mosaic ∧
      microSteps i a = { a with mosaic := mosaic, phase := .paintMosaic n i } := by
  induction i with
  | zero =>
    refine ⟨a.mosaic, fun _ _ _ _ _ => nofun, ?_⟩
    rw [← hp]
    rfl
  | succ i ih =>
    obtain ⟨mosaic, hcleared, hrun⟩ := ih (Nat.lt_of_succ_lt hi)
    have hcleared' := mosaicCleared_succ (s := { a with mosaic := mosaic, phase := .paintMosaic n i }) hn hcleared
    have hstep := microStep_paintMosaic (s := { a with mosaic := mosaic, phase := .paintMosaic n i }) hb hf rfl hi
    obtain ⟨mosaic', hframe⟩ := paintMosaicWord_frame n i { a with mosaic := mosaic, phase := .paintMosaic n i }
    rw [hframe] at hcleared' hstep
    exact ⟨mosaic', hcleared', by rw [microSteps_succ, hrun, hstep]⟩

/-- `BUSY` and the sequencer set on acceptance and cleared on completion are as they were. -/
theorem sequencer_restored {s : State} (hb : s.busy = false) (hp : s.phase = .idle) :
    { s with busy := false, phase := .idle } = s := by
  rw [← hb, ← hp]

/-- The last word written, the painted layout is the freshly made one of the command level. -/
theorem completeInit_eq_recreate {s u : State} {n : BitVec 2} {tbuf mosaic : Cells Word} {phase : Phase}
    (hb : s.busy = false) (hp : s.phase = .idle)
    (hu : u = { s with busy := true, tbuf := tbuf, mosaic := mosaic, phase := phase })
    (htbuf : ∀ c ∈ tbuf, ¬ c.1 < tbufSize n) (hmosaic : MosaicCleared s.cfg n (mosaicSize s.cfg n) mosaic) :
    completeInit n u = finishInit (recreate n s) := by
  subst hu
  rw [completeInit, relayout_of_painted n htbuf hmosaic.not_in]
  exact congrArg (fun s => finishInit (recreate n s)) (sequencer_restored hb hp)

/-- An accepted `INIT`, left to run, ends in the freshly painted layout of the command level. -/
theorem microSteps_init {s : State} {n : BitVec 2} (hidle : s.idle) (hp : s.phase = .idle) (hn : n = 1#2 ∨ n = 2#2) :
    microSteps (tbufSize n + mosaicSize s.cfg n) { s with busy := true, phase := .paintTile n 0 } =
      finishInit (recreate n s) := by
  obtain ⟨hf, hb⟩ := hidle
  obtain ⟨hn0, hpos, -⟩ := bankCount_bounds hn
  obtain ⟨tbuf, htbuf, hrun⟩ := microSteps_paintTile (a := { s with busy := true, phase := .paintTile n 0 }) rfl hf rfl
    (Nat.mul_pos hpos (by decide)) le_rfl
  rw [if_neg (lt_irrefl _)] at hrun
  obtain ⟨m, hm⟩ := Nat.exists_eq_add_one.mpr (mosaicSize_pos s.cfg hn)
  have hlt : m < mosaicSize s.cfg n := by omega
  obtain ⟨mosaic, hcleared, hrun'⟩ := microSteps_paintMosaic
    (a := { s with busy := true, tbuf := tbuf, phase := .paintMosaic n 0 }) rfl hf rfl hn0 hlt
  generalize hlast : ({ s with busy := true, tbuf := tbuf, mosaic := mosaic, phase := .paintMosaic n m } : State) = v
    at hrun'
  have hcleared' : MosaicCleared s.cfg n (mosaicSize s.cfg n) (paintMosaicWord n m v).mosaic := by
    rw [hm, ← hlast]
    exact mosaicCleared_succ (s := { s with busy := true, tbuf := tbuf, mosaic := mosaic, phase := .paintMosaic n m })
      hn0 hcleared
  have hstep : microStep v = completeInit n (paintMosaicWord n m v) := by
    rw [← hlast]
    exact microStep_completes_init rfl hf rfl (by dsimp only; omega)
  obtain ⟨mosaic', hframe⟩ := paintMosaicWord_frame n m v
  rw [hframe] at hcleared'
  rw [microSteps_add, hrun, hm, microSteps_succ, hrun', hstep, hframe]
  exact completeInit_eq_recreate hb hp (by rw [← hlast]) htbuf hcleared'

/-! Acceptance at the two levels (rule R130). -/

/-- Acceptance stops every command in the same way, or lets it start. -/
theorem accept_stops_or_starts (w : Word) (needsInit : Bool) (s : State) :
    (¬ (s.idle ∧ (needsInit = true → s.inited = true)) ∧
      ∃ r, (r.busy = false ∨ r.fault = true) ∧ ∀ start, accept w needsInit start s = r) ∨
    (s.idle ∧ (needsInit = true → s.inited = true) ∧
      ∀ start, accept w needsInit start s = start { s with busy := true }) := by
  rcases accept_cases w needsInit s with ⟨hf, e⟩ | ⟨hno, -, c, e⟩ | hstart
  · refine .inl ⟨fun hacc => ?_, s, .inr hf, e⟩
    rw [hacc.1.1] at hf
    cases hf
  · exact .inl ⟨hno, _, .inr rfl, e⟩
  · exact .inr hstart

/-- Settles O33: acceptance is the same at both levels, and an accepted `INIT` faults at once or paints to its end. -/
theorem initLevelsAgree : Obligations.InitLevelsAgree := by
  unfold Obligations.InitLevelsAgree
  intro s n hp
  have hissue := commandIssue_init (decodeInvertsEncode (.init n)) s
  refine ⟨_, hissue, ?_⟩
  rcases accept_stops_or_starts (encode (.init n)) false s with ⟨hno, r, hr, he⟩ | ⟨hidle, -, he⟩
  · rw [he, microSteps_of_stopped hr]
    exact ⟨congrArg Host.Outcome.next (he _), fun hidle => absurd ⟨hidle, nofun⟩ hno⟩
  · rw [he]
    rcases startInit_cases n (s := { s with busy := true }) hidle.1 with ⟨hn, e⟩ | ⟨hn, e⟩
    · rw [e]
      exact ⟨(exec_init_completes hidle hn).trans (congrArg Host.Outcome.next (microSteps_init hidle hp hn).symm),
        fun _ _ => rfl⟩
    · rw [e, microSteps_of_stopped (.inr rfl)]
      exact ⟨exec_init_badBankcount hidle hn, fun _ hn' => absurd hn' hn⟩

end Sys2Proof.Machine
end

section
/-! SUPPORT. `DECODE` at the micro-step level (rules R10, R130, R170): each part of the loop nest of rule R160 is a run of
the engine followed by one advance of `PXC`. From these O32. -/

namespace Sys2Proof.Machine

/-! The pixel counter at a known pixel. -/

theorem advance_at {s : State} {b t y x : Nat} (hpxc : s.pxc = Pxc.of b t y x) (hb : b < 2) (ht : t < 384) (hy : y < 8)
    (hx : x < 8) : advance s =
      if x < 7 then { s with pxc := Pxc.of b t y (x + 1), phase := .resolve }
      else if y < 7 then { s with pxc := Pxc.of b t (y + 1) 0, phase := .readLower }
      else if t < 383 then { s with pxc := Pxc.of b (t + 1) 0 0, phase := .readLower }
      else if b + 1 < s.nbreq.toNat then { s with pxc := Pxc.of (b + 1) 0 0 0, phase := .readLower }
      else finish s := by
  obtain ⟨eb, et, ey, ex⟩ := pxc_of hb ht hy hx
  simp only [advance, hpxc, eb, et, ey, ex]

/-! Runs. -/

/-- A command is running, with `q` banks requested. -/
structure Running (q : BitVec 2) (s : State) : Prop where
  fault : s.fault = false
  busy : s.busy = true
  nbreq : s.nbreq = q

/-- Set at pixel `first` in phase `p`, the engine does in `n` micro-steps what `f` does, and if that raised no fault it
has gone on from pixel `last`. -/
structure Runs (q : BitVec 2) (n : Nat) (first last : Pxc) (p : Phase) (f : State → State) : Prop where
  run : ∀ s, Running q s → microSteps n { s with pxc := first, phase := p } = ifOk advance (f s)
  ends : ∀ s, Running q s → (f s).fault = false → Running q (f s) ∧ (f s).pxc = last

theorem forEach_singleton {α : Type} (f : α → State → State) (a : α) (s : State) : forEach f [a] s = f a s := by
  unfold forEach ifOk
  split <;> rfl

/-- A counted loop runs turn after turn, where the advance from one turn's last pixel is to the next one's first. -/
theorem Runs.loop {q : BitVec 2} {n c : Nat} {first last : Nat → Pxc} {p : Phase} {f : Nat → State → State}
    (hturn : ∀ k, k < n + 1 → Runs q c (first k) (last k) p (f k))
    (hnext : ∀ k s, k < n → s.nbreq = q → s.pxc = last k → advance s = { s with pxc := first (k + 1), phase := p }) :
    Runs q ((n + 1) * c) (first 0) (last n) p (forEach f (List.range (n + 1))) := by
  induction n with
  | zero =>
    have hone (s : State) : forEach f (List.range 1) s = f 0 s := forEach_singleton f 0 s
    have hrun := hturn 0 Nat.zero_lt_one
    exact ⟨fun s hs => by rw [Nat.one_mul, hone, hrun.run s hs], fun s hs hok => by
      rw [hone] at hok ⊢
      exact hrun.ends s hs hok⟩
  | succ n ih =>
    have hbefore := ih (fun k hk => hturn k (by omega)) fun k s hk => hnext k s (by omega)
    have hlast := hturn (n + 1) (by omega)
    have hsplit {s : State} (hs : Running q s) : forEach f (List.range (n + 1 + 1)) s =
        ifOk (f (n + 1)) (forEach f (List.range (n + 1)) s) := by
      rw [List.range_succ, forEach_append f _ _ hs.fault]
      exact congrArg (fun g => ifOk g _) (funext fun u => forEach_singleton f (n + 1) u)
    constructor
    · intro s hs
      rw [hsplit hs, Nat.succ_mul, microSteps_add, hbefore.run s hs]
      cases hf : (forEach f (List.range (n + 1)) s).fault with
      | true => rw [ifOk_of_fault hf, ifOk_of_fault hf, ifOk_of_fault hf, microSteps_of_stopped (.inr hf)]
      | false =>
        obtain ⟨hu, hpxc⟩ := hbefore.ends s hs hf
        rw [ifOk_of_ok hf, ifOk_of_ok hf, hnext n _ (Nat.lt_succ_self n) hu.nbreq hpxc, hlast.run _ hu]
    · intro s hs hok
      rw [hsplit hs] at hok ⊢
      cases hf : (forEach f (List.range (n + 1)) s).fault with
      | true =>
        rw [ifOk_of_fault hf, hf] at hok
        cases hok
      | false =>
        rw [ifOk_of_ok hf] at hok ⊢
        exact hlast.ends _ (hbefore.ends s hs hf).1 hok

/-! One pixel (rules R164 to R168). -/

theorem microSteps_of_fault_next {s u : State} (h : microStep s = u) (hf : u.fault = true) (n : Nat) :
    microSteps (n + 1) s = u := by
  rw [microSteps, h, microSteps_of_stopped (.inr hf)]

theorem advance_withPhase (p : Phase) (s : State) : advance { s with phase := p } = advance s := by
  unfold advance
  dsimp only
  split_ifs <;> rfl

section
variable {q : BitVec 2} {b t y x : Nat} (hb : b < 2) (ht : t < 384) (hy : y < 8) (hx : x < 8)
include hb ht hy hx

theorem microStep_resolve_at {s : State} (hs : Running q s) :
    (∃ c, s.resolve s.selr (colourIndex s.lo s.up x) = some c ∧
      microStep { s with pxc := Pxc.of b t y x, phase := .resolve } =
        { pixelLatched b t y x c s with phase := .check }) ∨
    (s.resolve s.selr (colourIndex s.lo s.up x) = none ∧
      microStep { s with pxc := Pxc.of b t y x, phase := .resolve } = faultedFrom .badColor (coordInfo b t y x)
        { s with pxc := Pxc.of b t y x, idx := colourIndex s.lo s.up x }) := by
  obtain ⟨eb, et, ey, ex⟩ := pxc_of hb ht hy hx
  have hstep := microStep_resolve (s := { s with pxc := Pxc.of b t y x, phase := .resolve }) hs.busy hs.fault rfl
  simp only [ex, Pxc.info, eb, et, ey] at hstep
  exact hstep

theorem microStep_check_at {s : State} (hs : Running q s) (hpxc : s.pxc = Pxc.of b t y x) :
    (b < s.nb.toNat ∧ microStep { s with phase := .check } = { s with phase := .writeTile }) ∨
    (s.nb.toNat ≤ b ∧ microStep { s with phase := .check } = faultedFrom .badBank (coordInfo b t y x) s) := by
  obtain ⟨eb, et, ey, ex⟩ := pxc_of hb ht hy hx
  rw [← hpxc] at eb et ey ex
  have hstep := microStep_check (s := { s with phase := .check }) hs.busy hs.fault rfl (et.trans_lt ht)
  simp only [Pxc.info, eb, et, ey, ex] at hstep
  exact hstep

/-- The two writes of a pixel, each a micro-step. -/
theorem microSteps_writes_at {s : State} (hs : Running q s) (hpxc : s.pxc = Pxc.of b t y x) :
    microSteps 2 { s with phase := .writeTile } = advance (setPixel b t y x s.col s) := by
  obtain ⟨eb, et, ey, ex⟩ := pxc_of hb ht hy hx
  rw [← hpxc] at eb et ey ex
  have htile := microStep_writeTile (s := { s with phase := .writeTile }) hs.busy hs.fault rfl
  have hmosaic := microStep_writeMosaic
    (s := { writeTbufAtPxc { s with phase := .writeTile } with phase := .writeMosaic }) hs.busy hs.fault rfl
  have hwritten : writeMosaicAtPxc { writeTbufAtPxc { s with phase := .writeTile } with phase := .writeMosaic } =
      { setPixel b t y x s.col s with phase := .writeMosaic } := by
    simp only [writeMosaicAtPxc, writeTbufAtPxc, writeTbuf_fields, eb, et, ey, ex]
    rfl
  rw [microSteps, microSteps, microSteps, htile, hmosaic, hwritten, advance_withPhase]

theorem decodePixel_run {s : State} (hs : Running q s) :
    microSteps 4 { s with pxc := Pxc.of b t y x, phase := .resolve } = ifOk advance (decodePixel b t y x s) := by
  have hlatched (c : Rgb) : Running q (pixelLatched b t y x c s) := ⟨hs.fault, hs.busy, hs.nbreq⟩
  rcases microStep_resolve_at hb ht hy hx hs with ⟨c, hr, hstep⟩ | ⟨hr, hstep⟩
  · rcases decodePixel_cases hb ht hy hx hs.fault with ⟨c', hr', hn, e⟩ | ⟨hr', -⟩ | ⟨c', hr', hn, e⟩
    · obtain rfl : c = c' := Option.some.inj (hr.symm.trans hr')
      rcases microStep_check_at hb ht hy hx (hlatched c) rfl with ⟨-, hcheck⟩ | ⟨hbad, -⟩
      · have hok : (setPixel b t y x (opaqueColour c) (pixelLatched b t y x c s)).fault = false := by
          rw [setPixel_frame]
          exact hs.fault
        rw [e, ifOk_of_ok hok, microSteps, hstep, microSteps, hcheck]
        exact microSteps_writes_at hb ht hy hx (hlatched c) rfl
      · exact absurd hn hbad.not_gt
    · rw [hr] at hr'
      cases hr'
    · obtain rfl : c = c' := Option.some.inj (hr.symm.trans hr')
      rcases microStep_check_at hb ht hy hx (hlatched c) rfl with ⟨hin, -⟩ | ⟨-, hcheck⟩
      · exact absurd hin hn.not_gt
      · rw [e, ifOk_of_fault rfl, microSteps, hstep, microSteps_of_fault_next hcheck rfl]
  · rcases decodePixel_cases hb ht hy hx hs.fault with ⟨c', hr', -, -⟩ | ⟨-, e⟩ | ⟨c', hr', -, -⟩
    · rw [hr] at hr'
      cases hr'
    · rw [e, ifOk_of_fault rfl, microSteps_of_fault_next hstep rfl]
    · rw [hr] at hr'
      cases hr'

theorem decodePixel_runs :
    Runs q 4 (Pxc.of b t y x) (Pxc.of b t y x) .resolve (decodePixel b t y x) := by
  refine ⟨fun s hs => decodePixel_run hb ht hy hx hs, fun s hs hok => ?_⟩
  rcases decodePixel_cases hb ht hy hx hs.fault with ⟨c, -, -, e⟩ | ⟨-, e⟩ | ⟨c, -, -, e⟩
  · rw [e, setPixel_frame]
    exact ⟨⟨hs.fault, hs.busy, hs.nbreq⟩, rfl⟩
  · rw [e] at hok
    cases hok
  · rw [e] at hok
    cases hok

end

/-! One row, one tile, one bank, the pass (rules R160, R163). -/

section
variable {q : BitVec 2} {b t y : Nat}

theorem microStep_readLower_at (hb : b < 2) (ht : t < 384) (hy : y < 8) {s : State} (hs : Running q s) :
    (∃ lo, s.tileByte b (16 * t + 2 * y) = some lo ∧
      microStep { s with pxc := Pxc.of b t y 0, phase := .readLower } =
        { s with pxc := Pxc.of b t y 0, lo := lo, phase := .readUpper }) ∨
    (s.tileByte b (16 * t + 2 * y) = none ∧
      microStep { s with pxc := Pxc.of b t y 0, phase := .readLower } =
        faultedFrom .tilememErr (tileInfo b (16 * t + 2 * y)) { s with pxc := Pxc.of b t y 0 }) := by
  obtain ⟨eb, et, ey, -⟩ := pxc_of hb ht hy (by decide : 0 < 8)
  have hstep := microStep_readLower (s := { s with pxc := Pxc.of b t y 0, phase := .readLower }) hs.busy hs.fault rfl
  simp only [Pxc.rowOffset, eb, et, ey] at hstep
  exact hstep

theorem microStep_readUpper_at (hb : b < 2) (ht : t < 384) (hy : y < 8) {s : State} (hs : Running q s)
    (hpxc : s.pxc = Pxc.of b t y 0) :
    (∃ up, s.tileByte b (16 * t + 2 * y + 1) = some up ∧
      microStep { s with phase := .readUpper } = { s with up := up, phase := .resolve }) ∨
    (s.tileByte b (16 * t + 2 * y + 1) = none ∧
      microStep { s with phase := .readUpper } =
        faultedFrom .tilememErr (tileInfo b (16 * t + 2 * y + 1)) s) := by
  obtain ⟨eb, et, ey, -⟩ := pxc_of hb ht hy (by decide : 0 < 8)
  rw [← hpxc] at eb et ey
  have hstep := microStep_readUpper (s := { s with phase := .readUpper }) hs.busy hs.fault rfl
  simp only [Pxc.rowOffset, eb, et, ey] at hstep
  exact hstep

/-- The row fetch, each byte a micro-step. -/
theorem rowFetch_run (hb : b < 2) (ht : t < 384) (hy : y < 8) {s : State} (hs : Running q s) :
    let fetched := ifOk readUpper (readLower { s with pxc := Pxc.of b t y 0 })
    (fetched.fault = true ∧ microSteps 2 { s with pxc := Pxc.of b t y 0, phase := .readLower } = fetched) ∨
    (Running q fetched ∧ fetched.pxc = Pxc.of b t y 0 ∧
      microSteps 2 { s with pxc := Pxc.of b t y 0, phase := .readLower } =
        { fetched with pxc := Pxc.of b t y 0, phase := .resolve }) := by
  intro fetched
  have hlatched (lo : Byte) : Running q { s with pxc := Pxc.of b t y 0, lo := lo } := ⟨hs.fault, hs.busy, hs.nbreq⟩
  rcases microStep_readLower_at hb ht hy hs with ⟨lo, hlo, hlower⟩ | ⟨hlo, hlower⟩
  · rcases rowFetch_cases hb ht hy hs.fault with ⟨lo', up, hlo', hup, e⟩ | ⟨hlo', -⟩ | ⟨lo', hlo', hup, e⟩
    · obtain rfl : lo = lo' := Option.some.inj (hlo.symm.trans hlo')
      rcases microStep_readUpper_at hb ht hy (hlatched lo) rfl with ⟨up', hup', hupper⟩ | ⟨hup', -⟩
      · obtain rfl : up = up' := Option.some.inj (hup.symm.trans hup')
        refine .inr ?_
        rw [show fetched = _ from e, microSteps, hlower, microSteps, hupper]
        exact ⟨⟨hs.fault, hs.busy, hs.nbreq⟩, rfl, rfl⟩
      · exact absurd (hup.symm.trans hup') (Option.some_ne_none up)
    · exact absurd (hlo.symm.trans hlo') (Option.some_ne_none lo)
    · obtain rfl : lo = lo' := Option.some.inj (hlo.symm.trans hlo')
      rcases microStep_readUpper_at hb ht hy (hlatched lo) rfl with ⟨up', hup', -⟩ | ⟨-, hupper⟩
      · exact absurd (hup'.symm.trans hup) (Option.some_ne_none up')
      · refine .inl ?_
        rw [show fetched = _ from e, microSteps, hlower, microSteps_of_fault_next hupper rfl]
        exact ⟨rfl, rfl⟩
  · rcases rowFetch_cases hb ht hy hs.fault with ⟨lo', up, hlo', -, -⟩ | ⟨-, e⟩ | ⟨lo', hlo', -, -⟩
    · exact absurd (hlo'.symm.trans hlo) (Option.some_ne_none lo')
    · refine .inl ?_
      rw [show fetched = _ from e, microSteps_of_fault_next hlower rfl]
      exact ⟨rfl, rfl⟩
    · exact absurd (hlo'.symm.trans hlo) (Option.some_ne_none lo')

theorem decodePixels_runs (hb : b < 2) (ht : t < 384) (hy : y < 8) :
    Runs q (8 * 4) (Pxc.of b t y 0) (Pxc.of b t y 7) .resolve (forEach (decodePixel b t y) (List.range 8)) := by
  refine Runs.loop (n := 7) (first := Pxc.of b t y) (last := Pxc.of b t y)
    (fun x hx => decodePixel_runs hb ht hy hx) fun x s hx _ hpxc => ?_
  rw [advance_at hpxc hb ht hy (by omega), if_pos hx]

theorem decodeRow_runs (hb : b < 2) (ht : t < 384) (hy : y < 8) :
    Runs q (2 + 8 * 4) (Pxc.of b t y 0) (Pxc.of b t y 7) .readLower (decodeRow b t y) := by
  have hpixels := decodePixels_runs (q := q) hb ht hy
  constructor
  · intro s hs
    rw [microSteps_add, decodeRow]
    rcases rowFetch_run hb ht hy hs with ⟨hf, e⟩ | ⟨hu, -, e⟩
    · rw [e, ifOk_of_fault hf, ifOk_of_fault hf, microSteps_of_stopped (.inr hf)]
    · rw [e, ifOk_of_ok hu.fault, hpixels.run _ hu]
  · intro s hs hok
    rw [decodeRow] at hok ⊢
    rcases rowFetch_run hb ht hy hs with ⟨hf, -⟩ | ⟨hu, -, -⟩
    · rw [ifOk_of_fault hf, hf] at hok
      cases hok
    · rw [ifOk_of_ok hu.fault] at hok ⊢
      exact hpixels.ends _ hu hok

theorem decodeTile_runs (hb : b < 2) (ht : t < 384) :
    Runs q (8 * (2 + 8 * 4)) (Pxc.of b t 0 0) (Pxc.of b t 7 7) .readLower (decodeTile b t) := by
  refine Runs.loop (n := 7) (first := fun y => Pxc.of b t y 0) (last := fun y => Pxc.of b t y 7)
    (fun y hy => decodeRow_runs hb ht hy) fun y s hy _ hpxc => ?_
  rw [advance_at hpxc hb ht (by omega) (by decide), if_neg (by decide), if_pos hy]

theorem decodeBank_runs (hb : b < 2) :
    Runs q (384 * (8 * (2 + 8 * 4))) (Pxc.of b 0 0 0) (Pxc.of b 383 7 7) .readLower (decodeBank b) := by
  refine Runs.loop (n := 383) (first := fun t => Pxc.of b t 0 0) (last := fun t => Pxc.of b t 7 7)
    (fun t ht => decodeTile_runs hb ht) fun t s ht _ hpxc => ?_
  rw [advance_at hpxc hb (by omega) (by decide) (by decide), if_neg (by decide), if_neg (by decide), if_pos ht]

theorem decodeBanks_runs {n : Nat} (hn : n < 2) (hq : q.toNat = n + 1) :
    Runs q ((n + 1) * (384 * (8 * (2 + 8 * 4)))) (Pxc.of 0 0 0 0) (Pxc.of n 383 7 7) .readLower
      (forEach decodeBank (List.range (n + 1))) := by
  refine Runs.loop (first := fun b => Pxc.of b 0 0 0) (last := fun b => Pxc.of b 383 7 7)
    (fun b hb => decodeBank_runs (by omega)) fun b s hb hs hpxc => ?_
  rw [advance_at hpxc (by omega) (by decide) (by decide) (by decide), if_neg (by decide), if_neg (by decide),
    if_neg (by decide), if_pos (by rw [hs, hq]; omega)]

end

/-- Past the last pixel of the last bank the advance is the completion of the command level (rules R130, R170). -/
theorem advance_eq_complete {q : BitVec 2} {n : Nat} {u : State} (hn : n < 2) (hq : q.toNat = n + 1)
    (hu : Running q u) (hpxc : u.pxc = Pxc.of n 383 7 7) (hp : u.phase = .idle) : advance u = complete u := by
  rw [advance_at hpxc hn (by decide) (by decide) (by decide), if_neg (by decide), if_neg (by decide),
    if_neg (by decide), if_neg (by rw [hu.nbreq, hq]; omega), complete_of_ok hu.fault, finish, ← hp]

/-- The rule of `DECODE` leaves the sequencer idle, by completing or by its fault. -/
theorem decodeBody_phase {mode : Mode} {sel : Byte} {s : State} (h : s.fault = false) (hp : s.phase = .idle) :
    (decodeBody mode sel s).phase = .idle := by
  rcases decodeBody_cases mode sel h with ⟨-, hd, -⟩ | ⟨-, b, -, hd⟩
  · rw [hd.frame]
    exact hp
  · rw [hd.frame]

/-- An accepted `DECODE`, left to run, ends as the command level's does. -/
theorem microSteps_decode {s : State} (hidle : s.idle) (hp : s.phase = .idle) (mode : Mode) (sel : Byte) :
    microSteps ((banksRequested mode).toNat * 104448) (startDecode mode sel { s with busy := true }) =
      complete (decodeBody mode sel { s with busy := true }) := by
  obtain ⟨n, hn, hq⟩ : ∃ n, n < 2 ∧ (banksRequested mode).toNat = n + 1 := by
    cases mode
    · exact ⟨0, by decide, rfl⟩
    · exact ⟨1, by decide, rfl⟩
  have hruns := decodeBanks_runs hn hq
  have hs : Running (banksRequested mode) (latchDecode mode sel { s with busy := true }) := ⟨hidle.1, rfl, rfl⟩
  have hcount : 104448 = 384 * (8 * (2 + 8 * 4)) := by decide
  have hbody : forEach decodeBank (List.range (n + 1)) (latchDecode mode sel { s with busy := true }) =
      decodeBody mode sel { s with busy := true } := by
    rw [decodeBody, hq]
  have hrun := hruns.run _ hs
  have hends := hruns.ends _ hs
  rw [hbody] at hrun hends
  rw [hq, hcount]
  refine hrun.trans ?_
  cases hf : (decodeBody mode sel { s with busy := true }).fault with
  | true => rw [ifOk_of_fault hf, complete_of_fault hf]
  | false =>
    obtain ⟨hu, hpxc⟩ := hends hf
    rw [ifOk_of_ok hf, advance_eq_complete hn hq hu hpxc (decodeBody_phase hidle.1 hp)]

/-- Settles O32: acceptance is the same at both levels, and an accepted pass is the loop nest, access by access. -/
theorem decodeLevelsAgree : Obligations.DecodeLevelsAgree := by
  unfold Obligations.DecodeLevelsAgree
  intro s mode sel hp
  refine ⟨_, commandIssue_decode (decodeInvertsEncode (.decode mode sel)) s, ?_⟩
  rcases accept_stops_or_starts (encode (.decode mode sel)) true s with ⟨hno, r, hr, he⟩ | ⟨hidle, -, he⟩
  · rw [he, microSteps_of_stopped hr]
    exact ⟨congrArg Host.Outcome.next (he _), fun hidle hi => absurd ⟨hidle, fun _ => hi⟩ hno⟩
  · rw [he, microSteps_decode hidle hp mode sel]
    exact ⟨congrArg Host.Outcome.next (he _), fun _ _ => rfl⟩

end Sys2Proof.Machine
end

section
/-! SUPPORT. The geometry of the mosaic (rules R67 to R71, R181): its gridlines described by remainders and by lines, and
every other pixel as the place of one tile pixel. From these O13, O14 and O53. -/

namespace Sys2Proof.Machine

theorem isGrid_iff (c : Cfg) (mx my : Nat) :
    isGrid c mx my = true ↔ 128 ≤ mx % bankPitch c ∨ (128 ≤ my ∧ my < 128 + c.hgap.toNat) := by
  simp [isGrid]

/-- A column is in the bank block of its quotient by the pitch (rule R68). -/
theorem bankX_add_mod (c : Cfg) (mx : Nat) : bankX c (mx / bankPitch c) + mx % bankPitch c = mx :=
  Nat.div_add_mod' mx (bankPitch c)

theorem bank_of_column_lt {c : Cfg} {nb : BitVec 2} {mx : Nat} (h : mx < mosaicW c nb) : mx / bankPitch c < nb.toNat :=
  Nat.div_lt_of_lt_mul (h.trans_eq (Nat.mul_comm _ _))

theorem bankX_add_mod_of_lt {c : Cfg} {r : Nat} (b : Nat) (h : r < bankPitch c) : (bankX c b + r) % bankPitch c = r :=
  Nat.mul_add_mod_of_lt h

/-- A column past the 128 of its bank block is on the block's vertical line (rule R70). -/
theorem vertical_iff {c : Cfg} {nb : BitVec 2} {mx : Nat} (h : mx < mosaicW c nb) :
    128 ≤ mx % bankPitch c ↔
      ∃ b, b < nb.toNat ∧ bankX c b + 128 ≤ mx ∧ mx < bankX c b + 128 + c.vgap.toNat := by
  constructor
  · intro hline
    have hsplit := bankX_add_mod c mx
    have hmod : mx % bankPitch c < 128 + c.vgap.toNat := Nat.mod_lt mx (bankPitch_pos c)
    exact ⟨mx / bankPitch c, bank_of_column_lt h, by omega, by omega⟩
  · rintro ⟨b, -, hlow, hhigh⟩
    obtain ⟨r, rfl⟩ := Nat.exists_eq_add_of_le (Nat.le_of_add_right_le hlow)
    have hr : r < bankPitch c := by
      unfold bankPitch
      omega
    rw [bankX_add_mod_of_lt b hr]
    omega

/-- Settles O13: the columns past the 128 of a bank block are its vertical line. -/
theorem gridDescriptionsAgree : Obligations.GridDescriptionsAgree := by
  unfold Obligations.GridDescriptionsAgree
  intro c nb mx my hx _
  rw [isGrid_iff, vertical_iff hx]

/-! The placement (rule R71). -/

theorem pixelMx_inj {c : Cfg} {b t x b' t' x' : Nat} (hx : x < 8) (hx' : x' < 8)
    (h : pixelMx c b t x = pixelMx c b' t' x') : b = b' ∧ t % 16 = t' % 16 ∧ x = x' := by
  have hdiv := congrArg (· / bankPitch c) h
  have hmod := congrArg (· % bankPitch c) h
  simp only [pixelMx_div c _ _ _ hx, pixelMx_div c _ _ _ hx'] at hdiv
  simp only [pixelMx_mod c _ _ _ hx, pixelMx_mod c _ _ _ hx'] at hmod
  omega

theorem pixelMy_inj {c : Cfg} {t y t' y' : Nat} (ht : t < 384) (ht' : t' < 384) (hy : y < 8) (hy' : y' < 8)
    (h : pixelMy c t y = pixelMy c t' y') : t / 16 = t' / 16 ∧ y = y' := by
  rw [pixelMy_eq c y ht, pixelMy_eq c y' ht'] at h
  split_ifs at h <;> omega

/-- A column off the vertical lines is one of a tile of its bank. -/
theorem exists_pixelMx {c : Cfg} {nb : BitVec 2} {mx : Nat} (h : mx < mosaicW c nb) (hline : mx % bankPitch c < 128) :
    ∃ b q x, b < nb.toNat ∧ q < 16 ∧ x < 8 ∧ ∀ t, t % 16 = q → mx = pixelMx c b t x := by
  refine ⟨mx / bankPitch c, mx % bankPitch c / 8, mx % bankPitch c % 8, bank_of_column_lt h, by omega, by omega,
    fun t ht => ?_⟩
  have hsplit := bankX_add_mod c mx
  unfold pixelMx
  omega

/-- A row off the horizontal band is one of a tile row above or below it. -/
theorem exists_pixelMy {c : Cfg} {my : Nat} (h : my < mosaicH c) (hband : ¬ (128 ≤ my ∧ my < 128 + c.hgap.toNat)) :
    ∃ row y, row < 24 ∧ y < 8 ∧ ∀ t, t < 384 → t / 16 = row → my = pixelMy c t y := by
  unfold mosaicH at h
  by_cases habove : my < 128
  · refine ⟨my / 8, my % 8, by omega, by omega, fun t ht hrow => ?_⟩
    rw [pixelMy_eq c _ ht, if_pos (by omega)]
    omega
  · refine ⟨(my - c.hgap.toNat) / 8, (my - c.hgap.toNat) % 8, by omega, by omega, fun t ht hrow => ?_⟩
    rw [pixelMy_eq c _ ht, if_neg (by omega)]
    omega

/-- Settles O14: a pixel's column and row give back its bank, tile, row and column, and off the gridlines each column
and row has them. -/
theorem placementPartitionsTheMosaic : Obligations.PlacementPartitionsTheMosaic := by
  unfold Obligations.PlacementPartitionsTheMosaic
  intro c nb
  refine ⟨?injective, ?inside, ?covers⟩
  case injective =>
    intro b t y x b' t' y' x' ht hy hx ht' hy' hx' hmx hmy
    obtain ⟨hb, hcolumn, hxx⟩ := pixelMx_inj hx hx' hmx
    obtain ⟨hrow, hyy⟩ := pixelMy_inj ht ht' hy hy' hmy
    exact ⟨hb, by omega, hyy, hxx⟩
  case inside =>
    intro b t y x hb ht hy hx
    exact ⟨pixelMx_lt c nb hb hx, pixelMy_lt c ht hy, pixel_not_grid c b ht hy hx⟩
  case covers =>
    intro mx my hmx hmy hgrid
    rw [Bool.eq_false_iff, ne_eq, isGrid_iff, not_or, not_le] at hgrid
    obtain ⟨hline, hband⟩ := hgrid
    obtain ⟨b, q, x, hb, hq, hx, hcolumn⟩ := exists_pixelMx hmx hline
    obtain ⟨row, y, hrow, hy, hrows⟩ := exists_pixelMy hmy hband
    exact ⟨b, 16 * row + q, y, x, hb, by omega, hy, hx, hcolumn _ (by omega), hrows _ (by omega) (by omega)⟩

/-! The bounds (rule R181). -/

theorem bankPitch_le (c : Cfg) : bankPitch c ≤ 383 := by
  have := c.vgap.isLt
  unfold bankPitch
  omega

theorem bankX_le {b : Nat} (c : Cfg) (hb : b < 2) : bankX c b ≤ 383 :=
  calc b * bankPitch c ≤ 1 * 383 := Nat.mul_le_mul (Nat.le_of_lt_succ hb) (bankPitch_le c)

theorem mosaicW_le {nb : BitVec 2} (c : Cfg) (hn : nb.toNat ≤ 2) : mosaicW c nb ≤ 766 :=
  calc nb.toNat * bankPitch c ≤ 2 * 383 := Nat.mul_le_mul hn (bankPitch_le c)

theorem mosaicH_le (c : Cfg) : mosaicH c ≤ 447 := by
  have := c.hgap.isLt
  unfold mosaicH
  omega

theorem mosaicSize_le {nb : BitVec 2} (c : Cfg) (hn : nb.toNat ≤ 2) : mosaicSize c nb ≤ 342402 :=
  calc mosaicW c nb * mosaicH c ≤ 766 * 447 := Nat.mul_le_mul (mosaicW_le c hn) (mosaicH_le c)

theorem pixelMx_le {b x : Nat} (c : Cfg) (t : Nat) (hb : b < 2) (hx : x < 8) : pixelMx c b t x ≤ 510 := by
  have := bankX_le c hb
  unfold pixelMx
  omega

/-- Settles O53: each bound follows from those of its parts. -/
theorem arithmeticBounds : Obligations.ArithmeticBounds := by
  unfold Obligations.ArithmeticBounds
  intro c b t y x hb ht hy hx
  have hmy := pixelMy_lt c ht hy
  have hh := mosaicH_le c
  have hsize := mosaicSize_le (nb := 2#2) c le_rfl
  have hindex : tbufIndex b t y x < tbufSize 2#2 := tbufIndex_lt hb ht hy hx
  have hindex_le : tbufSize 2#2 = 49152 := rfl
  refine ⟨by omega, by omega, by omega, bankX_le c hb, pixelMx_le c t hb hx, by omega, ?width, mosaicW_le c le_rfl,
    Nat.le_add_right 192 _, hh, fun nb hb' => ?index, by omega, by omega, fun lo up => Nat.le_of_lt_succ (BitVec.isLt _)⟩
  case width => exact Nat.mul_le_mul_left 2 (Nat.le_add_right 128 _)
  case index => exact Nat.le_sub_one_of_lt (mosaicIndex_lt c nb (pixelMx_lt c nb hb' hx) hmy)

end Sys2Proof.Machine
end

section
/-! SUPPORT. `SETPIX` in range, `MSNAP` and `TSNAP` on an idle, initialised TDU (rules R140, R142, R143, R144): what each
writes. From these O15, O17 and O18. -/

namespace Sys2Proof.Machine

/-- Settles O15: past its checks `SETPIX` is the dual write. -/
theorem setpixWritesBothMemories : Obligations.SetpixWritesBothMemories := by
  unfold Obligations.SetpixWritesBothMemories
  intro s bank tile ly lx hidle hi hb ht hy hx
  obtain ⟨-, -, -, -, hwrite⟩ := setpixChecksInOrder s bank tile ly lx hidle hi
  refine ⟨_, hwrite hx hy ht hb, setPixel_frame .., ?_, ?_, fun i hne => ?_, fun i hne => ?_⟩
  · rw [tbufWord_of_in (by exact hb) ht hy hx, tbufAt_setPixel, if_pos rfl]
  · rw [show s.cfg = (setPixel _ _ _ _ _ s).cfg from rfl, mosaicWord_pixel (by exact hb) ht hy hx, mosaicAt_setPixel]
    exact congrArg some (if_pos rfl)
  · rw [tbufAt_setPixel, if_neg hne.symm]
  · rw [mosaicAt_setPixel, if_neg hne.symm]

/-- Two halves packed by shift and or, as their concatenation (rule R143). -/
theorem ofNat_halves {h w : Nat} (hh : h < 2 ^ 16) (hw : w < 2 ^ 16) :
    BitVec.ofNat 32 (h <<< 16 ||| w) = BitVec.ofNat 16 h ++ BitVec.ofNat 16 w := by
  have hfields : (BitVec.ofNat 16 h ++ BitVec.ofNat 16 w).toNat = h <<< 16 ||| w := by
    rw [BitVec.toNat_append, BitVec.toNat_ofNat, BitVec.toNat_ofNat, Nat.mod_eq_of_lt hh, Nat.mod_eq_of_lt hw]
  rw [← hfields, BitVec.ofNat_toNat, BitVec.setWidth_eq]

/-- Settles O17: both dimensions fit their half of `RESULT`. -/
theorem msnapShowsTheMosaic : Obligations.MsnapShowsTheMosaic := by
  unfold Obligations.MsnapShowsTheMosaic
  intro s hidle hi
  have hh : mosaicH s.cfg < 2 ^ 16 := (mosaicH_le s.cfg).trans_lt (by decide)
  have hexec : exec .msnap s = .next (msnapBody s) := exec_of_idle hidle (fun _ => hi) (fun _ => rfl) fun _ => rfl
  refine ⟨_, hexec, ?_, winlen_mosaic rfl⟩
  rw [← ofNat_halves hh (mosaicW_lt s.cfg s.nb)]
  rfl

/-! `TSNAP` (rule R144). -/

/-- The coordinate a failed check reports is bits 19:8 of the command word (rules R106, R144). -/
theorem coordInfo_tsnap (bank : BitVec 2) (tile : BitVec 10) :
    coordInfo bank.toNat tile.toNat 0 0 = encode (.tsnap bank tile) &&& 0x000FFF00#32 := by
  have hmask : 0x000FFF00#32 = 0#4 ++ 0#8 ++ BitVec.allOnes 2 ++ BitVec.allOnes 10 ++ 0#8 := by decide
  have hfields : encode (.tsnap bank tile) &&& 0x000FFF00#32 =
      (0x5#4 &&& 0#4) ++ (0#8 &&& 0#8) ++ (bank &&& .allOnes 2) ++ (tile &&& .allOnes 10) ++ (0#8 &&& 0#8) := by
    rw [hmask, encode]
    simp only [← BitVec.and_append]
    exact BitVec.and_append
  have hinfo := coordInfo_eq_append bank tile 0#4 0#4
  rw [BitVec.append_assoc] at hinfo
  rw [hfields]
  simp only [BitVec.and_zero, BitVec.and_allOnes]
  exact hinfo

/-- An accepted `TSNAP` is the chain of rule R144: the first range check that fails, else the window on the tile. -/
theorem exec_tsnap_eq {s : State} (h : s.idle) (hi : s.inited = true) (bank : BitVec 2) (tile : BitVec 10) :
    let info := encode (.tsnap bank tile) &&& 0x000FFF00#32
    exec (.tsnap bank tile) s = .next (
      if 384 ≤ tile.toNat then faultedFrom .badTile info s
      else if s.nb.toNat ≤ bank.toNat then faultedFrom .badBank info s
      else showTile bank tile s) := by
  have hok : ({ s with busy := true } : State).fault = false := h.1
  rw [exec_eq_perform, perform_of_idle h fun _ => hi, commandBody]
  simp only [checkTile, coordInfo_tsnap, raise_of_ok hok]
  split_ifs
  case neg =>
    rw [complete_ifOk_of_ok hok hok]
    exact congrArg (fun s => Host.Outcome.next (showTile bank tile s)) (busy_restored h.2)
  all_goals rw [complete_ifOk_of_fault rfl]

/-- The tile buffer `TSNAP` names, in the window's registers (rules R29, R144). -/
theorem showTile_eq (bank : BitVec 2) (tile : BitVec 10) (s : State) : showTile bank tile s =
    { s with
      winsel := .tile, winbank := bank.extractLsb' 0 1, wintile := tile.extractLsb' 0 9, result := 0x00080008#32 } := by
  rw [showTile, BitVec.setWidth_eq_extractLsb' (by decide), BitVec.setWidth_eq_extractLsb' (by decide)]
  rfl

/-- Settles O18: each clause is one branch of the chain of checks. -/
theorem tsnapShowsOneTile : Obligations.TsnapShowsOneTile := by
  unfold Obligations.TsnapShowsOneTile
  intro s bank tile hidle hi i info
  have hchain := exec_tsnap_eq hidle hi bank tile
  refine ⟨?shown, ?badTile, ?badBank⟩
  case shown =>
    intro ht hb
    refine ⟨_, ?_, showTile_eq bank tile s, winlen_tile rfl⟩
    rw [hchain, if_neg ht.not_ge, if_neg hb.not_ge]
  case badTile =>
    intro ht
    rw [hchain, if_pos ht]
  case badBank =>
    intro ht hb
    rw [hchain, if_neg ht.not_ge, if_pos hb]

end Sys2Proof.Machine
end

section
/-! SUPPORT. Termination (rule R261): a running command has a bounded number of accesses left, and each micro-step does
one of them. From these O36. -/

namespace Sys2Proof.Machine

theorem Pxc.Within.index_lt {n : Nat} {p : Pxc} (h : p.Within n) : p.index < n * 24576 := by
  obtain ⟨hb, ht⟩ := h
  have hy := p.y.isLt
  have hx := p.x.isLt
  unfold Pxc.index tbufIndex
  omega

/-- How many micro-steps a pass has left for the pixel it stands at, the row reads counted for every pixel. -/
def Phase.accessesLeft : Phase → Nat
  | .readLower => 6
  | .readUpper => 5
  | .resolve => 4
  | .check => 3
  | .writeTile => 2
  | .writeMosaic => 1
  | _ => 0

/-- How many micro-steps, at most, a running command has left. -/
def State.workLeft (s : State) : Nat :=
  match s.phase with
  | .idle => 0
  | .paintTile n i => (tbufSize n - i) + mosaicSize s.cfg n
  | .paintMosaic n i => mosaicSize s.cfg n - i
  | p => 6 * (s.nbreq.toNat * 24576 - (s.pxc.index + 1)) + p.accessesLeft

theorem workLeft_of_decoding {s : State} (h : s.phase.decoding = true) :
    s.workLeft = 6 * (s.nbreq.toNat * 24576 - (s.pxc.index + 1)) + s.phase.accessesLeft := by
  unfold State.workLeft
  cases hp : s.phase <;> simp [hp, Phase.decoding] at h ⊢

theorem workLeft_of_paintTile {s : State} {n : BitVec 2} {i : Nat} (hp : s.phase = .paintTile n i) :
    s.workLeft = (tbufSize n - i) + mosaicSize s.cfg n := by
  rw [State.workLeft, hp]

theorem workLeft_of_paintMosaic {s : State} {n : BitVec 2} {i : Nat} (hp : s.phase = .paintMosaic n i) :
    s.workLeft = mosaicSize s.cfg n - i := by
  rw [State.workLeft, hp]

theorem accessesLeft_le (p : Phase) : p.accessesLeft ≤ 6 := by cases p <;> simp [Phase.accessesLeft]

theorem accessesLeft_pos {p : Phase} (h : p.decoding = true) : 0 < p.accessesLeft := by
  cases p <;> simp [Phase.decoding, Phase.accessesLeft] at h ⊢

/-- A pass that stays at its pixel and goes to a later phase has less left. -/
theorem workLeft_lt_of_phase {s u : State} {p p' : Phase} (hp : s.phase = p) (hp' : u.phase = p')
    (hq : u.nbreq = s.nbreq) (hpxc : u.pxc = s.pxc) (hd : p.decoding = true) (hd' : p'.decoding = true)
    (hlt : p'.accessesLeft < p.accessesLeft) : u.workLeft < s.workLeft := by
  subst hp hp'
  rw [workLeft_of_decoding hd, workLeft_of_decoding hd', hq, hpxc]
  exact Nat.add_lt_add_left hlt _

section
variable {s : State} (h : s.Inv)
include h

theorem State.Inv.workLeft_le : s.workLeft ≤ 391554 := by
  have hsize {n : BitVec 2} (hn : n = 1#2 ∨ n = 2#2) : tbufSize n ≤ 49152 ∧ mosaicSize s.cfg n ≤ 342402 := by
    obtain ⟨-, -, hle⟩ := bankCount_bounds hn
    exact ⟨Nat.mul_le_mul_right 24576 hle, mosaicSize_le s.cfg hle⟩
  cases hp : s.phase with
  | idle => rw [State.workLeft, hp]; exact Nat.zero_le _
  | paintTile n i =>
    obtain ⟨hn, -, -⟩ := h.painted_tile hp
    obtain ⟨htbuf, hmosaic⟩ := hsize hn
    rw [workLeft_of_paintTile hp]
    omega
  | paintMosaic n i =>
    obtain ⟨hn, -, -, -⟩ := h.painted_mosaic hp
    obtain ⟨-, hmosaic⟩ := hsize hn
    rw [workLeft_of_paintMosaic hp]
    omega
  | _ =>
    have hd : s.phase.decoding = true := by rw [hp]; rfl
    obtain ⟨-, hq⟩ := h.within hd
    have hstage := accessesLeft_le s.phase
    rw [workLeft_of_decoding hd]
    omega

theorem State.Inv.workLeft_pos (hb : s.busy = true) : 0 < s.workLeft := by
  cases hp : s.phase with
  | idle => exact absurd hp (h.busy_iff.mp hb)
  | paintTile n i =>
    obtain ⟨-, hi, -⟩ := h.painted_tile hp
    rw [workLeft_of_paintTile hp]
    omega
  | paintMosaic n i =>
    obtain ⟨-, hi, -, -⟩ := h.painted_mosaic hp
    rw [workLeft_of_paintMosaic hp]
    omega
  | _ =>
    have hd : s.phase.decoding = true := by rw [hp]; rfl
    rw [workLeft_of_decoding hd]
    exact Nat.add_pos_right _ (accessesLeft_pos hd)

/-- The advance ends the pass or leaves one pixel less to do. -/
theorem State.Inv.advance_workLeft (hp : s.phase = .writeMosaic) :
    (Machine.advance s).busy = false ∨ (Machine.advance s).workLeft < s.workLeft := by
  have hd : s.phase.decoding = true := by rw [hp]; rfl
  obtain ⟨hin, hq⟩ := h.within hd
  rcases advance_cases hq hin with ⟨p, ph, e, hph, hin', hindex⟩ | e
  · have hd' : ph.decoding = true := by rcases hph with rfl | rfl <;> rfl
    have hlt := hin'.index_lt
    have hstage := accessesLeft_le ph
    have hpos := accessesLeft_pos hd
    rw [e, workLeft_of_decoding hd, workLeft_of_decoding (by exact hd'), hindex]
    exact .inr (by dsimp only; omega)
  · exact .inl (by rw [e]; rfl)

/-- Each micro-step ends the running command or leaves it less to do. -/
theorem State.Inv.microStep_workLeft (hb : s.busy = true) :
    (Machine.microStep s).busy = false ∨ (Machine.microStep s).workLeft < s.workLeft := by
  have hf := h.no_fault_of_busy hb
  cases hp : s.phase with
  | idle => exact absurd hp (h.busy_iff.mp hb)
  | paintTile n i =>
    obtain ⟨-, hi, -⟩ := h.painted_tile hp
    rw [microStep_paintTile hb hf hp, workLeft_of_paintTile hp]
    right
    split
    · rw [workLeft_of_paintTile rfl]
      exact Nat.add_lt_add_right (by omega) _
    · rw [workLeft_of_paintMosaic rfl]
      exact Nat.lt_add_of_pos_left (by omega)
  | paintMosaic n i =>
    obtain ⟨-, hi, -, -⟩ := h.painted_mosaic hp
    obtain ⟨mosaic, hframe⟩ := paintMosaicWord_frame n i s
    by_cases hlast : i + 1 < mosaicSize s.cfg n
    · rw [microStep_paintMosaic hb hf hp hlast, workLeft_of_paintMosaic hp, hframe, workLeft_of_paintMosaic rfl]
      exact .inr (Nat.sub_lt_sub_left hi (Nat.lt_succ_self i))
    · exact .inl (by rw [microStep_completes_init hb hf hp hlast]; rfl)
  | readLower =>
    rcases microStep_readLower hb hf hp with ⟨v, -, e⟩ | ⟨-, e⟩ <;> rw [e]
    · exact .inr (workLeft_lt_of_phase (p' := .readUpper) hp rfl rfl rfl rfl rfl (by decide))
    · exact .inl rfl
  | readUpper =>
    rcases microStep_readUpper hb hf hp with ⟨v, -, e⟩ | ⟨-, e⟩ <;> rw [e]
    · exact .inr (workLeft_lt_of_phase (p' := .resolve) hp rfl rfl rfl rfl rfl (by decide))
    · exact .inl rfl
  | resolve =>
    rcases microStep_resolve hb hf hp with ⟨c, -, e⟩ | ⟨-, e⟩ <;> rw [e]
    · exact .inr (workLeft_lt_of_phase (p' := .check) hp rfl rfl rfl rfl rfl (by decide))
    · exact .inl rfl
  | check =>
    have hin := (h.within (by rw [hp]; rfl)).1
    rcases microStep_check hb hf hp hin.tile with ⟨-, e⟩ | ⟨-, e⟩ <;> rw [e]
    · exact .inr (workLeft_lt_of_phase (p' := .writeTile) hp rfl rfl rfl rfl rfl (by decide))
    · exact .inl rfl
  | writeTile =>
    obtain ⟨tbuf, hframe⟩ := writeTbufAtPxc_frame s
    rw [microStep_writeTile hb hf hp, hframe]
    exact .inr (workLeft_lt_of_phase (p' := .writeMosaic) hp rfl rfl rfl rfl rfl (by decide))
  | writeMosaic =>
    have hwritten := h.writeMosaicAtPxc (by rw [hp]; rfl) (by rw [hp]; rfl)
    obtain ⟨mosaic, hframe⟩ := writeMosaicAtPxc_frame s
    rw [microStep_writeMosaic hb hf hp, hframe]
    rw [hframe] at hwritten
    exact hwritten.advance_workLeft hp

end

/-- The engine has stopped after as many micro-steps as its command has left. -/
theorem microSteps_stop {n : Nat} {s : State} (h : s.Inv) (hn : s.workLeft ≤ n) : (microSteps n s).busy = false := by
  induction n generalizing s with
  | zero =>
    refine Bool.eq_false_iff.mpr fun hb => ?_
    exact (h.workLeft_pos hb).not_ge hn
  | succ n ih =>
    cases hb : s.busy with
    | false => rw [microSteps_of_stopped (.inl hb), hb]
    | true =>
      rw [microSteps]
      rcases h.microStep_workLeft hb with hstop | hless
      · rw [microSteps_of_stopped (.inl hstop), hstop]
      · exact ih h.microStep (by omega)

/-- Settles O36: no command has more left than the 391554 accesses of the longest `INIT`. -/
theorem everyCommandTerminates : Obligations.EveryCommandTerminates := by
  unfold Obligations.EveryCommandTerminates
  exact fun s h => microSteps_stop h h.workLeft_le

end Sys2Proof.Machine
end

section
/-! SUPPORT. Words of the spec, the fields of `STATUS` and the state after reset. From these O4, O42 and O49. -/

namespace Sys2Proof.Machine

/-- Settles O4: the decoder runs. -/
theorem specWordsDecode : Obligations.SpecWordsDecode := by
  unfold Obligations.SpecWordsDecode
  decide

/-- Settles O42: what lies below a field is cut off, and what lies above it is not looked at. -/
theorem statusFields : Obligations.StatusFields := by
  unfold Obligations.StatusFields
  intro s
  have hbits : s.status.getLsbD 0 = s.busy ∧ s.status.getLsbD 1 = s.inited ∧ s.status.getLsbD 2 = s.fault ∧
      s.status.getLsbD 12 = s.bgvalid := by
    unfold State.status
    simp only [BitVec.getLsbD_append]
    simp
  obtain ⟨hbusy, hinited, hfault, hbgvalid⟩ := hbits
  refine ⟨hbusy, hinited, hfault, ?_, ?_, ?_, ?_, ?_, hbgvalid, ?_, hbusy, hfault, rfl, rfl, rfl⟩
  all_goals
    unfold State.status
    simp (disch := omega) only [BitVec.extractLsb'_append_eq_of_le, BitVec.extractLsb'_append_eq_of_add_le]
    exact BitVec.extractLsb'_eq_self

/-- Settles O49: without a bank neither memory has a word. -/
theorem resetState : Obligations.ResetState := by
  unfold Obligations.ResetState
  refine ⟨rfl, rfl, rfl, rfl, rfl, rfl, rfl, rfl, rfl, rfl, rfl, rfl, rfl, rfl, by decide,
    fun b t y x => ?_, fun my mx => ?_⟩
  · exact if_neg (by simp [State.reset])
  · exact if_neg (by simp [State.reset, mosaicW])

end Sys2Proof.Machine
end
